-- ==== Sys2Proof/Word.lean ====
section
/-! DEFINITION. The word types of the block: 16-bit words, the 7-bit resolved address, the 4-bit counter, and the
four-word groups of the transmit buffer and of a payload. -/

namespace Sys2Proof

/-- One unit the block moves: a whole 16-bit word (R9, R54). -/
abbrev Word := BitVec 16

/-- A resolved address `(chainAddress << 6) | deviceAddress`, 7 bits on the wire (R52, R73). -/
abbrev Addr := BitVec 7

/-- A message counter, 4 bits, advancing modulo 16 (R11, R23). -/
abbrev Counter := BitVec 4

/-- Four 16-bit words: `TxBuf[s][0..3]` (R27), `d.payload[0..3]` (R31), `values[0..3]` (R110). -/
structure Quad where
  w0 : Word
  w1 : Word
  w2 : Word
  w3 : Word
  deriving DecidableEq, Repr, Inhabited

end Sys2Proof
end

