-- ==== Sys2Proof/Syntax.lean ====
section
/-! DEFINITION. The instructions: one constructor for each row of spec/opcode_table.json. -/

namespace Sys2Proof

/-- The command field of a message (R70, R74). -/
inductive Command where
  | nop
  | read
  | write
  | response
  deriving DecidableEq, Repr, Inhabited

/-- The 20 rows of the opcode table. The rows of format REQ are requests on the request port with their operands in the
order of R91; `k` of the checksum operations and `L` of `DECOMPOSE` are the lengths of the word lists. A reserved row keeps
the 12 low bits of its opcode word, which the table leaves open (R92). The rows of format MSGHDR are received messages
(R70 to R72): the fields of the header word and the words after it, checksum included; the message length `L` is one more
than the number of those words (R75). -/
inductive Instr where
  | crcCompute (words : List Word)
  | crcVerify (words : List Word) (expected : Word)
  | compose (cmd : Command) (madd : BitVec 1) (ra : Addr) (reg : Word) (length : BitVec 2) (values : Quad)
  | decompose (words : List Word)
  | ctrExpected (ra : Addr)
  | ctrAdvance (ra : Addr)
  | ctrReset (ra : Addr) (stringId : Word)
  | write (ra : Addr) (reg value : Word)
  | read (ra : Addr) (reg : Word)
  | readMultiple (ra : Addr) (itemCount ipf reg : Word)
  | enumerate
  | reserved0 (low : BitVec 12)
  | reservedC (low : BitVec 12)
  | reservedD (low : BitVec 12)
  | reservedE (low : BitVec 12)
  | reservedF (low : BitVec 12)
  | msgNop (madd : BitVec 1) (ra : Addr) (cnt : Counter) (dl : BitVec 2) (body : List Word)
  | msgRead (madd : BitVec 1) (ra : Addr) (cnt : Counter) (dl : BitVec 2) (body : List Word)
  | msgWrite (madd : BitVec 1) (ra : Addr) (cnt : Counter) (dl : BitVec 2) (body : List Word)
  | msgResponse (madd : BitVec 1) (ra : Addr) (cnt : Counter) (dl : BitVec 2) (body : List Word)
  deriving DecidableEq, Repr

/-- The two formats of the opcode table: a request on the request port (R90), a message on the wire (R70). -/
inductive Format where
  | req
  | msgHdr
  deriving DecidableEq, Repr

/-- The format of an instruction's row. -/
def Instr.format : Instr → Format
  | .crcCompute _ => .req
  | .crcVerify _ _ => .req
  | .compose _ _ _ _ _ _ => .req
  | .decompose _ => .req
  | .ctrExpected _ => .req
  | .ctrAdvance _ => .req
  | .ctrReset _ _ => .req
  | .write _ _ _ => .req
  | .read _ _ => .req
  | .readMultiple _ _ _ _ => .req
  | .enumerate => .req
  | .reserved0 _ => .req
  | .reservedC _ => .req
  | .reservedD _ => .req
  | .reservedE _ => .req
  | .reservedF _ => .req
  | .msgNop _ _ _ _ _ => .msgHdr
  | .msgRead _ _ _ _ _ => .msgHdr
  | .msgWrite _ _ _ _ _ => .msgHdr
  | .msgResponse _ _ _ _ _ => .msgHdr

end Sys2Proof
end

