-- ==== Sys2Proof/WellFormed.lean ====
section
/-! DEFINITION. Which instructions the encodings admit. Field widths are in the types; what is left are the lengths of the
word lists. -/

namespace Sys2Proof

/-- Why an instruction term has no encoding. -/
inductive IllFormed where
  /-- `CRC_COMPUTE` or `CRC_VERIFY` over more than 6 words (R102, R103: `k` is 0..6). -/
  | tooManyChecksumWords
  /-- A message longer than `MAX_MSG_WORDS` = 7 words (R71, R91: `L ≤ 7`). -/
  | messageTooLong
  deriving DecidableEq, Repr

/-- The check of the checksum operations' word count (R102, R103). -/
def checkChecksumWords (words : List Word) : Option IllFormed :=
  if words.length ≤ 6 then none else some .tooManyChecksumWords

/-- The check of a message's length `L ≤ 7` (R71, R91). -/
def checkMessageLength (messageLength : Nat) : Option IllFormed :=
  if messageLength ≤ 7 then none else some .messageTooLong

/-- The first check an instruction fails, if any. -/
def Instr.check : Instr → Option IllFormed
  | .crcCompute words => checkChecksumWords words
  | .crcVerify words _ => checkChecksumWords words
  | .compose _ _ _ _ _ _ => none
  | .decompose words => checkMessageLength words.length
  | .ctrExpected _ => none
  | .ctrAdvance _ => none
  | .ctrReset _ _ => none
  | .write _ _ _ => none
  | .read _ _ => none
  | .readMultiple _ _ _ _ => none
  | .enumerate => none
  | .reserved0 _ => none
  | .reservedC _ => none
  | .reservedD _ => none
  | .reservedE _ => none
  | .reservedF _ => none
  | .msgNop _ _ _ _ body => checkMessageLength (body.length + 1)
  | .msgRead _ _ _ _ body => checkMessageLength (body.length + 1)
  | .msgWrite _ _ _ _ body => checkMessageLength (body.length + 1)
  | .msgResponse _ _ _ _ body => checkMessageLength (body.length + 1)

/-- An instruction is well formed when it passes every check. -/
def Instr.wf (i : Instr) : Bool :=
  i.check == none

end Sys2Proof
end

