-- ==== Sys2Proof/Decode.lean ====
section
/-! DEFINITION. The header layout (R72), the decoder of the request port (R90 to R93) and of a received message (R70 to R75),
and the encoder beside them. The decoder is total: it answers an instruction or the name of what is wrong. -/

namespace Sys2Proof

/-! ## The header word -/

/-- The command codes: NOP 0, READ 1, WRITE 2, RESPONSE 3 (R74). -/
def Command.code : Command → BitVec 2
  | .nop => 0
  | .read => 1
  | .write => 2
  | .response => 3

/-- The command a 2-bit code names (R74). -/
def commandOfCode (c : BitVec 2) : Command :=
  if c = 0 then .nop else if c = 1 then .read else if c = 2 then .write else .response

/-- `header = (cmd << 14) | (madd << 13) | (ra[6] << 12) | (ra[5:0] << 6) | (cnt << 2) | dl` (R72). -/
def pack (cmd : Command) (madd : BitVec 1) (ra : Addr) (cnt : Counter) (dl : BitVec 2) : Word :=
  (cmd.code.setWidth 16 <<< 14) ||| (madd.setWidth 16 <<< 13) ||| ((ra.extractLsb' 6 1).setWidth 16 <<< 12) |||
    ((ra.extractLsb' 0 6).setWidth 16 <<< 6) ||| (cnt.setWidth 16 <<< 2) ||| dl.setWidth 16

/-- `cmd = h[15:14]` (R72). -/
def headerCommand (h : Word) : Command :=
  commandOfCode (h.extractLsb' 14 2)

/-- `madd = h[13]` (R72). -/
def headerMaster (h : Word) : BitVec 1 :=
  h.extractLsb' 13 1

/-- `ra = h[12:6]` (R72). -/
def headerAddr (h : Word) : Addr :=
  h.extractLsb' 6 7

/-- `cnt = h[5:2]` (R72). -/
def headerCounter (h : Word) : Counter :=
  h.extractLsb' 2 4

/-- `dl = h[1:0]` (R72). -/
def headerDataLength (h : Word) : BitVec 2 :=
  h.extractLsb' 0 2

/-! ## Decoding -/

/-- Why a request or a message is not an instruction. -/
inductive DecodeError where
  /-- There is no opcode word or header word at all. -/
  | empty
  /-- `Q[11:0] ≠ 0` (R90). -/
  | opcodeLowBits
  /-- An operand lies outside its range: high bits set (R91), or `k > 6` (R102, R103). -/
  | operandRange
  /-- Fewer operand words than R91 lists for the opcode (entry 9). -/
  | missingOperand
  deriving DecidableEq, Repr

/-- An operand of `n` bits, taken from the low bits of its word; its high bits must be zero (R91). -/
def narrow (n : Nat) (w : Word) : Except DecodeError (BitVec n) :=
  if w.toNat < 2 ^ n then .ok (w.setWidth n) else .error .operandRange

/-- The `n` words an operand list starts with. -/
def takeWords (n : Nat) (ops : List Word) : Except DecodeError (List Word) :=
  if n ≤ ops.length then .ok (ops.take n) else .error .missingOperand

/-- Operands `k, words[0..k-1]` (R102). -/
def decodeCrcCompute : List Word → Except DecodeError Instr
  | k :: ops =>
    if k.toNat ≤ 6 then
      match takeWords k.toNat ops with
      | .ok words => .ok (.crcCompute words)
      | .error e => .error e
    else .error .operandRange
  | [] => .error .missingOperand

/-- Operands `k, words[0..k-1], expected` (R103). -/
def decodeCrcVerify : List Word → Except DecodeError Instr
  | k :: ops =>
    if k.toNat ≤ 6 then
      match takeWords k.toNat ops, ops.drop k.toNat with
      | .ok words, expected :: _ => .ok (.crcVerify words expected)
      | .ok _, [] => .error .missingOperand
      | .error e, _ => .error e
    else .error .operandRange
  | [] => .error .missingOperand

/-- Operands `cmd, madd, ra, reg, length, values[0..3]` (R110). -/
def decodeCompose : List Word → Except DecodeError Instr
  | cmd :: madd :: ra :: reg :: length :: v0 :: v1 :: v2 :: v3 :: _ =>
    match narrow 2 cmd, narrow 1 madd, narrow 7 ra, narrow 2 length with
    | .ok cmd, .ok madd, .ok ra, .ok length => .ok (.compose (commandOfCode cmd) madd ra reg length ⟨v0, v1, v2, v3⟩)
    | _, _, _, _ => .error .operandRange
  | _ => .error .missingOperand

/-- Operands `L, words[0..L-1]` with `L ≤ 7` (R91, R113). -/
def decodeDecompose : List Word → Except DecodeError Instr
  | messageLength :: ops =>
    if messageLength.toNat ≤ 7 then
      match takeWords messageLength.toNat ops with
      | .ok words => .ok (.decompose words)
      | .error e => .error e
    else .error .operandRange
  | [] => .error .missingOperand

/-- The instruction whose first operand is a resolved address (R91: `ra` is 7 bits). -/
def withAddr (ra : Word) (build : Addr → Instr) : Except DecodeError Instr :=
  match narrow 7 ra with
  | .ok ra => .ok (build ra)
  | .error e => .error e

/-- The operands of the opcode in `Q[15:12]`, in the order of R91. -/
def decodeOperands (opcode : Nat) (ops : List Word) : Except DecodeError Instr :=
  match opcode, ops with
  | 1, ops => decodeCrcCompute ops
  | 2, ops => decodeCrcVerify ops
  | 3, ops => decodeCompose ops
  | 4, ops => decodeDecompose ops
  | 5, ra :: _ => withAddr ra .ctrExpected
  | 6, ra :: _ => withAddr ra .ctrAdvance
  | 7, ra :: stringId :: _ => withAddr ra (.ctrReset · stringId)
  | 8, ra :: reg :: value :: _ => withAddr ra (.write · reg value)
  | 9, ra :: reg :: _ => withAddr ra (.read · reg)
  | 10, ra :: itemCount :: ipf :: reg :: _ => withAddr ra (.readMultiple · itemCount ipf reg)
  | 11, _ => .ok .enumerate
  | _, _ => .error .missingOperand

/-- A request on the request port: the opcode word `Q`, then the operand words (R90 to R92). A reserved code is an
instruction whatever its low bits; for every other code `Q[11:0]` must be 0. -/
def decodeRequest : List Word → Except DecodeError Instr
  | [] => .error .empty
  | q :: ops =>
    let low := q.extractLsb' 0 12
    match (q.extractLsb' 12 4).toNat with
    | 0 => .ok (.reserved0 low)
    | 12 => .ok (.reservedC low)
    | 13 => .ok (.reservedD low)
    | 14 => .ok (.reservedE low)
    | 15 => .ok (.reservedF low)
    | opcode => if low = 0 then decodeOperands opcode ops else .error .opcodeLowBits

/-- A received message: the header word, then the words after it (R71, R72, R74). -/
def decodeReceived : List Word → Except DecodeError Instr
  | [] => .error .empty
  | h :: body =>
    match headerCommand h with
    | .nop => .ok (.msgNop (headerMaster h) (headerAddr h) (headerCounter h) (headerDataLength h) body)
    | .read => .ok (.msgRead (headerMaster h) (headerAddr h) (headerCounter h) (headerDataLength h) body)
    | .write => .ok (.msgWrite (headerMaster h) (headerAddr h) (headerCounter h) (headerDataLength h) body)
    | .response => .ok (.msgResponse (headerMaster h) (headerAddr h) (headerCounter h) (headerDataLength h) body)

/-- The decoder of each format. -/
def decode (fmt : Format) (words : List Word) : Except DecodeError Instr :=
  match fmt with
  | .req => decodeRequest words
  | .msgHdr => decodeReceived words

/-! ## Encoding -/

/-- An opcode word `Q` with `Q[11:0] = 0` (R90). -/
def opcodeWord (opcode : BitVec 4) : Word :=
  opcode.setWidth 16 <<< 12

/-- A reserved opcode word with its 12 low bits (R92: the table fixes `Q[15:12]` only). -/
def reservedWord (opcode : BitVec 4) (low : BitVec 12) : Word :=
  opcodeWord opcode ||| low.setWidth 16

/-- A word count as an operand word (R91: one 16-bit word). -/
def countWord (n : Nat) : Word :=
  BitVec.ofNat 16 n

/-- The words of an instruction: opcode word and operands (R91), or header word and the rest of the message (R71). -/
def encode : Instr → List Word
  | .crcCompute words => opcodeWord 1 :: countWord words.length :: words
  | .crcVerify words expected => opcodeWord 2 :: countWord words.length :: (words ++ [expected])
  | .compose cmd madd ra reg length values =>
    [opcodeWord 3, cmd.code.setWidth 16, madd.setWidth 16, ra.setWidth 16, reg, length.setWidth 16,
      values.w0, values.w1, values.w2, values.w3]
  | .decompose words => opcodeWord 4 :: countWord words.length :: words
  | .ctrExpected ra => [opcodeWord 5, ra.setWidth 16]
  | .ctrAdvance ra => [opcodeWord 6, ra.setWidth 16]
  | .ctrReset ra stringId => [opcodeWord 7, ra.setWidth 16, stringId]
  | .write ra reg value => [opcodeWord 8, ra.setWidth 16, reg, value]
  | .read ra reg => [opcodeWord 9, ra.setWidth 16, reg]
  | .readMultiple ra itemCount ipf reg => [opcodeWord 10, ra.setWidth 16, itemCount, ipf, reg]
  | .enumerate => [opcodeWord 11]
  | .reserved0 low => [reservedWord 0 low]
  | .reservedC low => [reservedWord 12 low]
  | .reservedD low => [reservedWord 13 low]
  | .reservedE low => [reservedWord 14 low]
  | .reservedF low => [reservedWord 15 low]
  | .msgNop madd ra cnt dl body => pack .nop madd ra cnt dl :: body
  | .msgRead madd ra cnt dl body => pack .read madd ra cnt dl :: body
  | .msgWrite madd ra cnt dl body => pack .write madd ra cnt dl :: body
  | .msgResponse madd ra cnt dl body => pack .response madd ra cnt dl :: body

/-! ## Words numbered as the opcode table numbers them -/

/-- The longest instruction in words: `COMPOSE`, an opcode word and nine operands (R110). -/
def maxInstrWords : Nat := 10

/-- The 16-bit words of an instruction whose bits are `w`, first word in bits 15..0, bits from `nbits` on being 0. -/
def tableWords (nbits w : Nat) : List Word :=
  (List.range maxInstrWords).map fun i => BitVec.ofNat 16 ((w % 2 ^ nbits) >>> (16 * i))

/-- Does some row of format REQ match this first word? The rows of codes 0x1 to 0xB fix all 16 bits, the reserved rows only
`Q[15:12]`. -/
def isRequestWord (q : Word) : Bool :=
  let opcode := (q.extractLsb' 12 4).toNat
  opcode == 0 || 12 ≤ opcode || q.extractLsb' 0 12 == 0

/-- Where a table word is an instruction: a word that a REQ row matches is a request, any other is a message header
(entry 12). -/
def tableFormat (q : Word) : Format :=
  if isRequestWord q then .req else .msgHdr

/-- The words to lay out for a table word: all of them for a request; for a message the `L = dl + 4` words that its own
`dataLength` gives it (R71). -/
def tableItem (nbits w : Nat) : Format × List Word :=
  let words := tableWords nbits w
  let q := words.headD 0
  match tableFormat q with
  | .req => (.req, words)
  | .msgHdr => (.msgHdr, words.take ((headerDataLength q).toNat + 4))

/-- The instruction the decoder reads from an instruction whose bits are `w`. -/
def decodeTableWord (nbits w : Nat) : Option Instr :=
  match decode (tableItem nbits w).1 (tableItem nbits w).2 with
  | .ok i => some i
  | .error _ => none

end Sys2Proof
end

