-- ==== Sys2Proof/Machine/Registers.lean ====
section
/-! DEFINITION. The types of the block's registers, ports, environment moves and events, each named after the rule that
describes it. -/

namespace Sys2Proof.Machine

/-- The closed type of statuses (R80, R200). -/
inductive Status where
  | ok
  | shortMessage
  | wrongCrc
  | wrongMessageCount
  | timeout
  | noAccess
  | noResponse
  | notMatchingDeviceAddress
  | notMatchingRegisterAddress
  | enumerationFailed
  deriving DecidableEq, Repr, Inhabited

/-- The bus-busy flag (R24). -/
inductive Busy where
  | idle
  | busy
  deriving DecidableEq, Repr, Inhabited

/-- The two notification channels (R25, R206). -/
inductive Channel where
  | tx
  | rx
  deriving DecidableEq, Repr, Inhabited

/-- A record `(kind, n_rx)` of an accepted transfer whose completion has not been signalled (R26). -/
structure Transfer where
  kind : Channel
  nRx : Nat
  deriving DecidableEq, Repr

/-- The enumeration phases (R28, R181). -/
inductive Phase where
  | idle
  | sleep
  | probe1
  | wake
  | probe2
  | assign
  | verify
  | config
  | uid
  | done
  deriving DecidableEq, Repr, Inhabited

/-- The decoder's output registers `d.*` (R31); `d.n` is 0..4. -/
structure Decoded where
  cmd : Command
  madd : BitVec 1
  ra : Addr
  cnt : Counter
  dl : BitVec 2
  reg : Word
  n : Fin 5
  payload : Quad
  deriving DecidableEq, Repr, Inhabited

/-- The read engine's working registers `fc`, `k`, `remaining`, `acc`, `st` (R30), with the locals of R160's pseudocode that
outlive one step: the operands and the received word count `R`. -/
structure ReadRegs where
  ra : Addr
  itemCount : Nat
  ipf : Nat
  reg : Word
  received : Nat
  fc : Nat
  k : Nat
  remaining : Nat
  acc : List Word
  st : Status
  deriving DecidableEq, Repr, Inhabited

/-- Who issued a request: a caller, or a test harness that runs a model directly (R93). -/
inductive Origin where
  | caller
  | harness
  deriving DecidableEq, Repr, Inhabited

/-- What waits on the request port: an opcode word and its operand words (R32, R90), or a received message that a test
harness puts in front of the decoder (entry 10). -/
structure Request where
  format : Format
  origin : Origin
  words : List Word
  deriving DecidableEq, Repr

/-- A result on the response port, one form for each result column of R91. -/
inductive Response where
  /-- `CRC_COMPUTE`: the checksum word (R102). -/
  | checksum (w : Word)
  /-- `CRC_VERIFY`: the comparison's outcome (R103). -/
  | verified (b : Bool)
  /-- `COMPOSE`: the message words; `L` is their number (R110). -/
  | message (m : List Word)
  /-- `DECOMPOSE`: the fields, none when `L < 4`, and the status (R113). -/
  | decoded (fields : Option Decoded) (st : Status)
  /-- `CTR_EXPECTED`: the entry (R130). -/
  | counter (c : Counter)
  /-- `WRITE`, `CTR_RESET`, `CTR_ADVANCE`: no status (R32, R91). -/
  | done
  /-- `READ` (R171). -/
  | value (v : Word) (st : Status)
  /-- `READ_MULTIPLE` (R163). -/
  | values (acc : List Word) (st : Status)
  /-- `ENUMERATE` (R180). -/
  | status (st : Status)
  deriving DecidableEq, Repr

/-- The points inside a running operation at which one step ends and the next begins (R22's control point, entry 4). -/
inductive Point where
  /-- Accepted; checks and the claim of the bus are next. -/
  | entry
  /-- The enumeration's next phase rule is next (R181). -/
  | phase
  /-- The message is staged and the bus claimed; `startTransfer` is next (R142). -/
  | start (c : Channel) (nRx : Nat)
  /-- The wait of a write ended, by completion or timeout (R143, R150). -/
  | written
  /-- The settle delay after the sleep write is next (R182). -/
  | settle
  /-- The wait of a bulk read ended; the next answer frame, or the return, is next (R160). -/
  | frames
  deriving DecidableEq, Repr

/-- `opState[s]` (R32): `Ready`, `Running(op)`, `Waiting(op, c)`. -/
inductive OpState where
  | ready
  | running (op : Instr) (point : Point)
  | waiting (op : Instr) (c : Channel)
  deriving DecidableEq, Repr

/-- The environment's answer to `startTransfer` (R142). -/
inductive StartAnswer where
  | accepted
  | busy
  deriving DecidableEq, Repr

/-- One move of an agent other than the engine, or `engine`: the engine's turn (R6, R35, entry 1). -/
inductive Move where
  /-- The engine takes its next step now. -/
  | engine
  /-- A request is put on the port (R90). -/
  | request (r : Request)
  /-- The transfer primitive answers the pending `startTransfer` (R142). -/
  | answer (a : StartAnswer)
  /-- The completion agent completes one in-flight record; the words are the received words, `R` their number (R146). -/
  | complete (t : Transfer) (received : List Word)
  /-- The wait on channel `c` times out (R144). -/
  | timeout (c : Channel)
  /-- Reset of the instance (R220), which may come at any time (DEDUCED, entry 15). -/
  | reset
  deriving DecidableEq, Repr

/-- The two settle delays (R209, R224). -/
inductive Delay where
  | sleepSettle
  | wakeSettle
  deriving DecidableEq, Repr

/-- The events of a run (R10, R212): requests, transfers started, notifications, timeouts, settle delays and results. -/
inductive Event where
  | request (r : Request)
  | transfer (c : Channel) (words : Quad) (nRx timeout : Nat)
  | notification (c : Channel) (r : Nat)
  | timedOut (c : Channel) (timeout : Nat)
  | delay (name : Delay) (duration : Nat)
  | result (r : Response)
  deriving DecidableEq, Repr

end Sys2Proof.Machine
end

