-- ==== Sys2Proof/Config.lean ====
section
/-! DEFINITION. The parameters of R7, the ranges R7 gives them, and the free values. A parameter marked OPEN has no value
here: it is part of an opaque constant, so a theorem about the machine holds for every valid configuration. -/

namespace Sys2Proof

/-- The cap on `itemsPerFrame` (R7: 4). -/
def maxIpf : Nat := 4

/-- Non-item words of one answer frame: header, sub-header, checksum (R7, R71: 3). -/
def headerWidth : Nat := 3

/-- Leading echo words of a bulk read's receive buffer (R7, R77: 4). -/
def writeMirrorWidth : Nat := 4

/-- The largest message in words (R7, R71: 7). -/
def maxMsgWords : Nat := 7

/-- Does a framed decode with a wrong checksum advance the counter? Decided `true` (R7, R116). -/
def advanceOnWrongCrc : Bool := true

/-- The OPEN parameters of R7. Durations are in milliseconds and only recorded (R231); `portBase` is read by no rule (R63). -/
structure Params where
  /-- `CRC` (R100): any function of the words; nothing else is assumed of it. -/
  crc : List Word → Word
  nStrings : Nat
  deviceCount : Nat
  chainBase : Nat
  errorRegAddr : Word
  maxFrames : Nat
  regSysMode : Word
  sleepValue : Word
  regStatus : Word
  regDevAddr : Word
  regVersion : Word
  regComTimeout : Word
  comTimeoutValue : Word
  regUid : Word
  uidWords : Nat
  uidIpf : Nat
  txTimeout : Nat
  rxTimeout : Nat
  sleepSettle : Nat
  wakeSettle : Nat
  portBase : Nat
  deriving Inhabited

/-- `ceil(a/b) = (a + b - 1) div b` for positive integers (R11). -/
def ceilDiv (a b : Nat) : Nat :=
  (a + b - 1) / b

/-- The ranges of R7: `NSTRINGS ≥ 1`, `1 ≤ DEVICE_COUNT ≤ 63 - CHAIN_BASE`, `40 ≤ MAX_FRAMES ≤ 64`, `1 ≤ UID_IPF ≤ 4`,
`ceil(UID_WORDS/UID_IPF) ≤ MAX_FRAMES`; and `UID_WORDS ≥ 1` (DEDUCED, entry 11). -/
def Params.valid (P : Params) : Bool :=
  decide (1 ≤ P.nStrings) && decide (1 ≤ P.deviceCount) && decide (P.deviceCount + P.chainBase ≤ 63) &&
    decide (40 ≤ P.maxFrames) && decide (P.maxFrames ≤ 64) && decide (1 ≤ P.uidIpf) && decide (P.uidIpf ≤ 4) &&
    decide (1 ≤ P.uidWords) && decide (ceilDiv P.uidWords P.uidIpf ≤ P.maxFrames)

/-- The reference configuration `RefConfig` (R8) with the checksum left as an argument. R8 gives no value for the settle
times and for `PORT_BASE`, which no rule reads; they are 0 here. -/
def refParams (crc : List Word → Word) : Params where
  crc := crc
  nStrings := 1
  deviceCount := 3
  chainBase := 0
  errorRegAddr := 0xFFFF
  maxFrames := 40
  regSysMode := 0x0002
  sleepValue := 0x0001
  regStatus := 0x0003
  regDevAddr := 0x0001
  regVersion := 0x0004
  regComTimeout := 0x0005
  comTimeoutValue := 0x0001
  regUid := 0x0010
  uidWords := 3
  uidIpf := 3
  txTimeout := 1
  rxTimeout := 2
  sleepSettle := 0
  wakeSettle := 0
  portBase := 0

/-- The configuration as given from outside: nothing is known of it (DESIGN CHOICE of form, entry 8). -/
opaque Config.given : Params

/-- The machine's configuration: the given one if it meets the ranges of R7, else `RefConfig` with the given checksum. So it
is always valid, and every valid configuration is possible. -/
def Config.params : Params :=
  if Config.given.valid then Config.given else refParams Config.given.crc

/-- Free value: the word `READ` returns when its status is not `Ok` (R171, entry 7). -/
opaque Config.freeWord : Nat → Word

/-- Free value: the decoder registers after a decode with `L < 4` (R31, entry 7). -/
opaque Config.freeDecoded : Nat → Machine.Decoded

/-- Free value: the read-engine registers between operations (R30, entry 7). -/
opaque Config.freeReadRegs : Nat → Machine.ReadRegs

end Sys2Proof
end

