-- ==== Sys2Proof/Machine/State.lean ====
section
/-! DEFINITION. The state of one bus string's instance as plain data (R20 to R34), its faults, and the state after reset
(R40, R220). Tables hold only the entries that differ from their reset value. -/

namespace Sys2Proof.Machine

/-- The closed set of fault reasons (R203). `raise Fault(reason)` puts the reason into `State.fault`, in a next state; the
outcome `fault reason` of a step says that an instance which holds the reason takes no step. Both are what the spec says, so
each is safe. -/
inductive Fault where
  /-- `READ_MULTIPLE` outside its caps, compose with an out-of-range field, decode with `L > 7` (R111, R117, R161). Safe. -/
  | programmingError
  /-- Reserved opcode, internal opcode from a caller, operand out of range, foreign `stringId` (R90 to R93, R102, R103). Safe. -/
  | illegalOperation
  /-- The claim of the bus finds it busy (R141). Safe. -/
  | busBusy
  /-- `startTransfer` answers `busy` (R142). Safe. -/
  | transferRejected
  deriving DecidableEq, Repr

/-- The reasons a step has no meaning. -/
inductive Refusal where
  /-- Raised by `exec` alone, for an instruction without a meaning; no arm raises it. Safe. -/
  | notModelled (mnemonic : String)
  deriving DecidableEq, Repr

/-- A table of entries `(index, value)`; an index that is not listed reads as the table's reset value. -/
abbrev Table (α : Type) := List (Nat × α)

/-- The instance's state. Fields of the spec first, in the order of 10_state.md; the model's own fields last. -/
structure State where
  /-- The instance's string id `s` (R20, R21); no step writes it. -/
  string : Nat
  /-- `CT[s][a]` (R23), by `a`; unlisted entries are 0. -/
  ct : Table Counter
  /-- `busy[s]` (R24). -/
  busy : Busy
  /-- `note[s][TX]` (R25). -/
  noteTx : Option Nat
  /-- `note[s][RX]` (R25). -/
  noteRx : Option Nat
  /-- `inflight[s]` (R26), a multiset: the order of the list has no meaning. -/
  inflight : List Transfer
  /-- `TxBuf[s][0..3]` (R27). -/
  txBuf : Quad
  /-- `RxBuf[s][i]` (R27), by `i`; unlisted words are 0. -/
  rxBuf : Table Word
  /-- `phase[s]` (R28). -/
  phase : Phase
  /-- `pos[s]` (R28). -/
  pos : Nat
  /-- `addressed[s][p]` (R28), by `p`; unlisted bits are 0. -/
  addressed : Table Bool
  /-- `uidCount[s][p]` (R29), by `p`; unlisted counts are 0. -/
  uidCount : Table Nat
  /-- `uid[s][p][i]` (R29), by `uidIndex p i`; unlisted words are 0. -/
  uid : Table Word
  /-- The read-engine registers (R30). -/
  rd : ReadRegs
  /-- The decoder's output registers (R31). -/
  d : Decoded
  /-- `opState[s]` (R32). -/
  opState : OpState
  /-- The request port (R32, R90). -/
  port : Option Request
  /-- The response port: the last result (R32). -/
  response : Option Response
  /-- `fault[s]` (R33). -/
  fault : Option Fault
  /-- The event history (R212), newest event first; no rule reads it. -/
  history : List Event
  /-- Model's own: who issued the request being run (R93, entry 6). -/
  origin : Origin
  /-- Model's own: the environment's coming moves (R35, entry 1). -/
  moves : List Move
  /-- Model's own: how many free values have been drawn (entry 7). -/
  draws : Nat
  deriving DecidableEq, Repr

/-- The decoder registers at reset: unspecified by R40, all zero here (DESIGN CHOICE, unsafe, entry 3). -/
def Decoded.reset : Decoded :=
  ⟨.nop, 0, 0, 0, 0, 0, 0, ⟨0, 0, 0, 0⟩⟩

/-- The read-engine registers at reset: unspecified by R40, all zero here (DESIGN CHOICE, unsafe, entry 3). -/
def ReadRegs.reset : ReadRegs :=
  ⟨0, 0, 0, 0, 0, 0, 0, 0, [], .ok⟩

/-- The instance right after reset (R40, R220). The unspecified buffers, identifier words and working registers are zero
(DESIGN CHOICE, unsafe, entry 3); the record is that of string 0 (entry 2). -/
def State.reset : State where
  string := 0
  ct := []
  busy := .idle
  noteTx := none
  noteRx := none
  inflight := []
  txBuf := ⟨0, 0, 0, 0⟩
  rxBuf := []
  phase := .idle
  pos := 0
  addressed := []
  uidCount := []
  uid := []
  rd := ReadRegs.reset
  d := Decoded.reset
  opState := .ready
  port := none
  response := none
  fault := none
  history := []
  origin := .caller
  moves := []
  draws := 0

end Sys2Proof.Machine
end

