-- ==== Sys2Proof/Machine/Ops.lean ====
section
/-! DEFINITION. The named operations over the state: tables, notifications, the event history, accepting a request, raising
a fault (the one shared exception entry, R203) and returning a result (R204) beside it, and the restart of an instance. -/

namespace Sys2Proof.Machine

/-! ## Tables -/

/-- The entry at index `k`; an unlisted index reads as `dflt`. -/
def tableRead {α : Type} (dflt : α) (k : Nat) : Table α → α
  | [] => dflt
  | (k', v) :: t => if k' = k then v else tableRead dflt k t

/-- Put an entry in front of the first entry of a larger or equal index. -/
def tableInsert {α : Type} (k : Nat) (v : α) : Table α → Table α
  | [] => [(k, v)]
  | (k', v') :: t => if k' < k then (k', v') :: tableInsert k v t else (k, v) :: (k', v') :: t

/-- Write `v` at index `k`. Writing the value an unlisted index reads as removes the entry, so that equal contents are equal
data. -/
def tableWrite {α : Type} [DecidableEq α] (dflt : α) (k : Nat) (v : α) (t : Table α) : Table α :=
  let rest := t.filter fun e => e.1 != k
  if v = dflt then rest else tableInsert k v rest

/-- Write a list of values at consecutive indexes from `k` on. -/
def tableWriteList {α : Type} [DecidableEq α] (dflt : α) (k : Nat) (vs : List α) (t : Table α) : Table α :=
  match vs with
  | [] => t
  | v :: vs => tableWriteList dflt (k + 1) vs (tableWrite dflt k v t)

/-- The canonical form: indexes strictly rising, no entry equal to what an unlisted index reads as. -/
def tableWf {α : Type} [DecidableEq α] (dflt : α) : Table α → Bool
  | [] => true
  | (k, v) :: t => decide (v ≠ dflt) && t.all (fun e => decide (k < e.1)) && tableWf dflt t

/-! ## The spec's indexed state elements -/

/-- `CT[s][a]` (R23). -/
def ctRead (a : Addr) (s : State) : Counter :=
  tableRead 0 a.toNat s.ct

/-- `CT[s][a] <- v` (R23). -/
def ctWrite (a : Addr) (v : Counter) (s : State) : State :=
  { s with ct := tableWrite 0 a.toNat v s.ct }

/-- `RxBuf[s][i]` (R27). -/
def rxRead (i : Nat) (s : State) : Word :=
  tableRead 0 i s.rxBuf

/-- `addressed[s][p]` (R28). -/
def addressedRead (p : Nat) (s : State) : Bool :=
  tableRead false p s.addressed

/-- `addressed[s][p] <- b` (R28). -/
def addressedWrite (p : Nat) (b : Bool) (s : State) : State :=
  { s with addressed := tableWrite false p b s.addressed }

/-- Where word `i` of position `p`'s identifier stands in the identifier table; a row has 256 places, and `UID_WORDS` is at
most `MAX_FRAMES × 4 ≤ 256` (R7). -/
def uidIndex (p i : Nat) : Nat :=
  p * 256 + i

/-- `uid[s][p][i]` (R29). -/
def uidRead (p i : Nat) (s : State) : Word :=
  tableRead 0 (uidIndex p i) s.uid

/-- `uidCount[s][p]` (R29). -/
def uidCountRead (p : Nat) (s : State) : Nat :=
  tableRead 0 p s.uidCount

/-- Store an identifier: `uid[s][p][i] <- acc[i]` for each item, `uidCount[s][p] <- len(acc)` (R187). Words beyond the items
keep their contents. -/
def uidStore (p : Nat) (acc : List Word) (s : State) : State :=
  { s with
    uid := tableWriteList 0 (uidIndex p 0) acc s.uid
    uidCount := tableWrite 0 p acc.length s.uidCount }

/-! ## Notifications -/

/-- `note[s][c]` (R25). -/
def noteRead (c : Channel) (s : State) : Option Nat :=
  match c with
  | .tx => s.noteTx
  | .rx => s.noteRx

/-- `note[s][c] <- v` (R25). -/
def noteWrite (c : Channel) (v : Option Nat) (s : State) : State :=
  match c with
  | .tx => { s with noteTx := v }
  | .rx => { s with noteRx := v }

/-! ## Outcomes -/

/-- `emit(e)` (R10, R212). -/
def emit (e : Event) (s : State) : State :=
  { s with history := e :: s.history }

/-- `raise Fault(reason)`: the reason is set, and every other element stays as it was at the fault (R203). -/
def raiseFault (f : Fault) (s : State) : State :=
  { s with fault := some f }

/-- `return`: the result goes to the response port and the instance is Ready (R90, R204). -/
def respond (r : Response) (s : State) : State :=
  emit (.result r) { s with response := some r, opState := .ready }

/-- Take the request off the port (R90). -/
def takeRequest (r : Request) (s : State) : State :=
  emit (.request r) { s with port := none, origin := r.origin }

/-- `opState[s] <- Running(op)` on accepting a request (R90). -/
def accept (op : Instr) (s : State) : State :=
  { s with opState := .running op .entry }

/-- An internal operation is refused from a caller and run for a test harness or another rule (R93). -/
def internalOnly (run : State → State) (s : State) : State :=
  match s.origin with
  | .caller => raiseFault .illegalOperation s
  | .harness => run s

/-! ## Free values -/

/-- The decoder registers become unspecified (R31). -/
def forgetDecoded (s : State) : State :=
  { s with d := Config.freeDecoded s.draws, draws := s.draws + 1 }

/-- The read-engine registers become unspecified (R30). -/
def forgetReadRegs (s : State) : State :=
  { s with rd := Config.freeReadRegs s.draws, draws := s.draws + 1 }

/-! ## Reset of the instance -/

/-- Reset (R220): every element takes its value after reset. The string id stays (R21); the event history (R212, entry 5),
the environment's moves and the count of drawn values are no elements of the block. -/
def restart (moves : List Move) (s : State) : State :=
  { State.reset with string := s.string, history := s.history, moves := moves, draws := s.draws }

end Sys2Proof.Machine
end

