-- ==== Sys2Proof/Machine/Operands.lean ====
section
/-! DEFINITION. The operand forms: the words of a quad, the directed address of a chain position (R189), the read parameter
word (R76), and the geometry of an answer-frame stream (R77, R164, R165). -/

namespace Sys2Proof.Machine

/-- The four words of a quad, in index order. -/
def quadWords (q : Quad) : List Word :=
  [q.w0, q.w1, q.w2, q.w3]

/-- The quad that holds the first four words of a list, missing words being 0. -/
def quadOf (words : List Word) : Quad :=
  ⟨words.getD 0 0, words.getD 1 0, words.getD 2 0, words.getD 3 0⟩

/-- The broadcast address (R52, R73). -/
def broadcastAddr : Addr := 0

/-- `ra(p) = 0x40 | (p + CHAIN_BASE)`: the directed address of chain position `p` (R189). -/
def positionAddr (P : Params) (p : Nat) : Addr :=
  0x40 ||| BitVec.ofNat 7 (p + P.chainBase)

/-- `assignValue(p) = p + CHAIN_BASE` (R7, R185). -/
def assignValue (P : Params) (p : Nat) : Word :=
  BitVec.ofNat 16 (p + P.chainBase)

/-- The read-request parameter word `P = 0x8000 | ((ipf - 1) << 12) | (itemCount - 1)` (R76). -/
def paramWord (ipf itemCount : Nat) : Word :=
  0x8000 ||| (BitVec.ofNat 16 (ipf - 1) <<< 12) ||| BitVec.ofNat 16 (itemCount - 1)

/-- `RX_BUF_WORDS = WRITE_MIRROR_WIDTH + MAX_FRAMES × (HEADER_WIDTH + MAX_IPF)` (R27). -/
def rxBufWords (P : Params) : Nat :=
  writeMirrorWidth + P.maxFrames * (headerWidth + maxIpf)

/-- `W = HEADER_WIDTH + ipf`, the width of an answer frame (R77). -/
def frameWidth (ipf : Nat) : Nat :=
  headerWidth + ipf

/-- `off(k) = WRITE_MIRROR_WIDTH + k × W` (R77, R164). -/
def frameOffset (ipf k : Nat) : Nat :=
  writeMirrorWidth + k * frameWidth ipf

/-- `fc = ceil(itemCount / ipf)` (R160). -/
def frameCount (itemCount ipf : Nat) : Nat :=
  ceilDiv itemCount ipf

/-- `rxLen = WRITE_MIRROR_WIDTH + fc × W` (R77). -/
def rxLength (itemCount ipf : Nat) : Nat :=
  writeMirrorWidth + frameCount itemCount ipf * frameWidth ipf

/-- `Lk = min(W, max(0, R - off(k)))` (R165). -/
def frameLength (ipf k received : Nat) : Nat :=
  min (frameWidth ipf) (received - frameOffset ipf k)

/-- `RxBuf[s][off .. off+len-1]` (R160). -/
def rxSlice (off len : Nat) (s : State) : List Word :=
  (List.range len).map fun i => rxRead (off + i) s

/-- The register address frame `k` must echo: `(reg + k × ipf) mod 2^16` (R166). -/
def expectedReg (reg : Word) (k ipf : Nat) : Word :=
  reg + BitVec.ofNat 16 (k * ipf)

/-- The wait timeout of a channel (R140, R152). -/
def waitTimeout (P : Params) (c : Channel) : Nat :=
  match c with
  | .tx => P.txTimeout
  | .rx => P.rxTimeout

end Sys2Proof.Machine
end

