-- ==== Sys2Proof/Machine/Flags.lean ====
section
/-! DEFINITION. The block has no condition codes (R34); what an operation reports of its computation is a status. Here are
the status codes (R80) and the priorities in which statuses are decided (R114, R169, R188, R202). -/

namespace Sys2Proof.Machine

/-- The numeric code of a status (R80). -/
def statusCode : Status → Nat
  | .ok => 0
  | .shortMessage => 1
  | .wrongCrc => 2
  | .wrongMessageCount => 3
  | .timeout => 4
  | .noAccess => 5
  | .noResponse => 6
  | .notMatchingDeviceAddress => 7
  | .notMatchingRegisterAddress => 8
  | .enumerationFailed => 9

/-- The status of a framed decode: the first condition that holds, in the order of R114. `expected` is the counter entry
before this decode's advance. -/
def framedStatus (P : Params) (crcOk : Bool) (expected : Counter) (d : Decoded) : Status :=
  if crcOk = false then .wrongCrc
  else if d.cnt ≠ expected then .wrongMessageCount
  else if d.reg = P.errorRegAddr then .noAccess
  else if d.cmd ≠ .response then .noResponse
  else .ok

/-- The status of answer frame `k`: the decode status, then the device address, then the register address (R169). -/
def answerStatus (decodeStatus : Status) (d : Decoded) (ra : Addr) (expected : Word) : Status :=
  if decodeStatus ≠ .ok then decodeStatus
  else if d.ra ≠ ra then .notMatchingDeviceAddress
  else if d.reg ≠ expected then .notMatchingRegisterAddress
  else .ok

/-- `Ok` exactly when every position ended addressed (R188). -/
def enumerationStatus (P : Params) (s : State) : Status :=
  if (List.range P.deviceCount).all (fun i => addressedRead (i + 1) s) then .ok else .enumerationFailed

end Sys2Proof.Machine
end

