-- ==== Sys2Proof/Machine/Crc.lean ====
section
/-! DEFINITION. The checksum validator: `CRC_COMPUTE` and `CRC_VERIFY` over the parameter `CRC` (R100, R102, R103), and the
reference checksum `RefCRC` (R101), which only the tests use. -/

namespace Sys2Proof.Machine

/-- One bit of R101's loop: shift out the top bit, and fold in the polynomial 0x1021 if it differs from the data bit. -/
def refCrcBit (c : Word) (b : Bool) : Word :=
  if c.getLsbD 15 != b then (c <<< 1) ^^^ 0x1021 else c <<< 1

/-- The bits of one word, most significant first (R101). -/
def refCrcWord (c w : Word) : Word :=
  ((List.range 16).reverse).foldl (fun c i => refCrcBit c (w.getLsbD i)) c

/-- The reference checksum of the test vectors (R101). -/
def refCrc (words : List Word) : Word :=
  words.foldl refCrcWord 0xFFFF

/-- `verify(message, expected) = (CRC(message) = expected)`, on all 16 bits (R100 (c), R103). -/
def crcMatches (P : Params) (words : List Word) (expected : Word) : Bool :=
  P.crc words == expected

/-- No message has more than 6 words before its checksum (R102, R103). -/
def maxCrcWords : Nat := 6

/-- `CRC_COMPUTE` (R102). -/
def crcComputeOp (P : Params) (words : List Word) (s : State) : State :=
  if words.length ≤ maxCrcWords then respond (.checksum (P.crc words)) s else raiseFault .illegalOperation s

/-- `CRC_VERIFY` (R103). -/
def crcVerifyOp (P : Params) (words : List Word) (expected : Word) (s : State) : State :=
  if words.length ≤ maxCrcWords then respond (.verified (crcMatches P words expected)) s
  else raiseFault .illegalOperation s

/-- The meaning of `CRC_COMPUTE` (R102), internal (R93). -/
def execCrcCompute (words : List Word) (s : State) : Host.Outcome State Fault Refusal :=
  .next (internalOnly (crcComputeOp Config.params words) s)

/-- The meaning of `CRC_VERIFY` (R103), internal (R93). -/
def execCrcVerify (words : List Word) (expected : Word) (s : State) : Host.Outcome State Fault Refusal :=
  .next (internalOnly (crcVerifyOp Config.params words expected) s)

end Sys2Proof.Machine
end

