-- ==== Sys2Proof/Machine/CounterTable.lean ====
section
/-! DEFINITION. The per-device counter table: `CTR_EXPECTED`, `CTR_ADVANCE`, `CTR_RESET` (R130 to R135). -/

namespace Sys2Proof.Machine

/-- `CT[s][ra] <- (CT[s][ra] + 1) mod 16`; 15 advances to 0 (R131). -/
def ctrAdvance (ra : Addr) (s : State) : State :=
  ctWrite ra (ctRead ra s + 1) s

/-- `CT[s][ra] <- 0` (R132). -/
def ctrReset (ra : Addr) (s : State) : State :=
  ctWrite ra 0 s

/-- `CTR_RESET` as a request: a `stringId` other than the instance's is refused (R93, R132). The operand
range `stringId < NSTRINGS` (R91) needs no check of its own: the instance's id is below `NSTRINGS`. -/
def ctrResetOp (ra : Addr) (stringId : Word) (s : State) : State :=
  if stringId.toNat = s.string then respond .done (ctrReset ra s) else raiseFault .illegalOperation s

/-- The meaning of `CTR_EXPECTED` (R130), internal (R93). -/
def execCtrExpected (ra : Addr) (s : State) : Host.Outcome State Fault Refusal :=
  .next (internalOnly (fun s => respond (.counter (ctRead ra s)) s) s)

/-- The meaning of `CTR_ADVANCE` (R131), internal (R93). -/
def execCtrAdvance (ra : Addr) (s : State) : Host.Outcome State Fault Refusal :=
  .next (internalOnly (fun s => respond .done (ctrAdvance ra s)) s)

/-- The meaning of `CTR_RESET` (R132), external. -/
def execCtrReset (ra : Addr) (stringId : Word) (s : State) : Host.Outcome State Fault Refusal :=
  .next (ctrResetOp ra stringId s)

end Sys2Proof.Machine
end

