-- ==== Sys2Proof/Machine/Codec.lean ====
section
/-! DEFINITION. The message codec: compose (R110 to R112), decompose (R113 to R117), the requests `COMPOSE` and `DECOMPOSE`,
and the four received message commands (R120 to R123). -/

namespace Sys2Proof.Machine

/-! ## Compose -/

/-- The payload words sent: `values[0..length]` (R110). -/
def composePayload (length : Nat) (values : Quad) : List Word :=
  (quadWords values).take (length + 1)

/-- Header, sub-header and payload: the words the checksum covers. The counter field is 0 (R112). -/
def composeBody (cmd : Command) (madd : BitVec 1) (ra : Addr) (reg : Word) (length : BitVec 2) (values : Quad) :
    List Word :=
  pack cmd madd ra 0 length :: reg :: composePayload length.toNat values

/-- Append the checksum over all the words before it (R79, R104, R110). -/
def withChecksum (P : Params) (words : List Word) : List Word :=
  words ++ [P.crc words]

/-- Compose on fields that fit their widths (R110). -/
def composeWords (P : Params) (cmd : Command) (madd : BitVec 1) (ra : Addr) (reg : Word) (length : BitVec 2)
    (values : Quad) : List Word :=
  withChecksum P (composeBody cmd madd ra reg length values)

/-- Compose with the operand checks of R111: a field that does not fit its width is a programming error. -/
def compose (P : Params) (cmd madd ra reg length : Nat) (values : Quad) : Except Fault (List Word) :=
  if length ≤ 3 ∧ ra ≤ 127 ∧ madd ≤ 1 ∧ cmd ≤ 3 ∧ reg ≤ 0xFFFF then
    .ok (composeWords P (commandOfCode (BitVec.ofNat 2 cmd)) (BitVec.ofNat 1 madd) (BitVec.ofNat 7 ra)
      (BitVec.ofNat 16 reg) (BitVec.ofNat 2 length) values)
  else .error .programmingError

/-- `COMPOSE`: the message and, as its number of words, `L` (R110). -/
def composeOp (P : Params) (cmd : Command) (madd : BitVec 1) (ra : Addr) (reg : Word) (length : BitVec 2)
    (values : Quad) (s : State) : State :=
  match compose P cmd.code.toNat madd.toNat ra.toNat reg.toNat length.toNat values with
  | .ok m => respond (.message m) s
  | .error f => raiseFault f s

/-- The meaning of `COMPOSE` (R110), internal (R93). -/
def execCompose (cmd : Command) (madd : BitVec 1) (ra : Addr) (reg : Word) (length : BitVec 2) (values : Quad)
    (s : State) : Host.Outcome State Fault Refusal :=
  .next (internalOnly (composeOp Config.params cmd madd ra reg length values) s)

/-! ## Decompose -/

/-- `d.n = min(d.dl + 1, L - 3)`, the number of payload words extracted (R75, R115). -/
def payloadCount (dl : BitVec 2) (messageLength : Nat) : Fin 5 :=
  Fin.ofNat 5 (min (dl.toNat + 1) (messageLength - 3))

/-- The fields of a framed message; payload slots at indexes `≥ d.n` read 0 (R113, R115). -/
def fieldsOf (words : List Word) : Decoded :=
  let h := words.getD 0 0
  let n := payloadCount (headerDataLength h) words.length
  { cmd := headerCommand h
    madd := headerMaster h
    ra := headerAddr h
    cnt := headerCounter h
    dl := headerDataLength h
    reg := words.getD 1 0
    n := n
    payload := quadOf ((words.drop 2).take n.val) }

/-- Does the checksum word, the last one, match the checksum of the words before it (R104, R113)? -/
def checksumOk (P : Params) (words : List Word) : Bool :=
  crcMatches P words.dropLast (words.getLastD 0)

/-- A framed decode, `L ≥ 4`: extract the fields, read the expected counter, advance the entry of the decoded address once,
and report the first condition of R114 that holds (R113 to R116). -/
def decodeFramed (P : Params) (words : List Word) (s : State) : State × Status :=
  let d := fieldsOf words
  let crcOk := checksumOk P words
  let st := framedStatus P crcOk (ctRead d.ra s) d
  let s := { s with d := d }
  (if crcOk || advanceOnWrongCrc then ctrAdvance d.ra s else s, st)

/-- The decode of a message of `L` words (R113): `L > 7` is a programming error (R117); `L = 0` and `L < 4` report
`Timeout` and `ShortMessage` and leave the decoder registers unspecified (R31). -/
def decodeWords (P : Params) (words : List Word) (s : State) : Except Fault (State × Status) :=
  if maxMsgWords < words.length then .error .programmingError
  else if words.length = 0 then .ok (forgetDecoded s, .timeout)
  else if words.length < 4 then .ok (forgetDecoded s, .shortMessage)
  else .ok (decodeFramed P words s)

/-- The result of a decode: the fields of a framed decode, none otherwise, and the status (R113). -/
def decodeResult (messageLength : Nat) (s : State) (st : Status) : Response :=
  .decoded (if messageLength < 4 then none else some s.d) st

/-- `DECOMPOSE` (R113). -/
def decomposeOp (P : Params) (words : List Word) (s : State) : State :=
  match decodeWords P words s with
  | .ok (s', st) => respond (decodeResult words.length s' st) s'
  | .error f => raiseFault f s

/-- The meaning of `DECOMPOSE` (R113), internal (R93). -/
def execDecompose (words : List Word) (s : State) : Host.Outcome State Fault Refusal :=
  .next (internalOnly (decomposeOp Config.params words) s)

/-! ## Received messages -/

/-- A received message is decoded like any other, whatever its command (R113, R114, R120 to R123); only the decoder reads
it, so it is internal (R93, entry 10). -/
def receivedOp (P : Params) (cmd : Command) (madd : BitVec 1) (ra : Addr) (cnt : Counter) (dl : BitVec 2)
    (body : List Word) (s : State) : State :=
  decomposeOp P (pack cmd madd ra cnt dl :: body) s

/-- The meaning of a received NOP (R120): `NoResponse` unless an earlier check fails. -/
def execMsgNop (madd : BitVec 1) (ra : Addr) (cnt : Counter) (dl : BitVec 2) (body : List Word) (s : State) :
    Host.Outcome State Fault Refusal :=
  .next (internalOnly (receivedOp Config.params .nop madd ra cnt dl body) s)

/-- The meaning of a received READ (R122): `NoResponse` unless an earlier check fails. -/
def execMsgRead (madd : BitVec 1) (ra : Addr) (cnt : Counter) (dl : BitVec 2) (body : List Word) (s : State) :
    Host.Outcome State Fault Refusal :=
  .next (internalOnly (receivedOp Config.params .read madd ra cnt dl body) s)

/-- The meaning of a received WRITE (R121): `NoResponse` unless an earlier check fails. -/
def execMsgWrite (madd : BitVec 1) (ra : Addr) (cnt : Counter) (dl : BitVec 2) (body : List Word) (s : State) :
    Host.Outcome State Fault Refusal :=
  .next (internalOnly (receivedOp Config.params .write madd ra cnt dl body) s)

/-- The meaning of a received RESPONSE (R123): the only command for which a decode can report `Ok`. -/
def execMsgResponse (madd : BitVec 1) (ra : Addr) (cnt : Counter) (dl : BitVec 2) (body : List Word) (s : State) :
    Host.Outcome State Fault Refusal :=
  .next (internalOnly (receivedOp Config.params .response madd ra cnt dl body) s)

end Sys2Proof.Machine
end

