-- ==== Sys2Proof/Machine/Gate.lean ====
section
/-! DEFINITION. The transfer-request gate (R140 to R152): claim the bus, start the transfer, wait for its completion or a
timeout; the completion agent (R146); and `WRITE` (R143). Each definition is one indivisible step or a part of one. -/

namespace Sys2Proof.Machine

/-! ## The engine's side -/

/-- `ACQUIRE()`: a busy bus is a fault, an idle one is claimed, in one indivisible step (R56, R141). -/
def acquire (s : State) : Except Fault State :=
  match s.busy with
  | .busy => .error .busBusy
  | .idle => .ok { s with busy := .busy }

/-- The gate up to the transfer start: claim the bus, stage the message's four words, and stand before `START(c, n_rx)`
(R140, R141). -/
def gateClaim (op : Instr) (c : Channel) (nRx : Nat) (m : List Word) (s : State) : State :=
  match acquire s with
  | .ok s' => { s' with txBuf := quadOf m, opState := .running op (.start c nRx) }
  | .error f => raiseFault f s

/-- `START(c, n_rx)` with the environment's answer (R142): `accepted` adds the in-flight record and begins the wait, `busy`
is a fault. -/
def startTransfer (P : Params) (op : Instr) (c : Channel) (nRx : Nat) (a : StartAnswer) (s : State) : State :=
  match a with
  | .accepted =>
    emit (.transfer c s.txBuf nRx (waitTimeout P c))
      { s with inflight := ⟨c, nRx⟩ :: s.inflight, opState := .waiting op c }
  | .busy => raiseFault .transferRejected s

/-- Where an operation goes on after its wait (R143, R160): a write returns, a bulk read walks its frames. -/
def afterWait (c : Channel) : Point :=
  match c with
  | .tx => .written
  | .rx => .frames

/-- The read-engine registers when the walk over the received frames begins (R160). -/
def beginWalk (received : Nat) (rd : ReadRegs) : ReadRegs :=
  { rd with received := received, k := 0, remaining := rd.itemCount, acc := [], st := .ok }

/-- The read-engine registers after a receive timeout: no items, status `Timeout`, no frame to decode (R170). -/
def readTimedOut (rd : ReadRegs) : ReadRegs :=
  { rd with acc := [], st := .timeout }

/-- The end of a wait by a pending notification, which is consumed (R144). -/
def waitDone (op : Instr) (c : Channel) (received : Nat) (s : State) : State :=
  let s := noteWrite c none { s with opState := .running op (afterWait c) }
  match c with
  | .tx => s
  | .rx => { s with rd := beginWalk received s.rd }

/-- `TIMEOUT_RELEASE()`: the gate releases the bus itself; the in-flight record stays (R145). -/
def timeoutRelease (s : State) : State :=
  { s with busy := .idle }

/-- The end of a wait by the environment's timeout (R144, R145). -/
def waitTimedOut (P : Params) (op : Instr) (c : Channel) (s : State) : State :=
  let s := emit (.timedOut c (waitTimeout P c)) (timeoutRelease { s with opState := .running op (afterWait c) })
  match c with
  | .tx => s
  | .rx => { s with rd := readTimedOut s.rd }

/-! ## The completion agent -/

/-- May the completion agent complete record `t` with these received words (R146: the record is in flight, `R ≤ n_rx`)? A
write receives nothing, so its word list is empty. -/
def completionEnabled (t : Transfer) (received : List Word) (s : State) : Bool :=
  s.inflight.contains t && decide (received.length ≤ t.nRx) && (t.kind == .rx || received.isEmpty)

/-- The completion agent's one indivisible step (R146): the record leaves `inflight`, received words land in `RxBuf` from
index 0, the bus is released and the notification is pending. -/
def completion (t : Transfer) (received : List Word) (s : State) : State :=
  let s := { s with inflight := s.inflight.erase t, busy := .idle }
  match t.kind with
  | .tx => emit (.notification .tx 0) (noteWrite .tx (some 0) s)
  | .rx =>
    emit (.notification .rx received.length)
      (noteWrite .rx (some received.length) { s with rxBuf := tableWriteList 0 0 received s.rxBuf })

/-! ## WRITE -/

/-- A write up to the transfer start: compose the 4-word message (R121) and claim the bus with no receive words (R143). -/
def writeBegin (P : Params) (op : Instr) (ra : Addr) (reg value : Word) (s : State) : State :=
  match compose P Command.write.code.toNat 0 ra.toNat reg.toNat 0 ⟨value, 0, 0, 0⟩ with
  | .ok m => gateClaim op .tx 0 m s
  | .error f => raiseFault f s

/-- The meaning of `WRITE` (R143), external: accepted, composed, bus claimed, message staged. The transfer start, the wait
and the return are the engine's next steps (Machine/Engine.lean). -/
def execWrite (ra : Addr) (reg value : Word) (s : State) : Host.Outcome State Fault Refusal :=
  .next (writeBegin Config.params (.write ra reg value) ra reg value (accept (.write ra reg value) s))

end Sys2Proof.Machine
end

