-- ==== Sys2Proof/Machine/ReadEngine.lean ====
section
/-! DEFINITION. The multi-frame read reassembler (R160 to R173): `READ_MULTIPLE` and `READ`. -/

namespace Sys2Proof.Machine

/-- `CHECK(itemCount, ipf)`: the caps, in the order of R161; the first check keeps the third from dividing by 0. -/
def readCheck (P : Params) (itemCount ipf : Nat) : Option Fault :=
  if ipf < 1 ∨ maxIpf < ipf then some .programmingError
  else if itemCount < 1 then some .programmingError
  else if P.maxFrames < frameCount itemCount ipf then some .programmingError
  else none

/-- The registers latched when a read begins: its operands and the frame count (R160). -/
def readLatch (ra : Addr) (itemCount ipf : Nat) (reg : Word) (rd : ReadRegs) : ReadRegs :=
  { rd with ra := ra, itemCount := itemCount, ipf := ipf, reg := reg, fc := frameCount itemCount ipf }

/-- A bulk read up to the transfer start: check, compose the one request message (R162), claim the bus with `rxLen` receive
words staged (R160). -/
def readBegin (P : Params) (op : Instr) (ra : Addr) (itemCount ipf : Nat) (reg : Word) (s : State) : State :=
  match readCheck P itemCount ipf with
  | some f => raiseFault f s
  | none =>
    match compose P Command.read.code.toNat 0 ra.toNat reg.toNat 0 ⟨paramWord ipf itemCount, 0, 0, 0⟩ with
    | .ok m => gateClaim op .rx (rxLength itemCount ipf) m { s with rd := readLatch ra itemCount ipf reg s.rd }
    | .error f => raiseFault f s

/-- Is the walk over the frames over: an error met, or every frame done (R160, R169)? -/
def walkOver (rd : ReadRegs) : Bool :=
  rd.st != .ok || decide (rd.fc ≤ rd.k)

/-- The words of answer frame `k` that arrived (R160, R165). -/
def frameWords (s : State) : List Word :=
  rxSlice (frameOffset s.rd.ipf s.rd.k) (frameLength s.rd.ipf s.rd.k s.rd.received) s

/-- The read-engine registers after a frame that passed every check: up to `ipf` of the outstanding items are copied, never
more (R168), and the walk goes on. -/
def copyItems (payload : Quad) (rd : ReadRegs) : ReadRegs :=
  let m := min rd.ipf rd.remaining
  { rd with acc := rd.acc ++ (quadWords payload).take m, remaining := rd.remaining - m, k := rd.k + 1 }

/-- One answer frame (R160): decode it, check the echoed addresses, copy its items. The first error ends the walk and none of
that frame's items is copied (R169). -/
def frameStep (P : Params) (s : State) : State :=
  match decodeWords P (frameWords s) s with
  | .error f => raiseFault f s
  | .ok (s', sd) =>
    match answerStatus sd s'.d s'.rd.ra (expectedReg s'.rd.reg s'.rd.k s'.rd.ipf) with
    | .ok => { s' with rd := copyItems s'.d.payload s'.rd }
    | st => { s' with rd := { s'.rd with st := st } }

/-- The value `READ` returns: the one item when the status is `Ok`, else an unspecified word (R171, entry 7). -/
def readValue (draws : Nat) (acc : List Word) (st : Status) : Word :=
  if st = .ok then acc.headD (Config.freeWord draws) else Config.freeWord draws

/-- The meaning of `READ_MULTIPLE` (R160), external: accepted, checked, request staged, bus claimed. The transfer start, the
wait, the frames and the return are the engine's next steps (Machine/Engine.lean). -/
def execReadMultiple (ra : Addr) (itemCount ipf reg : Word) (s : State) : Host.Outcome State Fault Refusal :=
  .next (readBegin Config.params (.readMultiple ra itemCount ipf reg) ra itemCount.toNat ipf.toNat reg
    (accept (.readMultiple ra itemCount ipf reg) s))

/-- The meaning of `READ` (R171), external: `READ_MULTIPLE` with `itemCount = 1` and `ipf = 1`. -/
def execRead (ra : Addr) (reg : Word) (s : State) : Host.Outcome State Fault Refusal :=
  .next (readBegin Config.params (.read ra reg) ra 1 1 reg (accept (.read ra reg) s))

end Sys2Proof.Machine
end

