-- ==== Sys2Proof/Machine/Enumeration.lean ====
section
/-! DEFINITION. The bus enumeration state machine (R180 to R190): `ENUMERATE` and its phases. The reads and writes of a phase
are steps of `ENUMERATE`, not port requests (R205). -/

namespace Sys2Proof.Machine

/-- Set the phase and stand before its rule. -/
def toPhase (op : Instr) (ph : Phase) (s : State) : State :=
  { s with phase := ph, opState := .running op .phase }

/-- The start of `ENUMERATE`: every `addressed` bit cleared, position 1, phase `Sleep` (R180). -/
def enumerateBegin (op : Instr) (s : State) : State :=
  toPhase op .sleep { s with addressed := [], pos := 1 }

/-- The return of `ENUMERATE`: `Ok` if every position ended addressed; the walk's registers go back to rest (R180, R188). -/
def enumerateReturn (P : Params) (s : State) : State :=
  respond (.status (enumerationStatus P s)) { s with phase := .idle, pos := 0 }

/-- The phase rule at the current position (R181 to R188): up to the transfer start for the phases that transfer, whole for
`Wake` and `Done`. In phase `Idle` no walk runs and nothing happens. -/
def phaseStep (P : Params) (op : Instr) (s : State) : State :=
  let ra := positionAddr P s.pos
  match s.phase with
  | .idle => s
  | .sleep => writeBegin P op ra P.regSysMode P.sleepValue s
  | .probe1 => readBegin P op ra 1 1 P.regStatus s
  | .wake => toPhase op .probe2 (emit (.delay .wakeSettle P.wakeSettle) s)
  | .probe2 => readBegin P op ra 1 1 P.regStatus s
  | .assign => writeBegin P op broadcastAddr P.regDevAddr (assignValue P s.pos) s
  | .verify => readBegin P op ra 1 1 P.regVersion s
  | .config => writeBegin P op ra P.regComTimeout P.comTimeoutValue s
  | .uid => readBegin P op ra P.uidWords P.uidIpf P.regUid s
  | .done => enumerateReturn P s

/-- What a phase does after its write returned (R182, R185, R187). Other phases issue no write. -/
def phaseWritten (P : Params) (op : Instr) (s : State) : State :=
  match s.phase with
  | .sleep => { s with opState := .running op .settle }
  | .assign => toPhase op .verify (ctrReset (positionAddr P s.pos) s)
  | .config => toPhase op .uid s
  | _ => s

/-- The settle delay after the sleep write, then the first probe (R182). -/
def settleStep (P : Params) (op : Instr) (s : State) : State :=
  toPhase op .probe1 (emit (.delay .sleepSettle P.sleepSettle) s)

/-- A probe that returned `Ok`: counter entry reset, position addressed, on to `Config` (R183, R184). -/
def probeOk (P : Params) (op : Instr) (s : State) : State :=
  toPhase op .config (addressedWrite s.pos true (ctrReset (positionAddr P s.pos) s))

/-- The next position, or the end of the walk (R181, R187). -/
def nextPosition (P : Params) (op : Instr) (s : State) : State :=
  if s.pos < P.deviceCount then toPhase op .sleep { s with pos := s.pos + 1 } else toPhase op .done s

/-- What a phase does with the result `(acc, st)` of its read (R183, R184, R186, R187). Other phases issue no read. -/
def phaseRead (P : Params) (op : Instr) (acc : List Word) (st : Status) (s : State) : State :=
  match s.phase with
  | .probe1 => if st = .ok then probeOk P op s else toPhase op .wake s
  | .probe2 => if st = .ok then probeOk P op s else toPhase op .assign s
  | .verify => toPhase op .config (addressedWrite s.pos (st == .ok) s)
  | .uid => nextPosition P op (uidStore s.pos acc s)
  | _ => s

/-- The meaning of `ENUMERATE` (R180), external: accepted and set to position 1, phase `Sleep`. The phases are the engine's
next steps (Machine/Engine.lean). -/
def execEnumerate (s : State) : Host.Outcome State Fault Refusal :=
  .next (enumerateBegin .enumerate (accept .enumerate s))

end Sys2Proof.Machine
end

