-- ==== Sys2Proof/Machine/Reserved.lean ====
section
/-! DEFINITION. The reserved operation codes 0x0 and 0xC to 0xF: each is refused with `raise Fault(IllegalOperation)`, which
sets the instance's sticky fault (R92, R203). -/

namespace Sys2Proof.Machine

/-- `raise Fault(IllegalOperation)` for a reserved code (R92). -/
def reservedOp (_low : BitVec 12) (s : State) : State :=
  raiseFault .illegalOperation s

/-- The meaning of code 0x0 (R92). -/
def execReserved0 (low : BitVec 12) (s : State) : Host.Outcome State Fault Refusal :=
  .next (reservedOp low s)

/-- The meaning of code 0xC (R92). -/
def execReservedC (low : BitVec 12) (s : State) : Host.Outcome State Fault Refusal :=
  .next (reservedOp low s)

/-- The meaning of code 0xD (R92). -/
def execReservedD (low : BitVec 12) (s : State) : Host.Outcome State Fault Refusal :=
  .next (reservedOp low s)

/-- The meaning of code 0xE (R92). -/
def execReservedE (low : BitVec 12) (s : State) : Host.Outcome State Fault Refusal :=
  .next (reservedOp low s)

/-- The meaning of code 0xF (R92). -/
def execReservedF (low : BitVec 12) (s : State) : Host.Outcome State Fault Refusal :=
  .next (reservedOp low s)

end Sys2Proof.Machine
end

