-- ==== Sys2Proof/Machine/Engine.lean ====
section
/-! DEFINITION. The steps that carry an accepted operation on, each an internal computation or an interaction with the
environment (R5): the engine's own steps and the moves of the other agents. -/

namespace Sys2Proof.Machine

/-- The return of a `WRITE`, or of the write of an enumeration phase (R143, R205). Other operations issue no write. -/
def writeReturns (P : Params) (op : Instr) (s : State) : State :=
  match op with
  | .write _ _ _ => respond .done s
  | .enumerate => phaseWritten P op s
  | _ => s

/-- The return of a bulk read `(acc, st)`: to the response port, or to the enumeration phase that issued it (R163, R171,
R205). The read-engine registers are unspecified from then on (R30). Other operations issue no read. -/
def readReturns (P : Params) (op : Instr) (s : State) : State :=
  let acc := s.rd.acc
  let st := s.rd.st
  let s' := forgetReadRegs s
  match op with
  | .read _ _ => respond (.value (readValue s.draws acc st) st) s'
  | .readMultiple _ _ _ _ => respond (.values acc st) s'
  | .enumerate => phaseRead P op acc st s'
  | _ => s

/-- The engine's next step inside an operation, none while it has to wait (R144: a wait holds until a notification is
pending; R142: a transfer start needs the environment's answer). -/
def engineStep (P : Params) (s : State) : Option State :=
  match s.opState with
  | .ready => none
  | .waiting op c =>
    match noteRead c s with
    | some received => some (waitDone op c received s)
    | none => none
  | .running _ .entry => none
  | .running _ (.start _ _) => none
  | .running op .phase => some (phaseStep P op s)
  | .running op .written => some (writeReturns P op s)
  | .running op .settle => some (settleStep P op s)
  | .running op .frames => some (if walkOver s.rd then readReturns P op s else frameStep P s)

/-- A move of an agent other than the engine, none while it is not enabled: a request needs a free port (R90), an answer a
pending `startTransfer` (R142), a completion an in-flight record (R146), a timeout a wait without a pending notification
(R144). -/
def agentMove (P : Params) (m : Move) (s : State) : Option State :=
  match m with
  | .engine => none
  | .reset => none
  | .request r =>
    match s.port with
    | none => some { s with port := some r }
    | some _ => none
  | .answer a =>
    match s.opState with
    | .running op (.start c nRx) => some (startTransfer P op c nRx a s)
    | _ => none
  | .complete t received => if completionEnabled t received s then some (completion t received s) else none
  | .timeout c =>
    match s.opState with
    | .waiting op c' => if c = c' ∧ noteRead c s = none then some (waitTimedOut P op c s) else none
    | _ => none

end Sys2Proof.Machine
end

