-- ==== Sys2Proof/Machine/Dispatch.lean ====
section
/-! DEFINITION. The dispatch of an instruction to its meaning, one arm per constructor. -/

namespace Sys2Proof.Machine

def exec (i : Instr) (s : State) : Host.Outcome State Fault Refusal :=
  match i with
  | .crcCompute words => Sys2Proof.Machine.execCrcCompute words s
  | .crcVerify words expected => Sys2Proof.Machine.execCrcVerify words expected s
  | .compose cmd madd ra reg length values => Sys2Proof.Machine.execCompose cmd madd ra reg length values s
  | .decompose words => Sys2Proof.Machine.execDecompose words s
  | .ctrExpected ra => Sys2Proof.Machine.execCtrExpected ra s
  | .ctrAdvance ra => Sys2Proof.Machine.execCtrAdvance ra s
  | .ctrReset ra stringId => Sys2Proof.Machine.execCtrReset ra stringId s
  | .write ra reg value => Sys2Proof.Machine.execWrite ra reg value s
  | .read ra reg => Sys2Proof.Machine.execRead ra reg s
  | .readMultiple ra itemCount ipf reg => Sys2Proof.Machine.execReadMultiple ra itemCount ipf reg s
  | .enumerate => Sys2Proof.Machine.execEnumerate s
  | .reserved0 low => Sys2Proof.Machine.execReserved0 low s
  | .reservedC low => Sys2Proof.Machine.execReservedC low s
  | .reservedD low => Sys2Proof.Machine.execReservedD low s
  | .reservedE low => Sys2Proof.Machine.execReservedE low s
  | .reservedF low => Sys2Proof.Machine.execReservedF low s
  | .msgNop madd ra cnt dl body => Sys2Proof.Machine.execMsgNop madd ra cnt dl body s
  | .msgRead madd ra cnt dl body => Sys2Proof.Machine.execMsgRead madd ra cnt dl body s
  | .msgWrite madd ra cnt dl body => Sys2Proof.Machine.execMsgWrite madd ra cnt dl body s
  | .msgResponse madd ra cnt dl body => Sys2Proof.Machine.execMsgResponse madd ra cnt dl body s

end Sys2Proof.Machine
end

