-- ==== Sys2Proof/Machine/Step.lean ====
section
/-! DEFINITION. One step of the instance: a move of the environment, of the completion agent or of the engine (R5, R6). -/

namespace Sys2Proof.Machine

/-- A request taken off the port in Ready (R90): what does not decode is refused with `IllegalOperation` (R90, R91), what
decodes is run. -/
def runRequest (r : Request) (s : State) : Host.Outcome State Fault Refusal :=
  match decode r.format r.words with
  | .ok i => exec i (takeRequest r s)
  | .error _ => .next (raiseFault .illegalOperation (takeRequest r s))

/-- The engine's turn, none when it has nothing to do: in Ready it takes the waiting request, inside an operation it goes on
with it. -/
def engineTurn (s : State) : Option (Host.Outcome State Fault Refusal) :=
  match s.opState, s.port with
  | .ready, none => none
  | .ready, some r => some (runRequest r s)
  | _, _ => (engineStep Config.params s).map .next

/-- The engine's turn when no other agent moves; without one the state holds (R144: "hold"). -/
def engineOrHold (s : State) : Host.Outcome State Fault Refusal :=
  (engineTurn s).getD (.next s)

/-- One step with the next move at hand. An enabled move happens. A move that is not enabled yet stays while the engine goes
on, and is dropped once the engine has nothing to do (entry 1). -/
def moveStep (m : Move) (rest : List Move) (s : State) : Host.Outcome State Fault Refusal :=
  match m with
  | .engine => engineOrHold { s with moves := rest }
  | m =>
    match agentMove Config.params m { s with moves := rest } with
    | some s' => .next s'
    | none => (engineTurn s).getD (.next { s with moves := rest })

/-- A step of an instance without a fault. -/
def liveStep (s : State) : Host.Outcome State Fault Refusal :=
  match s.moves with
  | [] => engineOrHold s
  | m :: rest => moveStep m rest s

/-- One step. Reset may come at any time (entry 15) and is the only event that clears a fault (R220); a faulted instance
takes no other step (R33, R203). -/
def step (s : State) : Host.Outcome State Fault Refusal :=
  match s.moves, s.fault with
  | .reset :: rest, _ => .next (restart rest s)
  | _, some f => .fault f
  | _, none => liveStep s

/-- `s` with one table word waiting where the engine takes its next instruction from: on the port, issued by the test harness
(R93), the instance being Ready and without a fault, and no other agent moving first (entry 12). -/
def State.withFetchWord (s : State) (nbits w : Nat) : State :=
  { s with
    port := some ⟨(tableItem nbits w).1, .harness, (tableItem nbits w).2⟩
    opState := .ready
    fault := none
    moves := [] }

end Sys2Proof.Machine
end

