-- ==== Sys2Proof/Machine/System.lean ====
section
/-! DEFINITION. The bus strings side by side: one instance per string, sharing nothing, in any interleaving (R20, R60,
R210). -/

namespace Sys2Proof.Machine

/-- One record per bus string `s ∈ 0..NSTRINGS-1` (R20). -/
structure System where
  strings : List State
  deriving DecidableEq, Repr

/-- Every instance in its reset state, under its own string id (R210). -/
def systemReset : System :=
  ⟨(List.range Config.params.nStrings).map fun i => { State.reset with string := i }⟩

/-- A step of the instance of string `i`, none if there is no such string or the instance takes no step (R60, R210). -/
def systemStep (i : Nat) (y : System) : Option System :=
  match y.strings[i]? with
  | none => none
  | some s =>
    match step s with
    | .next s' => some ⟨y.strings.set i s'⟩
    | .fault _ => none
    | .refused _ => none

end Sys2Proof.Machine
end

