-- ==== Sys2Proof/Safety.lean ====
section
/-! DEFINITION. The terms in which claims speak of safe states: the invariants of an instance. -/

namespace Sys2Proof.Machine

/-- Every table is in its canonical form. -/
def tablesWf (s : State) : Bool :=
  tableWf 0 s.ct && tableWf 0 s.rxBuf && tableWf false s.addressed && tableWf 0 s.uidCount && tableWf 0 s.uid

/-- The point inside an operation at which the bus is claimed and the transfer not started yet. -/
def beforeStart (s : State) : Bool :=
  match s.opState with
  | .running _ (.start _ _) => true
  | _ => false

/-- A claimed bus is accounted for: a transfer is in flight or about to start, unless the instance is faulted (R141, R147). -/
def busAccounted (s : State) : Bool :=
  s.busy == .idle || s.fault.isSome || !s.inflight.isEmpty || beforeStart s

/-- An operation that transfers, or that the enumeration runs (R91). -/
def transfersWith (op : Instr) (c : Channel) : Bool :=
  match op, c with
  | .write _ _ _, .tx => true
  | .read _ _, .rx => true
  | .readMultiple _ _ _ _, .rx => true
  | .enumerate, _ => true
  | _, _ => false

/-- The enumeration phases that transfer on a channel (R181). -/
def phaseTransfers (ph : Phase) (c : Channel) : Bool :=
  match ph, c with
  | .sleep, .tx => true
  | .assign, .tx => true
  | .config, .tx => true
  | .probe1, .rx => true
  | .probe2, .rx => true
  | .verify, .rx => true
  | .uid, .rx => true
  | _, _ => false

/-- The operation waits on, or is transferring on, a channel it uses; inside a walk the phase uses it too. -/
def channelFits (op : Instr) (c : Channel) (ph : Phase) : Bool :=
  transfersWith op c && (op != .enumerate || phaseTransfers ph c)

/-- The control point of a running operation is one its pseudocode has (R22, R143, R160, R181). -/
def controlWf (s : State) : Bool :=
  match s.opState with
  | .ready => true
  | .waiting op c => channelFits op c s.phase
  | .running op (.start c _) => channelFits op c s.phase
  | .running op .written => channelFits op .tx s.phase
  | .running op .frames => channelFits op .rx s.phase
  | .running op .settle => op == .enumerate && s.phase == .sleep
  | .running op .phase => op == .enumerate && s.phase != .idle
  | .running _ .entry => s.fault.isSome

/-- A walk is under way exactly while `ENUMERATE` runs: otherwise `phase = Idle` and `pos = 0`, and during it `pos` is a
chain position (R28, R180). -/
def walkWf (P : Params) (s : State) : Bool :=
  match s.opState with
  | .running .enumerate _ => s.phase != .idle && decide (1 ≤ s.pos) && decide (s.pos ≤ P.deviceCount)
  | .waiting .enumerate _ => s.phase != .idle && decide (1 ≤ s.pos) && decide (s.pos ≤ P.deviceCount)
  | _ => s.phase == .idle && s.pos == 0

/-- The indexes of a table lie below a bound. -/
def keysBelow {α : Type} (bound : Nat) (t : Table α) : Bool :=
  t.all fun e => decide (e.1 < bound)

/-- The receive buffer's capacity is respected: words stored, words staged and words notified stay within `RX_BUF_WORDS`, and
a write stages none (R25, R27, R143, R161). -/
def buffersWf (P : Params) (s : State) : Bool :=
  keysBelow (rxBufWords P) s.rxBuf &&
    s.inflight.all (fun t => decide (t.nRx ≤ rxBufWords P) && (t.kind == .rx || t.nRx == 0)) &&
    (match s.opState with
      | .running _ (.start c n) => decide (n ≤ rxBufWords P) && (c == .rx || n == 0)
      | _ => true) &&
    (s.noteTx == none || s.noteTx == some 0) &&
    (match s.noteRx with
      | some r => decide (r ≤ rxBufWords P)
      | none => true)

/-- The operands and frame count latched by a read that passed the check (R160, R161). -/
def latchWf (P : Params) (rd : ReadRegs) : Bool :=
  readCheck P rd.itemCount rd.ipf == none && rd.fc == frameCount rd.itemCount rd.ipf

/-- The walk over the frames keeps count: items copied and items outstanding make up the request, unless an error ended it
(R163, R168). -/
def countWf (rd : ReadRegs) : Bool :=
  decide (rd.acc.length ≤ rd.itemCount) && (rd.st != .ok || rd.acc.length + rd.remaining == rd.itemCount)

/-- A read of the identifier phase asks for `UID_WORDS` words (R187). -/
def uidReadWf (P : Params) (op : Instr) (s : State) : Bool :=
  op != .enumerate || s.phase != .uid || s.rd.itemCount == P.uidWords

/-- The read-engine registers while a read is under way (R30, R160). -/
def readRegsWf (P : Params) (s : State) : Bool :=
  match s.opState with
  | .running op (.start .rx _) => latchWf P s.rd && uidReadWf P op s
  | .waiting op .rx => latchWf P s.rd && uidReadWf P op s
  | .running op .frames => latchWf P s.rd && uidReadWf P op s && countWf s.rd
  | _ => true

/-- No position holds more than `UID_WORDS` identifier words (R29). -/
def uidCountsWf (P : Params) (s : State) : Bool :=
  s.uidCount.all fun e => decide (e.2 ≤ P.uidWords)

/-- Decode a list of messages one after the other, whatever their statuses. -/
def decodeAll (P : Params) (ms : List (List Word)) (s : State) : State :=
  ms.foldl (fun s m => match decodeWords P m s with | .ok (s', _) => s' | .error _ => s) s

/-- A run of `n` steps of the machine from `s` ends in `u`. -/
def stepsTo (n : Nat) (s u : State) : Prop :=
  Host.Core.run Sys2Proof.core n s = .next u

/-- The operations of codes 0x1 to 0x6, which a caller may not request (R91, R93). -/
def internalOp : Instr → Bool
  | .crcCompute _ => true
  | .crcVerify _ _ => true
  | .compose _ _ _ _ _ _ => true
  | .decompose _ => true
  | .ctrExpected _ => true
  | .ctrAdvance _ => true
  | _ => false

/-- The constructors of the four message rows, each beside the command it carries. -/
def messageRows : List (Command × (BitVec 1 → Addr → Counter → BitVec 2 → List Word → Instr)) :=
  [(.nop, .msgNop), (.read, .msgRead), (.write, .msgWrite), (.response, .msgResponse)]

/-- The four words of a write (R121). -/
def writeMessage (P : Params) (ra : Addr) (reg value : Word) : Quad :=
  ⟨pack .write 0 ra 0 0, reg, value, P.crc [pack .write 0 ra 0 0, reg, value]⟩

/-- The four words of a read request (R122, R162). -/
def readMessage (P : Params) (ra : Addr) (itemCount ipf : Nat) (reg : Word) : Quad :=
  ⟨pack .read 0 ra 0 0, reg, paramWord ipf itemCount, P.crc [pack .read 0 ra 0 0, reg, paramWord ipf itemCount]⟩

/-- The words of answer frame `k` in a received stream (R77, R164). -/
def streamFrame (received : List Word) (ipf k : Nat) : List Word :=
  (received.drop (frameOffset ipf k)).take (frameWidth ipf)

/-- Answer frame `k` of a received stream decodes `Ok` and passes both address checks, given that the entry of the requested
device was `c0` before the read and that each frame before this one advanced it once (R172). -/
def frameGood (P : Params) (received : List Word) (ra : Addr) (reg : Word) (ipf : Nat) (c0 : Counter) (k : Nat) : Prop :=
  P.crc (streamFrame received ipf k).dropLast = (streamFrame received ipf k).getLastD 0 ∧
    (fieldsOf (streamFrame received ipf k)).cnt = c0 + BitVec.ofNat 4 k ∧
    (fieldsOf (streamFrame received ipf k)).reg ≠ P.errorRegAddr ∧
    (fieldsOf (streamFrame received ipf k)).cmd = .response ∧
    (fieldsOf (streamFrame received ipf k)).ra = ra ∧
    (fieldsOf (streamFrame received ipf k)).reg = expectedReg reg k ipf

/-- The data words of the first `fc` answer frames in order, padding included. -/
def streamItems (received : List Word) (ipf fc : Nat) : List Word :=
  (List.range fc).flatMap fun k => (quadWords (fieldsOf (streamFrame received ipf k)).payload).take ipf

/-- The environment's moves for one chain position on which every transfer is accepted and none completes: sleep write, two
probes, assignment, verification, configuration, identifier read (R181). -/
def silentPosition : List Move :=
  [.tx, .rx, .rx, .tx, .rx, .tx, .rx].flatMap fun c => [.answer .accepted, .timeout c]

/-- A read is under way, so that the read-engine registers are live (R30). -/
def readLive (s : State) : Bool :=
  match s.opState with
  | .running _ (.start .rx _) => true
  | .waiting _ .rx => true
  | .running _ .frames => true
  | _ => false

/-- The wait of a read is over and its result is being put together or returned (R160). -/
def readEnded (s : State) : Bool :=
  match s.opState with
  | .running _ .frames => true
  | _ => false

/-- The walk over the received frames is under way (R160). -/
def walkLive (s : State) : Bool :=
  readEnded s && s.rd.st == .ok

/-- Two states that differ at most in what is unspecified after reset and what no rule reads: the buffers (but for staged
and received words), the identifier words, the decoder registers, and the read-engine registers that the read under way has
not written yet (R27, R29 to R31, R40, R53). -/
def agreeButUnspecified (s s' : State) : Prop :=
  s' = { s with txBuf := s'.txBuf, rxBuf := s'.rxBuf, uid := s'.uid, rd := s'.rd, d := s'.d } ∧
    (beforeStart s = true → s'.txBuf = s.txBuf) ∧
    (readLive s = true → s'.rd.ra = s.rd.ra ∧ s'.rd.itemCount = s.rd.itemCount ∧ s'.rd.ipf = s.rd.ipf ∧
      s'.rd.reg = s.rd.reg ∧ s'.rd.fc = s.rd.fc) ∧
    (readEnded s = true → s'.rd.acc = s.rd.acc ∧ s'.rd.st = s.rd.st) ∧
    (walkLive s = true → s'.rd = s.rd ∧ ∀ i < s.rd.received, rxRead i s' = rxRead i s) ∧
    ∀ r, s.noteRx = some r → ∀ i < r, rxRead i s' = rxRead i s

end Sys2Proof.Machine
end

