-- ==== Sys2Proof/Certificates/Slice0/Obligations.lean ====
section
/-! DEFINITION. The statements about the machine that are to be proved, in the order of the spec's files. A statement writes
the whole next state as an update of the old one, so that every field it does not name is unchanged. -/

open Sys2Proof Sys2Proof.Machine

/-! ## Encodings -/

/-- R72: packing and unpacking of the header word, as numbers; every 16-bit word is a header, and the layout is a bijection. -/
def Obligations.HeaderLayout : Prop :=
  (∀ (cmd : Command) (madd : BitVec 1) (ra : Addr) (cnt : Counter) (dl : BitVec 2),
    (pack cmd madd ra cnt dl).toNat =
        cmd.code.toNat * 2 ^ 14 + madd.toNat * 2 ^ 13 + (ra.toNat / 64) * 2 ^ 12 + (ra.toNat % 64) * 2 ^ 6 +
          cnt.toNat * 2 ^ 2 + dl.toNat ∧
      headerCommand (pack cmd madd ra cnt dl) = cmd ∧ headerMaster (pack cmd madd ra cnt dl) = madd ∧
      headerAddr (pack cmd madd ra cnt dl) = ra ∧ headerCounter (pack cmd madd ra cnt dl) = cnt ∧
      headerDataLength (pack cmd madd ra cnt dl) = dl) ∧
  ∀ h : Word,
    (headerCommand h).code.toNat = h.toNat / 2 ^ 14 ∧ (headerMaster h).toNat = h.toNat / 2 ^ 13 % 2 ∧
      (headerAddr h).toNat = h.toNat / 2 ^ 6 % 2 ^ 7 ∧ (headerCounter h).toNat = h.toNat / 2 ^ 2 % 2 ^ 4 ∧
      (headerDataLength h).toNat = h.toNat % 2 ^ 2 ∧
      pack (headerCommand h) (headerMaster h) (headerAddr h) (headerCounter h) (headerDataLength h) = h

/-- Decoding the encoding of a well-formed instruction gives it back, with every operand at every value. -/
def Obligations.DecodeEncodeAgree : Prop :=
  ∀ i : Instr, i.wf = true → decode i.format (encode i) = .ok i

/-- Each word list has one meaning: what decodes as a request begins with that instruction's own encoding (surplus operand
words are not read, the model's choice, entry 9), and what decodes as a message is that instruction's encoding. -/
def Obligations.EncodingUnique : Prop :=
  (∀ (words : List Word) (i : Instr), decodeRequest words = .ok i →
    encode i <+: words ∧ i.wf = true ∧ i.format = .req) ∧
  ∀ (words : List Word) (i : Instr), decodeReceived words = .ok i → encode i = words ∧ i.format = .msgHdr

/-- A few words written out from the spec's encodings decode to the instructions they stand for (R94, R102, R110, R113, R120,
R123, R132, R162). -/
def Obligations.SampleWordsDecode : Prop :=
  decodeRequest [0x8000, 0x0041, 0x0002, 0x0001] = .ok (.write 0x41 0x0002 0x0001) ∧
    decodeRequest [0x9000, 0x0041, 0x0003] = .ok (.read 0x41 0x0003) ∧
    decodeRequest [0xA000, 0x0041, 0x0005, 0x0002, 0x0020] = .ok (.readMultiple 0x41 5 2 0x0020) ∧
    decodeRequest [0x7000, 0x0042, 0x0000] = .ok (.ctrReset 0x42 0) ∧
    decodeRequest [0x1000, 3, 0x9040, 0x0002, 0x0001] = .ok (.crcCompute [0x9040, 0x0002, 0x0001]) ∧
    decodeRequest [0x4000, 4, 0xD040, 0x0003, 0x1234, 0xF15A] = .ok (.decompose [0xD040, 0x0003, 0x1234, 0xF15A]) ∧
    decodeRequest [0xB000] = .ok .enumerate ∧
    decodeReceived [0xD044, 0x0003, 0x1234, 0x785C] = .ok (.msgResponse 0 0x41 1 0 [0x0003, 0x1234, 0x785C]) ∧
    decodeReceived [0x0000, 0x0000, 0x0000, 0x0E10] = .ok (.msgNop 0 0 0 0 [0x0000, 0x0000, 0x0E10])

/-! ## The request port -/

/-- A step in Ready with no other agent moving takes the request off the port, records it, and runs the instruction it
decodes to: the machine runs what `exec` says. The moment of the request event (entry 5) and the field `origin` (entry 6) are
the model's choice. -/
def Obligations.StepRunsTheDecodedInstruction : Prop :=
  ∀ (s : State) (r : Request) (i : Instr),
    s.fault = none → s.moves = [] → s.opState = .ready → s.port = some r → decode r.format r.words = .ok i →
    step s = exec i { s with port := none, origin := r.origin, history := .request r :: s.history }

/-- R92: a request with a reserved code sets the fault `IllegalOperation`, whatever its other bits and words; that is the whole
effect of each reserved instruction. That the refused request is taken off the port and recorded (entry 5), and that its issuer
is noted in `origin` (entry 6), is the model's choice. -/
def Obligations.ReservedCodesRefused : Prop :=
  (∀ (s : State) (o : Origin) (q : Word) (ops : List Word),
    s.fault = none → s.moves = [] → s.opState = .ready → s.port = some ⟨.req, o, q :: ops⟩ →
    (q.toNat / 4096 = 0 ∨ 12 ≤ q.toNat / 4096) →
    step s = .next { s with
      port := none, origin := o, fault := some .illegalOperation
      history := .request ⟨.req, o, q :: ops⟩ :: s.history }) ∧
  ∀ (s : State) (low : BitVec 12),
    exec (.reserved0 low) s = .next { s with fault := some .illegalOperation } ∧
    exec (.reservedC low) s = .next { s with fault := some .illegalOperation } ∧
    exec (.reservedD low) s = .next { s with fault := some .illegalOperation } ∧
    exec (.reservedE low) s = .next { s with fault := some .illegalOperation } ∧
    exec (.reservedF low) s = .next { s with fault := some .illegalOperation }

/-- A request that does not decode is refused with `IllegalOperation`; and the operand ranges of the codes 0x1 to 0xB: low bits
of the opcode word, high bits of a narrow operand, and the word counts. That a request with missing operand words and an empty
one are refused too (entry 9), the event of the refused request (entry 5) and the field `origin` (entry 6) are the model's
choice. -/
def Obligations.MalformedRequestsRefused : Prop :=
  (∀ (s : State) (r : Request) (e : DecodeError),
    s.fault = none → s.moves = [] → s.opState = .ready → s.port = some r → decode r.format r.words = .error e →
    step s = .next { s with
      port := none, origin := r.origin, fault := some .illegalOperation, history := .request r :: s.history }) ∧
  ∀ (q : Word) (ops : List Word), 1 ≤ q.toNat / 4096 → q.toNat / 4096 ≤ 11 →
    (q.toNat % 4096 ≠ 0 ∨
      (q.toNat / 4096 ≤ 2 ∧ 6 < (ops.getD 0 0).toNat) ∨
      (q.toNat / 4096 = 3 ∧ (3 < (ops.getD 0 0).toNat ∨ 1 < (ops.getD 1 0).toNat ∨ 127 < (ops.getD 2 0).toNat ∨
        3 < (ops.getD 4 0).toNat)) ∨
      (q.toNat / 4096 = 4 ∧ 7 < (ops.getD 0 0).toNat) ∨
      (5 ≤ q.toNat / 4096 ∧ q.toNat / 4096 ≤ 10 ∧ 127 < (ops.getD 0 0).toNat)) →
    ∃ e, decodeRequest (q :: ops) = .error e

/-- An internal operation requested by a caller, and a counter reset for a foreign string, are refused with
`IllegalOperation`; nothing else changes. -/
def Obligations.ForbiddenRequestsRefused : Prop :=
  (∀ (s : State) (i : Instr), internalOp i = true → s.origin = .caller →
    exec i s = .next { s with fault := some .illegalOperation }) ∧
  ∀ (s : State) (ra : Addr) (stringId : Word), stringId.toNat ≠ s.string →
    exec (.ctrReset ra stringId) s = .next { s with fault := some .illegalOperation }

/-- While the instance is not Ready the port holds a request back: no step but a reset takes it off or replaces it. -/
def Obligations.PortHoldsTheRequest : Prop :=
  ∀ (s s' : State) (r : Request), s.opState ≠ .ready → s.port = some r → (∀ rest, s.moves ≠ .reset :: rest) →
    step s = .next s' → s'.port = some r

/-! ## Checksum -/

/-- `CRC_COMPUTE` and `CRC_VERIFY` for a test harness: up to 6 words give the checksum and the comparison, and write no state
but the result; more words are refused. -/
def Obligations.ChecksumOperations : Prop :=
  ∀ (s : State) (words : List Word) (expected : Word), s.origin = .harness →
    (words.length ≤ 6 →
      exec (.crcCompute words) s = .next { s with
        opState := .ready, response := some (.checksum (Config.params.crc words))
        history := .result (.checksum (Config.params.crc words)) :: s.history } ∧
      ∃ b, (b = true ↔ Config.params.crc words = expected) ∧
        exec (.crcVerify words expected) s = .next { s with
          opState := .ready, response := some (.verified b), history := .result (.verified b) :: s.history }) ∧
    (6 < words.length →
      exec (.crcCompute words) s = .next { s with fault := some .illegalOperation } ∧
      exec (.crcVerify words expected) s = .next { s with fault := some .illegalOperation })

/-! ## Compose -/

/-- `COMPOSE` for a test harness: the message of `length + 4` words, word by word, its last word the checksum of all the
others; no state is written but the result. -/
def Obligations.ComposedMessage : Prop :=
  ∀ (s : State) (cmd : Command) (madd : BitVec 1) (ra : Addr) (reg : Word) (length : BitVec 2) (values : Quad),
    s.origin = .harness →
    ∃ m : List Word,
      exec (.compose cmd madd ra reg length values) s = .next { s with
        opState := .ready, response := some (.message m), history := .result (.message m) :: s.history } ∧
      m.length = length.toNat + 4 ∧ m[0]? = some (pack cmd madd ra 0 length) ∧ m[1]? = some reg ∧
      (∀ i ≤ length.toNat, m[i + 2]? = (quadWords values)[i]?) ∧
      m[length.toNat + 3]? = some (Config.params.crc (m.take (length.toNat + 3)))

/-- R112: the counter field of a message the block composes is 0. -/
def Obligations.ComposedCounterIsZero : Prop :=
  ∀ (P : Params) (cmd madd ra reg length : Nat) (values : Quad) (m : List Word),
    compose P cmd madd ra reg length values = .ok m → headerCounter (m.headD 0) = 0

/-- R111: compose refuses exactly the operands that do not fit their fields, with `ProgrammingError`; on the port they
are refused before that, with `IllegalOperation`; and operands of the fields' own widths are never refused. The event of the
refused request (entry 5) and the field `origin` (entry 6) are the model's choice. That no operation under way composes out of
range is ProgrammingErrorOnlyFromRequests. -/
def Obligations.ComposeOperandChecks : Prop :=
  (∀ (P : Params) (cmd madd ra reg length : Nat) (values : Quad),
    (3 < length ∨ 127 < ra ∨ 1 < madd ∨ 3 < cmd ∨ 0xFFFF < reg →
      compose P cmd madd ra reg length values = .error .programmingError) ∧
    (compose P cmd madd ra reg length values = .error .programmingError →
      3 < length ∨ 127 < ra ∨ 1 < madd ∨ 3 < cmd ∨ 0xFFFF < reg)) ∧
  (∀ (s : State) (o : Origin) (cmd madd ra reg length v0 v1 v2 v3 : Word) (rest : List Word),
    3 < length.toNat ∨ 127 < ra.toNat ∨ 1 < madd.toNat ∨ 3 < cmd.toNat →
    let r : Request := ⟨.req, o, 0x3000 :: cmd :: madd :: ra :: reg :: length :: v0 :: v1 :: v2 :: v3 :: rest⟩
    s.fault = none → s.moves = [] → s.opState = .ready → s.port = some r →
    step s = .next { s with
      port := none, origin := o, fault := some .illegalOperation, history := .request r :: s.history }) ∧
  ∀ (P : Params) (cmd : Command) (madd : BitVec 1) (ra : Addr) (reg : Word) (length : BitVec 2) (values : Quad),
    ∃ m, compose P cmd.code.toNat madd.toNat ra.toNat reg.toNat length.toNat values = .ok m

/-! ## Decompose -/

/-- R114: which status a decode reports, each with exactly the condition that the order of the rule gives it; the expected
counter is the entry before the advance, and the table is advanced on `WrongMessageCount` too. -/
def Obligations.DecodeStatusPriority : Prop :=
  ∀ (P : Params) (words : List Word) (s : State), words.length ≤ 7 →
    ∃ t st, decodeWords P words s = .ok (t, st) ∧
      (st = .timeout ↔ words.length = 0) ∧
      (st = .shortMessage ↔ 0 < words.length ∧ words.length < 4) ∧
      (4 ≤ words.length →
        let crcOk := P.crc words.dropLast = words.getLastD 0
        let ra := headerAddr (words.getD 0 0)
        let cntOk := headerCounter (words.getD 0 0) = ctRead ra s
        let noAccess := words.getD 1 0 = P.errorRegAddr
        let isResponse := headerCommand (words.getD 0 0) = .response
        (st = .wrongCrc ↔ ¬crcOk) ∧
        (st = .wrongMessageCount ↔ crcOk ∧ ¬cntOk) ∧
        (st = .noAccess ↔ crcOk ∧ cntOk ∧ noAccess) ∧
        (st = .noResponse ↔ crcOk ∧ cntOk ∧ ¬noAccess ∧ ¬isResponse) ∧
        (st = .ok ↔ crcOk ∧ cntOk ∧ ¬noAccess ∧ isResponse) ∧
        (st = .wrongMessageCount → ctRead ra t = ctRead ra s + 1))

/-- R115: every framed decode fills every field whatever its status, extracts `min(dl + 1, L - 3)` payload words and zeros the
other slots; and a frame whose decode is not `Ok` adds no item to a read. -/
def Obligations.FieldExtraction : Prop :=
  (∀ (P : Params) (words : List Word) (s t : State) (st : Status),
    4 ≤ words.length → decodeWords P words s = .ok (t, st) →
    t.d.cmd = headerCommand (words.getD 0 0) ∧ t.d.madd = headerMaster (words.getD 0 0) ∧
      t.d.ra = headerAddr (words.getD 0 0) ∧ t.d.cnt = headerCounter (words.getD 0 0) ∧
      t.d.dl = headerDataLength (words.getD 0 0) ∧ t.d.reg = words.getD 1 0 ∧
      t.d.n.val = min ((headerDataLength (words.getD 0 0)).toNat + 1) (words.length - 3) ∧
      ∀ i < 4, (quadWords t.d.payload)[i]? = some (if i < t.d.n.val then words.getD (i + 2) 0 else 0)) ∧
  ∀ (P : Params) (s t : State) (st : Status),
    decodeWords P (frameWords s) s = .ok (t, st) → st ≠ .ok → (frameStep P s).rd.acc = s.rd.acc

/-- What a decode writes: a framed one the decoder registers and one advance of the entry of the address it decoded, whatever
its status (with `ADVANCE_ON_WRONG_CRC = true`, the spec's value); a shorter one only the decoder registers, which hold free
values after it. Nothing else changes. -/
def Obligations.DecodeSideEffect : Prop :=
  ∀ (P : Params) (words : List Word) (s t : State) (st : Status), decodeWords P words s = .ok (t, st) →
    (4 ≤ words.length →
      t = { s with d := t.d, ct := t.ct } ∧ ctRead t.d.ra t = ctRead t.d.ra s + 1 ∧
        ∀ a, a ≠ t.d.ra → ctRead a t = ctRead a s) ∧
    (words.length < 4 → t = { s with d := Config.freeDecoded s.draws, draws := s.draws + 1 })

/-- R117: a decode of more than 7 words is the fault `ProgrammingError`, and no answer frame is that long. -/
def Obligations.OverlongMessageFaults : Prop :=
  (∀ (P : Params) (words : List Word) (s : State), 7 < words.length →
    decodeWords P words s = .error .programmingError) ∧
  (∀ (words : List Word) (s : State), 7 < words.length → s.origin = .harness →
    exec (.decompose words) s = .next { s with fault := some .programmingError }) ∧
  ∀ s : State, s.rd.ipf ≤ 4 → (frameWords s).length ≤ 7

/-- R118: decoding a composed message gives back what was composed, with the status the rule names. -/
def Obligations.CodecRoundTrip : Prop :=
  ∀ (P : Params) (s : State) (cmd : Command) (madd : BitVec 1) (ra : Addr) (reg : Word) (length : BitVec 2)
    (values : Quad),
    ∃ m t st,
      compose P cmd.code.toNat madd.toNat ra.toNat reg.toNat length.toNat values = .ok m ∧
      decodeWords P m s = .ok (t, st) ∧
      t.d.cmd = cmd ∧ t.d.madd = madd ∧ t.d.ra = ra ∧ t.d.cnt = 0 ∧ t.d.dl = length ∧ t.d.reg = reg ∧
      t.d.n.val = length.toNat + 1 ∧
      (∀ i ≤ length.toNat, (quadWords t.d.payload)[i]? = (quadWords values)[i]?) ∧
      checksumOk P m = true ∧
      st = if ctRead ra s ≠ 0 then .wrongMessageCount
        else if reg = P.errorRegAddr then .noAccess
        else if cmd ≠ .response then .noResponse
        else .ok

/-- `DECOMPOSE` for a test harness, `L ≤ 7`: it completes with the status of the decode, and with the fields if the decode was
framed; it writes the result, the decoder registers and at most one counter entry. -/
def Obligations.DecomposeCompletes : Prop :=
  ∀ (s : State) (words : List Word), s.origin = .harness → words.length ≤ 7 →
    ∃ t u st, decodeWords Config.params words s = .ok (t, st) ∧
      exec (.decompose words) s = .next u ∧
      u.response = some (.decoded (if words.length < 4 then none else some t.d) st) ∧
      u = { s with
        ct := t.ct, d := t.d, draws := t.draws, opState := .ready, response := u.response
        history := .result (.decoded (if words.length < 4 then none else some t.d) st) :: s.history }

/-- The four received message commands (run by a test harness, the model's choice, entry 10): a message of 4 to 7 words
completes with the decode of its words: the fields it carries, its `min(dl + 1, L - 3)` payload words with the other slots 0,
one counter advance, and the first status that applies in the order of R114, so that only a RESPONSE reports `Ok`. A shorter
message reports `ShortMessage` (its decoder registers are free values, entry 7), a longer one is the fault
`ProgrammingError`. -/
def Obligations.ReceivedMessages : Prop :=
  ∀ p ∈ messageRows, ∀ (s : State) (madd : BitVec 1) (ra : Addr) (cnt : Counter) (dl : BitVec 2) (body : List Word),
    s.origin = .harness →
    (3 ≤ body.length → body.length ≤ 6 →
      ∃ t u st, decodeWords Config.params (pack p.1 madd ra cnt dl :: body) s = .ok (t, st) ∧
        exec (p.2 madd ra cnt dl body) s = .next u ∧
        u = { s with
          d := t.d, ct := t.ct, opState := .ready, response := some (.decoded (some t.d) st)
          history := .result (.decoded (some t.d) st) :: s.history } ∧
        u.d.cmd = p.1 ∧ u.d.madd = madd ∧ u.d.ra = ra ∧ u.d.cnt = cnt ∧ u.d.dl = dl ∧ u.d.reg = body.getD 0 0 ∧
        u.d.n.val = min (dl.toNat + 1) (body.length - 2) ∧
        (∀ i < 4, (quadWords u.d.payload)[i]? = some (if i < u.d.n.val then body.getD (i + 1) 0 else 0)) ∧
        ctRead ra u = ctRead ra s + 1 ∧ (∀ a, a ≠ ra → ctRead a u = ctRead a s) ∧
        (st = .ok → p.1 = .response) ∧
        st = if Config.params.crc (pack p.1 madd ra cnt dl :: body).dropLast ≠ body.getLastD 0 then .wrongCrc
          else if cnt ≠ ctRead ra s then .wrongMessageCount
          else if body.getD 0 0 = Config.params.errorRegAddr then .noAccess
          else if p.1 ≠ .response then .noResponse
          else .ok) ∧
    (body.length < 3 →
      exec (p.2 madd ra cnt dl body) s = .next { s with
        d := Config.freeDecoded s.draws, draws := s.draws + 1, opState := .ready
        response := some (.decoded none .shortMessage)
        history := .result (.decoded none .shortMessage) :: s.history }) ∧
    (6 < body.length → exec (p.2 madd ra cnt dl body) s = .next { s with fault := some .programmingError })

/-! ## Counter table -/

/-- `CTR_EXPECTED` and `CTR_ADVANCE` for a test harness, `CTR_RESET` for the instance's own string by any requester: the entry is
read, goes up by one modulo 16, becomes 0; no other entry changes, and nothing else but the result, transfers in flight
included. -/
def Obligations.CounterOperations : Prop :=
  (∀ (s : State) (ra : Addr), s.origin = .harness →
    exec (.ctrExpected ra) s = .next { s with
      opState := .ready, response := some (.counter (ctRead ra s))
      history := .result (.counter (ctRead ra s)) :: s.history }) ∧
  (∀ (s : State) (ra : Addr), s.origin = .harness →
    ∃ t, exec (.ctrAdvance ra) s = .next t ∧
      t = { s with ct := t.ct, opState := .ready, response := some .done, history := .result .done :: s.history } ∧
      (ctRead ra t).toNat = ((ctRead ra s).toNat + 1) % 16 ∧ ∀ a, a ≠ ra → ctRead a t = ctRead a s) ∧
  ∀ (s : State) (ra : Addr) (stringId : Word), stringId.toNat = s.string →
    ∃ t, exec (.ctrReset ra stringId) s = .next t ∧
      t = { s with ct := t.ct, opState := .ready, response := some .done, history := .result .done :: s.history } ∧
      ctRead ra t = 0 ∧ ∀ a, a ≠ ra → ctRead a t = ctRead a s

/-- After any sequence of decodes an entry has gone up by the number of framed decodes keyed on it, modulo 16, whatever
their checksums, counters and statuses; decodes with `L < 4` do not count. -/
def Obligations.CounterMonotonicity : Prop :=
  ∀ (P : Params) (messages : List (List Word)) (s : State) (a : Addr),
    (ctRead a (decodeAll P messages s)).toNat =
      ((ctRead a s).toNat +
        (messages.filter fun m =>
          decide (4 ≤ m.length) && decide (m.length ≤ 7) && headerAddr (m.getD 0 0) == a).length) % 16

/-- The counter table is written by advance and reset only: a step moves an entry up by one, or to 0, or not at all. -/
def Obligations.CounterTableWriters : Prop :=
  ∀ (s s' : State) (a : Addr), step s = .next s' →
    ctRead a s' = ctRead a s ∨ ctRead a s' = ctRead a s + 1 ∨ ctRead a s' = 0

/-! ## Transfer gate -/

/-- `WRITE` on an idle bus: it is accepted, claims the bus and stages its four words before the transfer start; a busy bus is
the fault `BusBusy`, with nothing claimed or staged. -/
def Obligations.WriteClaimsTheBus : Prop :=
  ∀ (s : State) (ra : Addr) (reg value : Word),
    (s.busy = .idle →
      exec (.write ra reg value) s = .next { s with
        busy := .busy, txBuf := writeMessage Config.params ra reg value
        opState := .running (.write ra reg value) (.start .tx 0) }) ∧
    (s.busy = .busy →
      exec (.write ra reg value) s = .next { s with
        opState := .running (.write ra reg value) .entry, fault := some .busBusy })

/-- R142: the transfer start. Answered `accepted`, whatever is in flight already, it adds the record and begins the wait;
answered `busy`, it is the fault `TransferRejected`. -/
def Obligations.TransferStart : Prop :=
  ∀ (s : State) (op : Instr) (c : Channel) (n : Nat) (rest : List Move),
    s.fault = none → s.opState = .running op (.start c n) →
    (s.moves = .answer .accepted :: rest →
      ∃ t, step s = .next { s with
          inflight := ⟨c, n⟩ :: s.inflight, opState := .waiting op c, moves := rest
          history := .transfer c s.txBuf n t :: s.history } ∧
        t = match c with | .tx => Config.params.txTimeout | .rx => Config.params.rxTimeout) ∧
    (s.moves = .answer .busy :: rest → step s = .next { s with fault := some .transferRejected, moves := rest })

/-- The wait. A pending notification ends it and is consumed, even when a timeout is delivered; without one a timeout ends it
and releases the bus, and the record stays in flight; without either the state holds. -/
def Obligations.WaitEnds : Prop :=
  ∀ (s : State) (op : Instr), s.fault = none →
    (s.opState = .waiting op .tx → ∀ r, s.noteTx = some r → (s.moves = [] ∨ ∃ c rest, s.moves = .timeout c :: rest) →
      step s = .next { s with noteTx := none, opState := .running op .written }) ∧
    (s.opState = .waiting op .rx → ∀ r, s.noteRx = some r → (s.moves = [] ∨ ∃ c rest, s.moves = .timeout c :: rest) →
      step s = .next { s with
        noteRx := none, opState := .running op .frames
        rd := { s.rd with received := r, k := 0, remaining := s.rd.itemCount, acc := [], st := .ok } }) ∧
    (s.opState = .waiting op .tx → s.noteTx = none → ∀ rest, s.moves = .timeout .tx :: rest →
      step s = .next { s with
        busy := .idle, opState := .running op .written, moves := rest
        history := .timedOut .tx Config.params.txTimeout :: s.history }) ∧
    (s.opState = .waiting op .rx → s.noteRx = none → ∀ rest, s.moves = .timeout .rx :: rest →
      step s = .next { s with
        busy := .idle, opState := .running op .frames, moves := rest, rd := { s.rd with acc := [], st := .timeout }
        history := .timedOut .rx Config.params.rxTimeout :: s.history }) ∧
    (∀ c, s.opState = .waiting op c → noteRead c s = none → s.moves = [] → step s = .next s)

/-- R146: the completion agent's step, for every record in flight, every word count up to `n_rx` and every received words, at
any point of the engine's work. -/
def Obligations.CompletionStep : Prop :=
  ∀ (s : State) (c : Channel) (n : Nat) (received : List Word) (rest : List Move),
    s.fault = none → s.moves = .complete ⟨c, n⟩ received :: rest → ⟨c, n⟩ ∈ s.inflight → received.length ≤ n →
    (c = .tx → received = []) →
    ∃ t, step s = .next t ∧
      t = { s with
        inflight := t.inflight, busy := .idle, noteTx := t.noteTx, noteRx := t.noteRx, rxBuf := t.rxBuf, moves := rest
        history := .notification c received.length :: s.history } ∧
      (⟨c, n⟩ :: t.inflight).Perm s.inflight ∧
      noteRead c t = some received.length ∧ (∀ c', c' ≠ c → noteRead c' t = noteRead c' s) ∧
      ∀ i, rxRead i t = if i < received.length then received.getD i 0 else rxRead i s

/-- R149: no step removes a record from `inflight` but the completion agent's step for that very record (and a reset, R220). -/
def Obligations.RecordsLeaveOnlyByCompletion : Prop :=
  ∀ (s s' : State) (t : Transfer), step s = .next s' → s'.inflight.count t < s.inflight.count t →
    (∃ received rest, s.moves = .complete t received :: rest) ∨ ∃ rest, s.moves = .reset :: rest

/-- R150: a `WRITE` taken from the port returns `done` and is Ready with the bus idle both when its transfer completes and
when it times out; only the record left in flight and the event history tell the two apart. The number of steps is the model's
cut of the operation (entry 4). -/
def Obligations.WriteReturnsOnBothPaths : Prop :=
  ∀ (s : State) (o : Origin) (ra : Addr) (reg value : Word),
    s.fault = none → s.opState = .ready → s.busy = .idle → s.port = some ⟨.req, o, encode (.write ra reg value)⟩ →
    (s.moves = [.answer .accepted, .complete ⟨.tx, 0⟩ []] →
      stepsTo 5 s { s with
        txBuf := writeMessage Config.params ra reg value, noteTx := none, port := none, origin := o, moves := []
        response := some .done
        history := .result .done :: .notification .tx 0 ::
          .transfer .tx (writeMessage Config.params ra reg value) 0 Config.params.txTimeout ::
          .request ⟨.req, o, encode (.write ra reg value)⟩ :: s.history }) ∧
    (s.noteTx = none → s.moves = [.answer .accepted, .timeout .tx] →
      stepsTo 4 s { s with
        txBuf := writeMessage Config.params ra reg value, port := none, origin := o, moves := []
        inflight := ⟨.tx, 0⟩ :: s.inflight, response := some .done
        history := .result .done :: .timedOut .tx Config.params.txTimeout ::
          .transfer .tx (writeMessage Config.params ra reg value) 0 Config.params.txTimeout ::
          .request ⟨.req, o, encode (.write ra reg value)⟩ :: s.history })

/-- The fault `BusBusy` is reached only with a transfer still in flight, given the invariant that a claimed bus is
accounted for. -/
def Obligations.BusBusyNeedsATransferInFlight : Prop :=
  ∀ s s' : State, busAccounted s = true → s.fault = none → step s = .next s' → s'.fault = some .busBusy →
    s.busy = .busy ∧ s.inflight ≠ []

/-! ## Bulk reads -/

/-- R161: the caps. Outside them `READ_MULTIPLE` is the fault `ProgrammingError`; inside them the staged words fit the receive
buffer and `itemCount - 1` fits 8 bits. -/
def Obligations.ReadCaps : Prop :=
  ∀ (s : State) (ra : Addr) (itemCount ipf reg : Word),
    (ipf.toNat < 1 ∨ 4 < ipf.toNat ∨ itemCount.toNat < 1 ∨
        Config.params.maxFrames < (itemCount.toNat + ipf.toNat - 1) / ipf.toNat →
      exec (.readMultiple ra itemCount ipf reg) s = .next { s with
        opState := .running (.readMultiple ra itemCount ipf reg) .entry, fault := some .programmingError }) ∧
    (1 ≤ ipf.toNat → ipf.toNat ≤ 4 → 1 ≤ itemCount.toNat →
        (itemCount.toNat + ipf.toNat - 1) / ipf.toNat ≤ Config.params.maxFrames →
      (∀ t, s.fault = none → exec (.readMultiple ra itemCount ipf reg) s = .next t → t.fault ≠ some .programmingError) ∧
        rxLength itemCount.toNat ipf.toNat ≤ rxBufWords Config.params ∧ itemCount.toNat - 1 ≤ 255)

/-- `READ_MULTIPLE` inside the caps and `READ`, on an idle bus: accepted, the operands and the frame count latched, the bus
claimed, the one request message staged with the receive words of the answer stream; on a busy bus the fault `BusBusy`. -/
def Obligations.ReadClaimsTheBus : Prop :=
  (∀ (s : State) (ra : Addr) (itemCount ipf reg : Word),
    1 ≤ ipf.toNat → ipf.toNat ≤ 4 → 1 ≤ itemCount.toNat →
    (itemCount.toNat + ipf.toNat - 1) / ipf.toNat ≤ Config.params.maxFrames →
    let fc := (itemCount.toNat + ipf.toNat - 1) / ipf.toNat
    let rd := { s.rd with ra := ra, itemCount := itemCount.toNat, ipf := ipf.toNat, reg := reg, fc := fc }
    (s.busy = .idle →
      exec (.readMultiple ra itemCount ipf reg) s = .next { s with
        rd := rd, busy := .busy, txBuf := readMessage Config.params ra itemCount.toNat ipf.toNat reg
        opState := .running (.readMultiple ra itemCount ipf reg) (.start .rx (4 + fc * (3 + ipf.toNat))) }) ∧
    (s.busy = .busy →
      exec (.readMultiple ra itemCount ipf reg) s = .next { s with
        rd := rd, opState := .running (.readMultiple ra itemCount ipf reg) .entry, fault := some .busBusy })) ∧
  ∀ (s : State) (ra : Addr) (reg : Word),
    let rd := { s.rd with ra := ra, itemCount := 1, ipf := 1, reg := reg, fc := 1 }
    (s.busy = .idle →
      exec (.read ra reg) s = .next { s with
        rd := rd, busy := .busy, txBuf := readMessage Config.params ra 1 1 reg
        opState := .running (.read ra reg) (.start .rx 8) }) ∧
    (s.busy = .busy →
      exec (.read ra reg) s = .next { s with
        rd := rd, opState := .running (.read ra reg) .entry, fault := some .busBusy })

/-- R162: the request message of a bulk read, with its parameter word as a number. -/
def Obligations.ReadRequestMessage : Prop :=
  ∀ (s t : State) (ra : Addr) (itemCount ipf reg : Word),
    1 ≤ ipf.toNat → ipf.toNat ≤ 4 → 1 ≤ itemCount.toNat →
    (itemCount.toNat + ipf.toNat - 1) / ipf.toNat ≤ Config.params.maxFrames →
    s.busy = .idle → exec (.readMultiple ra itemCount ipf reg) s = .next t →
    compose Config.params Command.read.code.toNat 0 ra.toNat reg.toNat 0
        ⟨paramWord ipf.toNat itemCount.toNat, 0, 0, 0⟩ = .ok (quadWords t.txBuf) ∧
      t.txBuf.w0 = pack .read 0 ra 0 0 ∧ t.txBuf.w1 = reg ∧
      t.txBuf.w2.toNat = 0x8000 + (ipf.toNat - 1) * 0x1000 + (itemCount.toNat - 1) ∧
      t.txBuf.w3 = Config.params.crc [t.txBuf.w0, t.txBuf.w1, t.txBuf.w2]

/-- R165: the length a frame is decoded with, and what a missing or short frame reports: nothing is copied and no counter
moves. A longer one is decoded at that length: its checksum is its last word. -/
def Obligations.FrameLength : Prop :=
  ∀ (P : Params) (s : State),
    (frameWords s).length = min (3 + s.rd.ipf) (s.rd.received - (4 + s.rd.k * (3 + s.rd.ipf))) ∧
    (∀ i, (frameWords s)[i]? =
      if i < (frameWords s).length then some (rxRead (4 + s.rd.k * (3 + s.rd.ipf) + i) s) else none) ∧
    (1 ≤ s.rd.ipf → 4 + (s.rd.k + 1) * (3 + s.rd.ipf) ≤ s.rd.received →
      (frameWords s).length = 3 + s.rd.ipf ∧ 4 ≤ (frameWords s).length) ∧
    ((frameWords s).length = 0 →
      frameStep P s = { s with
        d := Config.freeDecoded s.draws, draws := s.draws + 1, rd := { s.rd with st := .timeout } }) ∧
    (0 < (frameWords s).length → (frameWords s).length < 4 →
      frameStep P s = { s with
        d := Config.freeDecoded s.draws, draws := s.draws + 1, rd := { s.rd with st := .shortMessage } }) ∧
    (4 ≤ (frameWords s).length → (frameWords s).length ≤ 7 →
      P.crc ((frameWords s).take ((frameWords s).length - 1)) ≠ (frameWords s).getD ((frameWords s).length - 1) 0 →
      (frameStep P s).rd = { s.rd with st := .wrongCrc })

/-- R169: the outcomes within a frame, in their order, and the short circuit: after the first failing frame the read returns
the items of the frames before it, and no further frame is decoded. That a frame and the return are one step each is the
model's cut of the operation (entry 4). -/
def Obligations.FrameOutcomeOrder : Prop :=
  ∀ (s t : State) (sd : Status) (op : Instr),
    s.fault = none → s.moves = [] → s.opState = .running op .frames →
    s.rd.st = .ok → s.rd.k < s.rd.fc → decodeWords Config.params (frameWords s) s = .ok (t, sd) →
    let st : Status :=
      if sd ≠ .ok then sd
      else if t.d.ra ≠ s.rd.ra then .notMatchingDeviceAddress
      else if t.d.reg ≠ s.rd.reg + BitVec.ofNat 16 (s.rd.k * s.rd.ipf) then .notMatchingRegisterAddress
      else .ok
    (st ≠ .ok →
      step s = .next { t with rd := { s.rd with st := st } } ∧
      ∀ ra itemCount ipf reg, op = .readMultiple ra itemCount ipf reg →
        stepsTo 2 s { t with
          opState := .ready, response := some (.values s.rd.acc st), history := .result (.values s.rd.acc st) :: s.history
          rd := Config.freeReadRegs t.draws, draws := t.draws + 1 }) ∧
    (st ≠ .ok → ∀ ra reg, op = .read ra reg → ∃ v, stepsTo 2 s { t with
      opState := .ready, response := some (.value v st), history := .result (.value v st) :: s.history
      rd := Config.freeReadRegs t.draws, draws := t.draws + 1 }) ∧
    (st = .ok → ∃ u, step s = .next u ∧ u = { t with rd := u.rd } ∧ u.rd.st = .ok ∧ u.rd.k = s.rd.k + 1)

/-- A frame that passes every check gives up to `ipf` of the outstanding items, never more; a missing data word is copied as
0; the other registers of the read stay. -/
def Obligations.FrameItemsCopied : Prop :=
  ∀ (P : Params) (s : State) (words : List Word),
    frameWords s = words → 4 ≤ words.length → words.length ≤ 7 → s.rd.ipf ≤ 4 →
    framedStatus P (checksumOk P words) (ctRead (headerAddr (words.getD 0 0)) s) (fieldsOf words) = .ok →
    headerAddr (words.getD 0 0) = s.rd.ra →
    words.getD 1 0 = s.rd.reg + BitVec.ofNat 16 (s.rd.k * s.rd.ipf) →
    ∃ items : List Word, items.length = min s.rd.ipf s.rd.remaining ∧
      (∀ i < items.length, items[i]? = some
        (if i < min ((headerDataLength (words.getD 0 0)).toNat + 1) (words.length - 3) then words.getD (i + 2) 0 else 0)) ∧
      (frameStep P s).rd = { s.rd with
        acc := s.rd.acc ++ items, remaining := s.rd.remaining - items.length, k := s.rd.k + 1 }

/-- R170: a bulk read whose wait times out returns no items and `Timeout`; it decodes no frame, moves no counter, and the bus
is idle. The number of steps is the model's cut of the operation (entry 4). -/
def Obligations.ReceiveTimeout : Prop :=
  ∀ (s : State) (ra : Addr) (itemCount ipf reg : Word),
    s.fault = none → s.opState = .waiting (.readMultiple ra itemCount ipf reg) .rx → s.noteRx = none →
    s.moves = [.timeout .rx] →
    stepsTo 2 s { s with
      busy := .idle, moves := [], opState := .ready, response := some (.values [] .timeout)
      history := .result (.values [] .timeout) :: .timedOut .rx Config.params.rxTimeout :: s.history
      rd := Config.freeReadRegs s.draws, draws := s.draws + 1 }

/-- R172: a `READ_MULTIPLE` from the port to the response, for every item count up to 40 and every items per frame, in any
valid configuration: when the whole stream arrives and every frame passes, it returns exactly the requested items, which are
the data words of the stream without its last `fc × ipf - itemCount`, and it advances the requested device's counter by the
number of frames (R173). The number of steps, `fc + 5`, is the model's cut of the operation (entry 4). -/
def Obligations.ReassemblyCompleteness : Prop :=
  ∀ (s : State) (o : Origin) (ra : Addr) (itemCount ipf reg : Word) (received : List Word),
    let fc := (itemCount.toNat + ipf.toNat - 1) / ipf.toNat
    1 ≤ itemCount.toNat → itemCount.toNat ≤ 40 → 1 ≤ ipf.toNat → ipf.toNat ≤ 4 →
    s.fault = none → s.opState = .ready → s.busy = .idle →
    s.port = some ⟨.req, o, encode (.readMultiple ra itemCount ipf reg)⟩ →
    received.length = 4 + fc * (3 + ipf.toNat) →
    s.moves = [.answer .accepted, .complete ⟨.rx, received.length⟩ received] →
    (∀ k < fc, frameGood Config.params received ra reg ipf.toNat (ctRead ra s) k) →
    ∃ u items, stepsTo (fc + 5) s u ∧ u.response = some (.values items .ok) ∧
      items.length = itemCount.toNat ∧ items <+: streamItems received ipf.toNat fc ∧
      (streamItems received ipf.toNat fc).length - items.length = fc * ipf.toNat - itemCount.toNat ∧
      ctRead ra u = ctRead ra s + BitVec.ofNat 4 fc ∧ (∀ a, a ≠ ra → ctRead a u = ctRead a s) ∧
      u.busy = .idle ∧ u.noteRx = none ∧
      u = { s with
        ct := u.ct, noteRx := none, txBuf := u.txBuf, rxBuf := u.rxBuf, rd := u.rd, d := u.d, port := none
        response := u.response, history := u.history, origin := o, moves := [], draws := u.draws }

/-- `READ` from the port to the response: with its whole answer and a good frame it returns the one item and `Ok`; when the
wait times out it returns `Timeout`, and a free value that no rule constrains (entry 7). The number of steps is the model's cut
of the operation (entry 4). -/
def Obligations.ReadReturns : Prop :=
  ∀ (s : State) (o : Origin) (ra : Addr) (reg : Word),
    s.fault = none → s.opState = .ready → s.busy = .idle → s.port = some ⟨.req, o, encode (.read ra reg)⟩ →
    (∀ received : List Word, received.length = 8 → s.moves = [.answer .accepted, .complete ⟨.rx, 8⟩ received] →
      frameGood Config.params received ra reg 1 (ctRead ra s) 0 →
      ∃ u, stepsTo 6 s u ∧ u.response = some (.value (received.getD 6 0) .ok) ∧ u.opState = .ready ∧ u.busy = .idle ∧
        u.fault = none ∧ ctRead ra u = ctRead ra s + 1 ∧ ∀ a, a ≠ ra → ctRead a u = ctRead a s) ∧
    (s.noteRx = none → s.moves = [.answer .accepted, .timeout .rx] →
      ∃ u v, stepsTo 4 s u ∧ u.response = some (.value v .timeout) ∧ u.opState = .ready ∧ u.busy = .idle ∧
        u.fault = none ∧ u.ct = s.ct ∧ u.inflight = ⟨.rx, 8⟩ :: s.inflight)

/-! ## Enumeration -/

/-- The directed address of a chain position: in a valid configuration it is `0x40 + p + CHAIN_BASE`, a directed address of a
device from 1 to 63, and no two positions share it. -/
def Obligations.PositionAddress : Prop :=
  ∀ (P : Params) (p q : Nat), P.valid = true → 1 ≤ p → p ≤ P.deviceCount → 1 ≤ q → q ≤ P.deviceCount →
    (positionAddr P p).toNat = 64 + p + P.chainBase ∧ 1 ≤ p + P.chainBase ∧ p + P.chainBase ≤ 63 ∧
      (positionAddr P p = positionAddr P q → p = q)

/-- R182: the `Sleep` phase from its start to `Probe1`: the directed write, whose outcome is not observed, and the settle
delay. The write ends by its completion, by a timeout, or at once by a stale notification, which leaves its transfer in flight
and the bus claimed (R228); on a busy bus the phase is the fault `BusBusy`, with nothing claimed or staged (R141). The number
of steps is the model's cut of the phase (entry 4). -/
def Obligations.SleepPhase : Prop :=
  ∀ s : State, s.fault = none → s.phase = .sleep →
    let m := writeMessage Config.params (positionAddr Config.params s.pos) Config.params.regSysMode Config.params.sleepValue
    (s.opState = .running .enumerate .phase → s.busy = .idle →
      (s.moves = [.answer .accepted, .complete ⟨.tx, 0⟩ []] →
        stepsTo 6 s { s with
          phase := .probe1, txBuf := m, noteTx := none, moves := []
          history := .delay .sleepSettle Config.params.sleepSettle :: .notification .tx 0 ::
            .transfer .tx m 0 Config.params.txTimeout :: s.history }) ∧
      (s.noteTx = none → s.moves = [.answer .accepted, .timeout .tx] →
        stepsTo 5 s { s with
          phase := .probe1, txBuf := m, inflight := ⟨.tx, 0⟩ :: s.inflight, moves := []
          history := .delay .sleepSettle Config.params.sleepSettle :: .timedOut .tx Config.params.txTimeout ::
            .transfer .tx m 0 Config.params.txTimeout :: s.history }) ∧
      (∀ r, s.noteTx = some r → s.moves = [.answer .accepted] →
        stepsTo 5 s { s with
          phase := .probe1, busy := .busy, txBuf := m, noteTx := none, inflight := ⟨.tx, 0⟩ :: s.inflight, moves := []
          history := .delay .sleepSettle Config.params.sleepSettle ::
            .transfer .tx m 0 Config.params.txTimeout :: s.history })) ∧
    (s.opState = .running .enumerate .phase → s.busy = .busy → s.moves = [] →
      step s = .next { s with fault := some .busBusy }) ∧
    (s.opState = .running .enumerate .written → s.moves = [] →
      step s = .next { s with opState := .running .enumerate .settle }) ∧
    (s.opState = .running .enumerate .settle → s.moves = [] →
      step s = .next { s with
        phase := .probe1, opState := .running .enumerate .phase
        history := .delay .sleepSettle Config.params.sleepSettle :: s.history })

/-- R183 and R184: the two probes and the wake delay. Each probe reads the status register; `Ok` resets the counter entry,
marks the position and goes on to `Config`; anything else goes on to `Wake`, and the second time to `Assign`. A probe that
finds the bus busy is the fault `BusBusy`, with nothing claimed or staged (R141); its operands are latched by then (entry 4). -/
def Obligations.ProbePhases : Prop :=
  ∀ s : State, s.fault = none → s.moves = [] →
    let ra := positionAddr Config.params s.pos
    let rd := { s.rd with ra := ra, itemCount := 1, ipf := 1, reg := Config.params.regStatus, fc := 1 }
    (s.phase = .probe1 ∨ s.phase = .probe2 → s.opState = .running .enumerate .phase → s.busy = .idle →
      step s = .next { s with
        busy := .busy, txBuf := readMessage Config.params ra 1 1 Config.params.regStatus
        opState := .running .enumerate (.start .rx 8), rd := rd }) ∧
    (s.phase = .probe1 ∨ s.phase = .probe2 → s.opState = .running .enumerate .phase → s.busy = .busy →
      step s = .next { s with rd := rd, fault := some .busBusy }) ∧
    (s.phase = .probe1 ∨ s.phase = .probe2 → s.opState = .running .enumerate .frames → walkOver s.rd = true →
      s.rd.st = .ok →
      ∃ t, step s = .next t ∧
        t = { s with
          ct := t.ct, addressed := t.addressed, phase := .config, opState := .running .enumerate .phase
          rd := Config.freeReadRegs s.draws, draws := s.draws + 1 } ∧
        ctRead ra t = 0 ∧ (∀ a, a ≠ ra → ctRead a t = ctRead a s) ∧
        addressedRead s.pos t = true ∧ ∀ p, p ≠ s.pos → addressedRead p t = addressedRead p s) ∧
    (s.phase = .probe1 ∨ s.phase = .probe2 → s.opState = .running .enumerate .frames → s.rd.st ≠ .ok →
      step s = .next { s with
        phase := if s.phase = .probe1 then .wake else .assign, opState := .running .enumerate .phase
        rd := Config.freeReadRegs s.draws, draws := s.draws + 1 }) ∧
    (s.phase = .wake → s.opState = .running .enumerate .phase →
      step s = .next { s with
        phase := .probe2, history := .delay .wakeSettle Config.params.wakeSettle :: s.history })

/-- R185: the `Assign` phase from its start to `Verify`: the broadcast write of the position's address, whose outcome is not
observed, and the reset of the directed counter entry. The write ends by its completion, by a timeout, or at once by a stale
notification, which leaves its transfer in flight and the bus claimed (R228); on a busy bus the phase is the fault `BusBusy`,
with nothing claimed or staged (R141). The number of steps is the model's cut of the phase (entry 4). -/
def Obligations.AssignPhase : Prop :=
  ∀ s : State, s.fault = none → s.phase = .assign →
    let ra := positionAddr Config.params s.pos
    let value := BitVec.ofNat 16 (s.pos + Config.params.chainBase)
    let m := writeMessage Config.params 0 Config.params.regDevAddr value
    (s.opState = .running .enumerate .phase → s.busy = .idle →
      (s.moves = [.answer .accepted, .complete ⟨.tx, 0⟩ []] →
        ∃ t, stepsTo 5 s t ∧
          t = { s with
            ct := t.ct, phase := .verify, txBuf := m, noteTx := none, moves := []
            history := .notification .tx 0 :: .transfer .tx m 0 Config.params.txTimeout :: s.history } ∧
          ctRead ra t = 0 ∧ ∀ a, a ≠ ra → ctRead a t = ctRead a s) ∧
      (s.noteTx = none → s.moves = [.answer .accepted, .timeout .tx] →
        ∃ t, stepsTo 4 s t ∧
          t = { s with
            ct := t.ct, phase := .verify, txBuf := m, inflight := ⟨.tx, 0⟩ :: s.inflight, moves := []
            history := .timedOut .tx Config.params.txTimeout ::
              .transfer .tx m 0 Config.params.txTimeout :: s.history } ∧
          ctRead ra t = 0 ∧ ∀ a, a ≠ ra → ctRead a t = ctRead a s) ∧
      (∀ r, s.noteTx = some r → s.moves = [.answer .accepted] →
        ∃ t, stepsTo 4 s t ∧
          t = { s with
            ct := t.ct, phase := .verify, busy := .busy, txBuf := m, noteTx := none
            inflight := ⟨.tx, 0⟩ :: s.inflight, moves := []
            history := .transfer .tx m 0 Config.params.txTimeout :: s.history } ∧
          ctRead ra t = 0 ∧ ∀ a, a ≠ ra → ctRead a t = ctRead a s)) ∧
    (s.opState = .running .enumerate .phase → s.busy = .busy → s.moves = [] →
      step s = .next { s with fault := some .busBusy }) ∧
    (s.opState = .running .enumerate .written → s.moves = [] →
      ∃ t, step s = .next t ∧
        t = { s with ct := t.ct, phase := .verify, opState := .running .enumerate .phase } ∧
        ctRead ra t = 0 ∧ ∀ a, a ≠ ra → ctRead a t = ctRead a s)

/-- R186: the `Verify` phase: the version register is read; the position is addressed exactly if that read returns `Ok`, and
the walk goes on to `Config` either way. On a busy bus the phase is the fault `BusBusy`, with nothing claimed or staged (R141);
its operands are latched by then (entry 4). -/
def Obligations.VerifyPhase : Prop :=
  ∀ s : State, s.fault = none → s.moves = [] → s.phase = .verify →
    let ra := positionAddr Config.params s.pos
    let rd := { s.rd with ra := ra, itemCount := 1, ipf := 1, reg := Config.params.regVersion, fc := 1 }
    (s.opState = .running .enumerate .phase → s.busy = .idle →
      step s = .next { s with
        busy := .busy, txBuf := readMessage Config.params ra 1 1 Config.params.regVersion
        opState := .running .enumerate (.start .rx 8), rd := rd }) ∧
    (s.opState = .running .enumerate .phase → s.busy = .busy →
      step s = .next { s with rd := rd, fault := some .busBusy }) ∧
    (s.opState = .running .enumerate .frames → walkOver s.rd = true →
      ∃ t, step s = .next t ∧
        t = { s with
          addressed := t.addressed, phase := .config, opState := .running .enumerate .phase
          rd := Config.freeReadRegs s.draws, draws := s.draws + 1 } ∧
        (addressedRead s.pos t = true ↔ s.rd.st = .ok) ∧ ∀ p, p ≠ s.pos → addressedRead p t = addressedRead p s)

/-- R187: the `Config` phase, whose write's outcome is not observed, and the `Uid` phase: the identifier read, what it stores
whatever its status, and the next position or the end of the walk. `addressed` is not changed. The write ends by its
completion, by a timeout, or at once by a stale notification, which leaves its transfer in flight and the bus claimed (R228);
on a busy bus either phase is the fault `BusBusy`, with nothing claimed or staged (R141). The number of steps and the operands
latched before the claim are the model's cut of the phases (entry 4). That the identifier read passes its caps rests on
`UID_WORDS ≥ 1`, which the model deduces (entry 11). -/
def Obligations.ConfigAndUidPhases : Prop :=
  ∀ s : State, s.fault = none →
    let P := Config.params
    let ra := positionAddr P s.pos
    let m := writeMessage P ra P.regComTimeout P.comTimeoutValue
    let fc := ceilDiv P.uidWords P.uidIpf
    let rd := { s.rd with ra := ra, itemCount := P.uidWords, ipf := P.uidIpf, reg := P.regUid, fc := fc }
    (s.phase = .config → s.opState = .running .enumerate .phase → s.busy = .idle →
      (s.moves = [.answer .accepted, .complete ⟨.tx, 0⟩ []] →
        stepsTo 5 s { s with
          phase := .uid, txBuf := m, noteTx := none, moves := []
          history := .notification .tx 0 :: .transfer .tx m 0 P.txTimeout :: s.history }) ∧
      (s.noteTx = none → s.moves = [.answer .accepted, .timeout .tx] →
        stepsTo 4 s { s with
          phase := .uid, txBuf := m, inflight := ⟨.tx, 0⟩ :: s.inflight, moves := []
          history := .timedOut .tx P.txTimeout :: .transfer .tx m 0 P.txTimeout :: s.history }) ∧
      (∀ r, s.noteTx = some r → s.moves = [.answer .accepted] →
        stepsTo 4 s { s with
          phase := .uid, busy := .busy, txBuf := m, noteTx := none, inflight := ⟨.tx, 0⟩ :: s.inflight, moves := []
          history := .transfer .tx m 0 P.txTimeout :: s.history })) ∧
    (s.phase = .config → s.opState = .running .enumerate .phase → s.busy = .busy → s.moves = [] →
      step s = .next { s with fault := some .busBusy }) ∧
    (s.phase = .config → s.opState = .running .enumerate .written → s.moves = [] →
      step s = .next { s with phase := .uid, opState := .running .enumerate .phase }) ∧
    (s.phase = .uid → s.opState = .running .enumerate .phase → s.busy = .idle → s.moves = [] →
      step s = .next { s with
        busy := .busy, txBuf := readMessage P ra P.uidWords P.uidIpf P.regUid
        opState := .running .enumerate (.start .rx (4 + fc * (3 + P.uidIpf))), rd := rd }) ∧
    (s.phase = .uid → s.opState = .running .enumerate .phase → s.busy = .busy → s.moves = [] →
      step s = .next { s with rd := rd, fault := some .busBusy }) ∧
    (s.phase = .uid → s.opState = .running .enumerate .frames → walkOver s.rd = true → s.moves = [] →
      s.rd.acc.length ≤ 256 →
      ∃ t, step s = .next t ∧
        t = { s with
          uid := t.uid, uidCount := t.uidCount, pos := t.pos, phase := t.phase, opState := .running .enumerate .phase
          rd := Config.freeReadRegs s.draws, draws := s.draws + 1 } ∧
        (if s.pos < P.deviceCount then t.pos = s.pos + 1 ∧ t.phase = .sleep else t.pos = s.pos ∧ t.phase = .done) ∧
        uidCountRead s.pos t = s.rd.acc.length ∧ (∀ p, p ≠ s.pos → uidCountRead p t = uidCountRead p s) ∧
        (∀ i < s.rd.acc.length, uidRead s.pos i t = s.rd.acc.getD i 0) ∧
        ∀ p i, i < 256 → (p ≠ s.pos ∨ s.rd.acc.length ≤ i) → uidRead p i t = uidRead p i s)

/-- The two ends of `ENUMERATE`. It is accepted in any state: every `addressed` bit is cleared, position 1, phase `Sleep`. It
returns in phase `Done`: `Ok` if every position ended addressed and `EnumerationFailed` otherwise, with the walk's registers at
rest. -/
def Obligations.EnumerationStartsAndReturns : Prop :=
  (∀ s : State, ∃ t, exec .enumerate s = .next t ∧
    t = { s with addressed := t.addressed, pos := 1, phase := .sleep, opState := .running .enumerate .phase } ∧
    ∀ p, addressedRead p t = false) ∧
  ∀ s : State, s.fault = none → s.moves = [] → s.opState = .running .enumerate .phase → s.phase = .done →
    ∃ st : Status,
      step s = .next { s with
        phase := .idle, pos := 0, opState := .ready, response := some (.status st)
        history := .result (.status st) :: s.history } ∧
      (st = .ok ∨ st = .enumerationFailed) ∧
      (st = .ok ↔ ∀ p, 1 ≤ p → p ≤ Config.params.deviceCount → addressedRead p s = true)

/-- The results of the operations that `ENUMERATE` calls go to the walk, not to the response port: while it runs, a step
other than a reset changes the response only by returning in phase `Done`. -/
def Obligations.InnerCallsDoNotRespond : Prop :=
  ∀ s s' : State, (∃ pt, s.opState = .running .enumerate pt) ∨ (∃ c, s.opState = .waiting .enumerate c) →
    (∀ rest, s.moves ≠ .reset :: rest) → step s = .next s' → s'.response ≠ s.response →
    s.phase = .done ∧ s'.opState = .ready

/-- A whole enumeration of a chain on which every transfer is accepted and none ever completes, of any length, in any valid
configuration: it visits every position through all the phases, seven transfers each, and returns `EnumerationFailed` with
the bus idle, every position unaddressed, no identifier stored, and the counter entries of the positions, and no others, reset.
The number of steps, `30 N + 2`, is the model's cut of the operations (entry 4), and that no identifier read faults rests on
`UID_WORDS ≥ 1`, which the model deduces (entry 11). -/
def Obligations.SilentChainEnumeration : Prop :=
  ∀ (s : State) (o : Origin),
    let N := Config.params.deviceCount
    s.fault = none → s.opState = .ready → s.busy = .idle → s.noteTx = none → s.noteRx = none →
    s.port = some ⟨.req, o, [0xB000]⟩ → s.moves = (List.replicate N silentPosition).flatten →
    ∃ u, stepsTo (30 * N + 2) s u ∧ u.response = some (.status .enumerationFailed) ∧ u.opState = .ready ∧
      u.phase = .idle ∧ u.pos = 0 ∧ u.busy = .idle ∧ u.fault = none ∧ u.moves = [] ∧ u.port = none ∧
      u.inflight.length = s.inflight.length + 7 * N ∧
      (∀ p, 1 ≤ p → p ≤ N →
        addressedRead p u = false ∧ uidCountRead p u = 0 ∧ ctRead (positionAddr Config.params p) u = 0) ∧
      ∀ a, (∀ p, 1 ≤ p → p ≤ N → a ≠ positionAddr Config.params p) → ctRead a u = ctRead a s

/-! ## Faults, reset, instances, history -/

/-- R33: a fault is never cleared by a step, only by a reset; while it is set the instance takes no step; after reset there is
none. That the completion agent stands still too (entry 13) and that a reset may come at any time (entry 15) are the model's
readings. -/
def Obligations.FaultIsSticky : Prop :=
  (∀ (s : State) (f : Fault), s.fault = some f → (∀ rest, s.moves ≠ .reset :: rest) → step s = .fault f) ∧
  (∀ (s : State) (rest : List Move), s.moves = .reset :: rest → ∃ t, step s = .next t ∧ t.fault = none) ∧
  State.reset.fault = none

/-- R40: the values after reset of every element whose value the spec gives, for every index and for every string: in each
instance of the system after reset, which has one per string id. `State.reset` is that of string 0 (the model's choice,
entry 2). -/
def Obligations.ResetState : Prop :=
  systemReset.strings.length = Config.params.nStrings ∧ systemReset.strings[0]? = some State.reset ∧
    ∀ i < Config.params.nStrings, ∃ s, systemReset.strings[i]? = some s ∧ s.string = i ∧
      (∀ a, ctRead a s = 0) ∧ s.busy = .idle ∧ noteRead .tx s = none ∧ noteRead .rx s = none ∧ s.inflight = [] ∧
      s.phase = .idle ∧ s.pos = 0 ∧ (∀ p, addressedRead p s = false) ∧ (∀ p, uidCountRead p s = 0) ∧
      s.opState = .ready ∧ s.response = none ∧ s.fault = none

/-- A reset at any time, faulted or not, in any state of any operation, puts every element whose value the spec gives at that
value, for the same string, with the port empty. That a reset may come at any time and empties the port is the model's choice
(entries 15 and 3). -/
def Obligations.ResetAtAnyTime : Prop :=
  ∀ (s : State) (rest : List Move), s.moves = .reset :: rest →
    ∃ t, step s = .next t ∧ (∀ a, ctRead a t = 0) ∧ t.busy = .idle ∧ t.noteTx = none ∧ t.noteRx = none ∧
      t.inflight = [] ∧ t.phase = .idle ∧ t.pos = 0 ∧ (∀ p, addressedRead p t = false) ∧
      (∀ p, uidCountRead p t = 0) ∧ t.opState = .ready ∧ t.response = none ∧ t.fault = none ∧ t.port = none ∧
      t.string = s.string ∧ t.moves = rest

/-- The strings share nothing: a step of one instance leaves every other instance as it was, and no step changes an instance's
own string id. That the instances stand side by side in a list is the model's choice (entry 2). -/
def Obligations.StringsShareNothing : Prop :=
  (∀ (i : Nat) (y y' : System), systemStep i y = some y' →
    y'.strings.length = y.strings.length ∧ ∀ j, j ≠ i → y'.strings[j]? = y.strings[j]?) ∧
  ∀ s s' : State, step s = .next s' → s'.string = s.string

/-- The event history is only kept for the observation: two states that differ in it alone take the same step, with the same
new events. That the events before a reset are kept over it is the model's choice (entry 5). -/
def Obligations.HistoryIsNotRead : Prop :=
  ∀ (s : State) (h : List Event),
    match step s with
    | .next t => ∃ new, t.history = new ++ s.history ∧ step { s with history := h } = .next { t with history := new ++ h }
    | .fault f => step { s with history := h } = .fault f
    | .refused r => step { s with history := h } = .refused r

/-- The values that are unspecified after reset, and that the model's reset sets to 0 (a DESIGN CHOICE, entry 3), are never
read: states with a legal control point that differ in them alone take steps that agree again, response, counters, statuses
and history included. -/
def Obligations.UnspecifiedValuesAreNotRead : Prop :=
  ∀ s s' t : State, controlWf s = true → agreeButUnspecified s s' → step s = .next t →
    ∃ t', step s' = .next t' ∧ agreeButUnspecified t t'

/-! ## Invariants that every step keeps -/

/-- Every table keeps its canonical form. -/
def Obligations.TablesStayCanonical : Prop :=
  ∀ s s' : State, tablesWf s = true → step s = .next s' → tablesWf s' = true

/-- A claimed bus stays accounted for: a transfer is in flight or about to start, or the instance is faulted. -/
def Obligations.BusStaysAccounted : Prop :=
  ∀ s s' : State, busAccounted s = true → step s = .next s' → busAccounted s' = true

/-- The control point stays one that the pseudocode of the operation has, and the enumeration registers stay at rest outside
a walk and inside the chain during it. -/
def Obligations.ControlStaysLegal : Prop :=
  ∀ s s' : State, controlWf s = true → walkWf Config.params s = true → step s = .next s' →
    controlWf s' = true ∧ walkWf Config.params s' = true

/-- The capacity of the receive buffer stays respected, the read-engine registers stay inside the caps and keep count, and no
position holds more than `UID_WORDS` identifier words. -/
def Obligations.CapacitiesStayRespected : Prop :=
  ∀ s s' : State, controlWf s = true → walkWf Config.params s = true → buffersWf Config.params s = true →
    readRegsWf Config.params s = true → uidCountsWf Config.params s = true → step s = .next s' →
    buffersWf Config.params s' = true ∧ readRegsWf Config.params s' = true ∧ uidCountsWf Config.params s' = true

/-- Under the invariants, `ProgrammingError` comes only from a request: no operation under way, enumeration included, breaks
the caps, composes out of range or decodes more than 7 words. For the identifier read of an enumeration this rests on
`UID_WORDS ≥ 1`, which the model deduces (entry 11): with 0 words R161 would fault. -/
def Obligations.ProgrammingErrorOnlyFromRequests : Prop :=
  ∀ s s' : State, controlWf s = true → walkWf Config.params s = true → readRegsWf Config.params s = true →
    s.fault = none → step s = .next s' → s'.fault = some .programmingError → s.opState = .ready

/-- The reset state meets every invariant. -/
def Obligations.ResetMeetsInvariants : Prop :=
  tablesWf State.reset = true ∧ busAccounted State.reset = true ∧ controlWf State.reset = true ∧
    walkWf Config.params State.reset = true ∧ buffersWf Config.params State.reset = true ∧
    readRegsWf Config.params State.reset = true ∧ uidCountsWf Config.params State.reset = true
end

