-- ==== Sys2Proof/Laws/State.lean ====
section
/-! SUPPORT. One lemma per field per update of the state, so that no proof unfolds a record update. -/

namespace Sys2Proof.Machine

/-! ## ctWrite -/

@[simp] theorem ctWrite_string (a : Addr) (v : Counter) (s : State) : (ctWrite a v s).string = s.string := rfl
@[simp] theorem ctWrite_ct (a : Addr) (v : Counter) (s : State) : (ctWrite a v s).ct = tableWrite 0 a.toNat v s.ct := rfl
@[simp] theorem ctWrite_busy (a : Addr) (v : Counter) (s : State) : (ctWrite a v s).busy = s.busy := rfl
@[simp] theorem ctWrite_noteTx (a : Addr) (v : Counter) (s : State) : (ctWrite a v s).noteTx = s.noteTx := rfl
@[simp] theorem ctWrite_noteRx (a : Addr) (v : Counter) (s : State) : (ctWrite a v s).noteRx = s.noteRx := rfl
@[simp] theorem ctWrite_inflight (a : Addr) (v : Counter) (s : State) : (ctWrite a v s).inflight = s.inflight := rfl
@[simp] theorem ctWrite_txBuf (a : Addr) (v : Counter) (s : State) : (ctWrite a v s).txBuf = s.txBuf := rfl
@[simp] theorem ctWrite_rxBuf (a : Addr) (v : Counter) (s : State) : (ctWrite a v s).rxBuf = s.rxBuf := rfl
@[simp] theorem ctWrite_phase (a : Addr) (v : Counter) (s : State) : (ctWrite a v s).phase = s.phase := rfl
@[simp] theorem ctWrite_pos (a : Addr) (v : Counter) (s : State) : (ctWrite a v s).pos = s.pos := rfl
@[simp] theorem ctWrite_addressed (a : Addr) (v : Counter) (s : State) : (ctWrite a v s).addressed = s.addressed := rfl
@[simp] theorem ctWrite_uidCount (a : Addr) (v : Counter) (s : State) : (ctWrite a v s).uidCount = s.uidCount := rfl
@[simp] theorem ctWrite_uid (a : Addr) (v : Counter) (s : State) : (ctWrite a v s).uid = s.uid := rfl
@[simp] theorem ctWrite_rd (a : Addr) (v : Counter) (s : State) : (ctWrite a v s).rd = s.rd := rfl
@[simp] theorem ctWrite_d (a : Addr) (v : Counter) (s : State) : (ctWrite a v s).d = s.d := rfl
@[simp] theorem ctWrite_opState (a : Addr) (v : Counter) (s : State) : (ctWrite a v s).opState = s.opState := rfl
@[simp] theorem ctWrite_port (a : Addr) (v : Counter) (s : State) : (ctWrite a v s).port = s.port := rfl
@[simp] theorem ctWrite_response (a : Addr) (v : Counter) (s : State) : (ctWrite a v s).response = s.response := rfl
@[simp] theorem ctWrite_fault (a : Addr) (v : Counter) (s : State) : (ctWrite a v s).fault = s.fault := rfl
@[simp] theorem ctWrite_history (a : Addr) (v : Counter) (s : State) : (ctWrite a v s).history = s.history := rfl
@[simp] theorem ctWrite_origin (a : Addr) (v : Counter) (s : State) : (ctWrite a v s).origin = s.origin := rfl
@[simp] theorem ctWrite_moves (a : Addr) (v : Counter) (s : State) : (ctWrite a v s).moves = s.moves := rfl
@[simp] theorem ctWrite_draws (a : Addr) (v : Counter) (s : State) : (ctWrite a v s).draws = s.draws := rfl

/-! ## addressedWrite -/

@[simp] theorem addressedWrite_string (p : Nat) (b : Bool) (s : State) : (addressedWrite p b s).string = s.string := rfl
@[simp] theorem addressedWrite_ct (p : Nat) (b : Bool) (s : State) : (addressedWrite p b s).ct = s.ct := rfl
@[simp] theorem addressedWrite_busy (p : Nat) (b : Bool) (s : State) : (addressedWrite p b s).busy = s.busy := rfl
@[simp] theorem addressedWrite_noteTx (p : Nat) (b : Bool) (s : State) : (addressedWrite p b s).noteTx = s.noteTx := rfl
@[simp] theorem addressedWrite_noteRx (p : Nat) (b : Bool) (s : State) : (addressedWrite p b s).noteRx = s.noteRx := rfl
@[simp] theorem addressedWrite_inflight (p : Nat) (b : Bool) (s : State) : (addressedWrite p b s).inflight = s.inflight := rfl
@[simp] theorem addressedWrite_txBuf (p : Nat) (b : Bool) (s : State) : (addressedWrite p b s).txBuf = s.txBuf := rfl
@[simp] theorem addressedWrite_rxBuf (p : Nat) (b : Bool) (s : State) : (addressedWrite p b s).rxBuf = s.rxBuf := rfl
@[simp] theorem addressedWrite_phase (p : Nat) (b : Bool) (s : State) : (addressedWrite p b s).phase = s.phase := rfl
@[simp] theorem addressedWrite_pos (p : Nat) (b : Bool) (s : State) : (addressedWrite p b s).pos = s.pos := rfl
@[simp] theorem addressedWrite_addressed (p : Nat) (b : Bool) (s : State) : (addressedWrite p b s).addressed = tableWrite false p b s.addressed := rfl
@[simp] theorem addressedWrite_uidCount (p : Nat) (b : Bool) (s : State) : (addressedWrite p b s).uidCount = s.uidCount := rfl
@[simp] theorem addressedWrite_uid (p : Nat) (b : Bool) (s : State) : (addressedWrite p b s).uid = s.uid := rfl
@[simp] theorem addressedWrite_rd (p : Nat) (b : Bool) (s : State) : (addressedWrite p b s).rd = s.rd := rfl
@[simp] theorem addressedWrite_d (p : Nat) (b : Bool) (s : State) : (addressedWrite p b s).d = s.d := rfl
@[simp] theorem addressedWrite_opState (p : Nat) (b : Bool) (s : State) : (addressedWrite p b s).opState = s.opState := rfl
@[simp] theorem addressedWrite_port (p : Nat) (b : Bool) (s : State) : (addressedWrite p b s).port = s.port := rfl
@[simp] theorem addressedWrite_response (p : Nat) (b : Bool) (s : State) : (addressedWrite p b s).response = s.response := rfl
@[simp] theorem addressedWrite_fault (p : Nat) (b : Bool) (s : State) : (addressedWrite p b s).fault = s.fault := rfl
@[simp] theorem addressedWrite_history (p : Nat) (b : Bool) (s : State) : (addressedWrite p b s).history = s.history := rfl
@[simp] theorem addressedWrite_origin (p : Nat) (b : Bool) (s : State) : (addressedWrite p b s).origin = s.origin := rfl
@[simp] theorem addressedWrite_moves (p : Nat) (b : Bool) (s : State) : (addressedWrite p b s).moves = s.moves := rfl
@[simp] theorem addressedWrite_draws (p : Nat) (b : Bool) (s : State) : (addressedWrite p b s).draws = s.draws := rfl

/-! ## uidStore -/

@[simp] theorem uidStore_string (p : Nat) (acc : List Word) (s : State) : (uidStore p acc s).string = s.string := rfl
@[simp] theorem uidStore_ct (p : Nat) (acc : List Word) (s : State) : (uidStore p acc s).ct = s.ct := rfl
@[simp] theorem uidStore_busy (p : Nat) (acc : List Word) (s : State) : (uidStore p acc s).busy = s.busy := rfl
@[simp] theorem uidStore_noteTx (p : Nat) (acc : List Word) (s : State) : (uidStore p acc s).noteTx = s.noteTx := rfl
@[simp] theorem uidStore_noteRx (p : Nat) (acc : List Word) (s : State) : (uidStore p acc s).noteRx = s.noteRx := rfl
@[simp] theorem uidStore_inflight (p : Nat) (acc : List Word) (s : State) : (uidStore p acc s).inflight = s.inflight := rfl
@[simp] theorem uidStore_txBuf (p : Nat) (acc : List Word) (s : State) : (uidStore p acc s).txBuf = s.txBuf := rfl
@[simp] theorem uidStore_rxBuf (p : Nat) (acc : List Word) (s : State) : (uidStore p acc s).rxBuf = s.rxBuf := rfl
@[simp] theorem uidStore_phase (p : Nat) (acc : List Word) (s : State) : (uidStore p acc s).phase = s.phase := rfl
@[simp] theorem uidStore_pos (p : Nat) (acc : List Word) (s : State) : (uidStore p acc s).pos = s.pos := rfl
@[simp] theorem uidStore_addressed (p : Nat) (acc : List Word) (s : State) : (uidStore p acc s).addressed = s.addressed := rfl
@[simp] theorem uidStore_uidCount (p : Nat) (acc : List Word) (s : State) : (uidStore p acc s).uidCount = tableWrite 0 p acc.length s.uidCount := rfl
@[simp] theorem uidStore_uid (p : Nat) (acc : List Word) (s : State) : (uidStore p acc s).uid = tableWriteList 0 (uidIndex p 0) acc s.uid := rfl
@[simp] theorem uidStore_rd (p : Nat) (acc : List Word) (s : State) : (uidStore p acc s).rd = s.rd := rfl
@[simp] theorem uidStore_d (p : Nat) (acc : List Word) (s : State) : (uidStore p acc s).d = s.d := rfl
@[simp] theorem uidStore_opState (p : Nat) (acc : List Word) (s : State) : (uidStore p acc s).opState = s.opState := rfl
@[simp] theorem uidStore_port (p : Nat) (acc : List Word) (s : State) : (uidStore p acc s).port = s.port := rfl
@[simp] theorem uidStore_response (p : Nat) (acc : List Word) (s : State) : (uidStore p acc s).response = s.response := rfl
@[simp] theorem uidStore_fault (p : Nat) (acc : List Word) (s : State) : (uidStore p acc s).fault = s.fault := rfl
@[simp] theorem uidStore_history (p : Nat) (acc : List Word) (s : State) : (uidStore p acc s).history = s.history := rfl
@[simp] theorem uidStore_origin (p : Nat) (acc : List Word) (s : State) : (uidStore p acc s).origin = s.origin := rfl
@[simp] theorem uidStore_moves (p : Nat) (acc : List Word) (s : State) : (uidStore p acc s).moves = s.moves := rfl
@[simp] theorem uidStore_draws (p : Nat) (acc : List Word) (s : State) : (uidStore p acc s).draws = s.draws := rfl

/-! ## noteWrite -/

@[simp] theorem noteWrite_string (c : Channel) (v : Option Nat) (s : State) : (noteWrite c v s).string = s.string := by cases c <;> rfl
@[simp] theorem noteWrite_ct (c : Channel) (v : Option Nat) (s : State) : (noteWrite c v s).ct = s.ct := by cases c <;> rfl
@[simp] theorem noteWrite_busy (c : Channel) (v : Option Nat) (s : State) : (noteWrite c v s).busy = s.busy := by cases c <;> rfl
@[simp] theorem noteWrite_inflight (c : Channel) (v : Option Nat) (s : State) : (noteWrite c v s).inflight = s.inflight := by cases c <;> rfl
@[simp] theorem noteWrite_txBuf (c : Channel) (v : Option Nat) (s : State) : (noteWrite c v s).txBuf = s.txBuf := by cases c <;> rfl
@[simp] theorem noteWrite_rxBuf (c : Channel) (v : Option Nat) (s : State) : (noteWrite c v s).rxBuf = s.rxBuf := by cases c <;> rfl
@[simp] theorem noteWrite_phase (c : Channel) (v : Option Nat) (s : State) : (noteWrite c v s).phase = s.phase := by cases c <;> rfl
@[simp] theorem noteWrite_pos (c : Channel) (v : Option Nat) (s : State) : (noteWrite c v s).pos = s.pos := by cases c <;> rfl
@[simp] theorem noteWrite_addressed (c : Channel) (v : Option Nat) (s : State) : (noteWrite c v s).addressed = s.addressed := by cases c <;> rfl
@[simp] theorem noteWrite_uidCount (c : Channel) (v : Option Nat) (s : State) : (noteWrite c v s).uidCount = s.uidCount := by cases c <;> rfl
@[simp] theorem noteWrite_uid (c : Channel) (v : Option Nat) (s : State) : (noteWrite c v s).uid = s.uid := by cases c <;> rfl
@[simp] theorem noteWrite_rd (c : Channel) (v : Option Nat) (s : State) : (noteWrite c v s).rd = s.rd := by cases c <;> rfl
@[simp] theorem noteWrite_d (c : Channel) (v : Option Nat) (s : State) : (noteWrite c v s).d = s.d := by cases c <;> rfl
@[simp] theorem noteWrite_opState (c : Channel) (v : Option Nat) (s : State) : (noteWrite c v s).opState = s.opState := by cases c <;> rfl
@[simp] theorem noteWrite_port (c : Channel) (v : Option Nat) (s : State) : (noteWrite c v s).port = s.port := by cases c <;> rfl
@[simp] theorem noteWrite_response (c : Channel) (v : Option Nat) (s : State) : (noteWrite c v s).response = s.response := by cases c <;> rfl
@[simp] theorem noteWrite_fault (c : Channel) (v : Option Nat) (s : State) : (noteWrite c v s).fault = s.fault := by cases c <;> rfl
@[simp] theorem noteWrite_history (c : Channel) (v : Option Nat) (s : State) : (noteWrite c v s).history = s.history := by cases c <;> rfl
@[simp] theorem noteWrite_origin (c : Channel) (v : Option Nat) (s : State) : (noteWrite c v s).origin = s.origin := by cases c <;> rfl
@[simp] theorem noteWrite_moves (c : Channel) (v : Option Nat) (s : State) : (noteWrite c v s).moves = s.moves := by cases c <;> rfl
@[simp] theorem noteWrite_draws (c : Channel) (v : Option Nat) (s : State) : (noteWrite c v s).draws = s.draws := by cases c <;> rfl

/-! ## emit -/

@[simp] theorem emit_string (e : Event) (s : State) : (emit e s).string = s.string := rfl
@[simp] theorem emit_ct (e : Event) (s : State) : (emit e s).ct = s.ct := rfl
@[simp] theorem emit_busy (e : Event) (s : State) : (emit e s).busy = s.busy := rfl
@[simp] theorem emit_noteTx (e : Event) (s : State) : (emit e s).noteTx = s.noteTx := rfl
@[simp] theorem emit_noteRx (e : Event) (s : State) : (emit e s).noteRx = s.noteRx := rfl
@[simp] theorem emit_inflight (e : Event) (s : State) : (emit e s).inflight = s.inflight := rfl
@[simp] theorem emit_txBuf (e : Event) (s : State) : (emit e s).txBuf = s.txBuf := rfl
@[simp] theorem emit_rxBuf (e : Event) (s : State) : (emit e s).rxBuf = s.rxBuf := rfl
@[simp] theorem emit_phase (e : Event) (s : State) : (emit e s).phase = s.phase := rfl
@[simp] theorem emit_pos (e : Event) (s : State) : (emit e s).pos = s.pos := rfl
@[simp] theorem emit_addressed (e : Event) (s : State) : (emit e s).addressed = s.addressed := rfl
@[simp] theorem emit_uidCount (e : Event) (s : State) : (emit e s).uidCount = s.uidCount := rfl
@[simp] theorem emit_uid (e : Event) (s : State) : (emit e s).uid = s.uid := rfl
@[simp] theorem emit_rd (e : Event) (s : State) : (emit e s).rd = s.rd := rfl
@[simp] theorem emit_d (e : Event) (s : State) : (emit e s).d = s.d := rfl
@[simp] theorem emit_opState (e : Event) (s : State) : (emit e s).opState = s.opState := rfl
@[simp] theorem emit_port (e : Event) (s : State) : (emit e s).port = s.port := rfl
@[simp] theorem emit_response (e : Event) (s : State) : (emit e s).response = s.response := rfl
@[simp] theorem emit_fault (e : Event) (s : State) : (emit e s).fault = s.fault := rfl
@[simp] theorem emit_history (e : Event) (s : State) : (emit e s).history = e :: s.history := rfl
@[simp] theorem emit_origin (e : Event) (s : State) : (emit e s).origin = s.origin := rfl
@[simp] theorem emit_moves (e : Event) (s : State) : (emit e s).moves = s.moves := rfl
@[simp] theorem emit_draws (e : Event) (s : State) : (emit e s).draws = s.draws := rfl

/-! ## raiseFault -/

@[simp] theorem raiseFault_string (f : Fault) (s : State) : (raiseFault f s).string = s.string := rfl
@[simp] theorem raiseFault_ct (f : Fault) (s : State) : (raiseFault f s).ct = s.ct := rfl
@[simp] theorem raiseFault_busy (f : Fault) (s : State) : (raiseFault f s).busy = s.busy := rfl
@[simp] theorem raiseFault_noteTx (f : Fault) (s : State) : (raiseFault f s).noteTx = s.noteTx := rfl
@[simp] theorem raiseFault_noteRx (f : Fault) (s : State) : (raiseFault f s).noteRx = s.noteRx := rfl
@[simp] theorem raiseFault_inflight (f : Fault) (s : State) : (raiseFault f s).inflight = s.inflight := rfl
@[simp] theorem raiseFault_txBuf (f : Fault) (s : State) : (raiseFault f s).txBuf = s.txBuf := rfl
@[simp] theorem raiseFault_rxBuf (f : Fault) (s : State) : (raiseFault f s).rxBuf = s.rxBuf := rfl
@[simp] theorem raiseFault_phase (f : Fault) (s : State) : (raiseFault f s).phase = s.phase := rfl
@[simp] theorem raiseFault_pos (f : Fault) (s : State) : (raiseFault f s).pos = s.pos := rfl
@[simp] theorem raiseFault_addressed (f : Fault) (s : State) : (raiseFault f s).addressed = s.addressed := rfl
@[simp] theorem raiseFault_uidCount (f : Fault) (s : State) : (raiseFault f s).uidCount = s.uidCount := rfl
@[simp] theorem raiseFault_uid (f : Fault) (s : State) : (raiseFault f s).uid = s.uid := rfl
@[simp] theorem raiseFault_rd (f : Fault) (s : State) : (raiseFault f s).rd = s.rd := rfl
@[simp] theorem raiseFault_d (f : Fault) (s : State) : (raiseFault f s).d = s.d := rfl
@[simp] theorem raiseFault_opState (f : Fault) (s : State) : (raiseFault f s).opState = s.opState := rfl
@[simp] theorem raiseFault_port (f : Fault) (s : State) : (raiseFault f s).port = s.port := rfl
@[simp] theorem raiseFault_response (f : Fault) (s : State) : (raiseFault f s).response = s.response := rfl
@[simp] theorem raiseFault_fault (f : Fault) (s : State) : (raiseFault f s).fault = some f := rfl
@[simp] theorem raiseFault_history (f : Fault) (s : State) : (raiseFault f s).history = s.history := rfl
@[simp] theorem raiseFault_origin (f : Fault) (s : State) : (raiseFault f s).origin = s.origin := rfl
@[simp] theorem raiseFault_moves (f : Fault) (s : State) : (raiseFault f s).moves = s.moves := rfl
@[simp] theorem raiseFault_draws (f : Fault) (s : State) : (raiseFault f s).draws = s.draws := rfl

/-! ## respond -/

@[simp] theorem respond_string (r : Response) (s : State) : (respond r s).string = s.string := rfl
@[simp] theorem respond_ct (r : Response) (s : State) : (respond r s).ct = s.ct := rfl
@[simp] theorem respond_busy (r : Response) (s : State) : (respond r s).busy = s.busy := rfl
@[simp] theorem respond_noteTx (r : Response) (s : State) : (respond r s).noteTx = s.noteTx := rfl
@[simp] theorem respond_noteRx (r : Response) (s : State) : (respond r s).noteRx = s.noteRx := rfl
@[simp] theorem respond_inflight (r : Response) (s : State) : (respond r s).inflight = s.inflight := rfl
@[simp] theorem respond_txBuf (r : Response) (s : State) : (respond r s).txBuf = s.txBuf := rfl
@[simp] theorem respond_rxBuf (r : Response) (s : State) : (respond r s).rxBuf = s.rxBuf := rfl
@[simp] theorem respond_phase (r : Response) (s : State) : (respond r s).phase = s.phase := rfl
@[simp] theorem respond_pos (r : Response) (s : State) : (respond r s).pos = s.pos := rfl
@[simp] theorem respond_addressed (r : Response) (s : State) : (respond r s).addressed = s.addressed := rfl
@[simp] theorem respond_uidCount (r : Response) (s : State) : (respond r s).uidCount = s.uidCount := rfl
@[simp] theorem respond_uid (r : Response) (s : State) : (respond r s).uid = s.uid := rfl
@[simp] theorem respond_rd (r : Response) (s : State) : (respond r s).rd = s.rd := rfl
@[simp] theorem respond_d (r : Response) (s : State) : (respond r s).d = s.d := rfl
@[simp] theorem respond_opState (r : Response) (s : State) : (respond r s).opState = .ready := rfl
@[simp] theorem respond_port (r : Response) (s : State) : (respond r s).port = s.port := rfl
@[simp] theorem respond_response (r : Response) (s : State) : (respond r s).response = some r := rfl
@[simp] theorem respond_fault (r : Response) (s : State) : (respond r s).fault = s.fault := rfl
@[simp] theorem respond_history (r : Response) (s : State) : (respond r s).history = .result r :: s.history := rfl
@[simp] theorem respond_origin (r : Response) (s : State) : (respond r s).origin = s.origin := rfl
@[simp] theorem respond_moves (r : Response) (s : State) : (respond r s).moves = s.moves := rfl
@[simp] theorem respond_draws (r : Response) (s : State) : (respond r s).draws = s.draws := rfl

/-! ## takeRequest -/

@[simp] theorem takeRequest_string (r : Request) (s : State) : (takeRequest r s).string = s.string := rfl
@[simp] theorem takeRequest_ct (r : Request) (s : State) : (takeRequest r s).ct = s.ct := rfl
@[simp] theorem takeRequest_busy (r : Request) (s : State) : (takeRequest r s).busy = s.busy := rfl
@[simp] theorem takeRequest_noteTx (r : Request) (s : State) : (takeRequest r s).noteTx = s.noteTx := rfl
@[simp] theorem takeRequest_noteRx (r : Request) (s : State) : (takeRequest r s).noteRx = s.noteRx := rfl
@[simp] theorem takeRequest_inflight (r : Request) (s : State) : (takeRequest r s).inflight = s.inflight := rfl
@[simp] theorem takeRequest_txBuf (r : Request) (s : State) : (takeRequest r s).txBuf = s.txBuf := rfl
@[simp] theorem takeRequest_rxBuf (r : Request) (s : State) : (takeRequest r s).rxBuf = s.rxBuf := rfl
@[simp] theorem takeRequest_phase (r : Request) (s : State) : (takeRequest r s).phase = s.phase := rfl
@[simp] theorem takeRequest_pos (r : Request) (s : State) : (takeRequest r s).pos = s.pos := rfl
@[simp] theorem takeRequest_addressed (r : Request) (s : State) : (takeRequest r s).addressed = s.addressed := rfl
@[simp] theorem takeRequest_uidCount (r : Request) (s : State) : (takeRequest r s).uidCount = s.uidCount := rfl
@[simp] theorem takeRequest_uid (r : Request) (s : State) : (takeRequest r s).uid = s.uid := rfl
@[simp] theorem takeRequest_rd (r : Request) (s : State) : (takeRequest r s).rd = s.rd := rfl
@[simp] theorem takeRequest_d (r : Request) (s : State) : (takeRequest r s).d = s.d := rfl
@[simp] theorem takeRequest_opState (r : Request) (s : State) : (takeRequest r s).opState = s.opState := rfl
@[simp] theorem takeRequest_port (r : Request) (s : State) : (takeRequest r s).port = none := rfl
@[simp] theorem takeRequest_response (r : Request) (s : State) : (takeRequest r s).response = s.response := rfl
@[simp] theorem takeRequest_fault (r : Request) (s : State) : (takeRequest r s).fault = s.fault := rfl
@[simp] theorem takeRequest_history (r : Request) (s : State) : (takeRequest r s).history = .request r :: s.history := rfl
@[simp] theorem takeRequest_origin (r : Request) (s : State) : (takeRequest r s).origin = r.origin := rfl
@[simp] theorem takeRequest_moves (r : Request) (s : State) : (takeRequest r s).moves = s.moves := rfl
@[simp] theorem takeRequest_draws (r : Request) (s : State) : (takeRequest r s).draws = s.draws := rfl

/-! ## accept -/

@[simp] theorem accept_string (op : Instr) (s : State) : (accept op s).string = s.string := rfl
@[simp] theorem accept_ct (op : Instr) (s : State) : (accept op s).ct = s.ct := rfl
@[simp] theorem accept_busy (op : Instr) (s : State) : (accept op s).busy = s.busy := rfl
@[simp] theorem accept_noteTx (op : Instr) (s : State) : (accept op s).noteTx = s.noteTx := rfl
@[simp] theorem accept_noteRx (op : Instr) (s : State) : (accept op s).noteRx = s.noteRx := rfl
@[simp] theorem accept_inflight (op : Instr) (s : State) : (accept op s).inflight = s.inflight := rfl
@[simp] theorem accept_txBuf (op : Instr) (s : State) : (accept op s).txBuf = s.txBuf := rfl
@[simp] theorem accept_rxBuf (op : Instr) (s : State) : (accept op s).rxBuf = s.rxBuf := rfl
@[simp] theorem accept_phase (op : Instr) (s : State) : (accept op s).phase = s.phase := rfl
@[simp] theorem accept_pos (op : Instr) (s : State) : (accept op s).pos = s.pos := rfl
@[simp] theorem accept_addressed (op : Instr) (s : State) : (accept op s).addressed = s.addressed := rfl
@[simp] theorem accept_uidCount (op : Instr) (s : State) : (accept op s).uidCount = s.uidCount := rfl
@[simp] theorem accept_uid (op : Instr) (s : State) : (accept op s).uid = s.uid := rfl
@[simp] theorem accept_rd (op : Instr) (s : State) : (accept op s).rd = s.rd := rfl
@[simp] theorem accept_d (op : Instr) (s : State) : (accept op s).d = s.d := rfl
@[simp] theorem accept_opState (op : Instr) (s : State) : (accept op s).opState = .running op .entry := rfl
@[simp] theorem accept_port (op : Instr) (s : State) : (accept op s).port = s.port := rfl
@[simp] theorem accept_response (op : Instr) (s : State) : (accept op s).response = s.response := rfl
@[simp] theorem accept_fault (op : Instr) (s : State) : (accept op s).fault = s.fault := rfl
@[simp] theorem accept_history (op : Instr) (s : State) : (accept op s).history = s.history := rfl
@[simp] theorem accept_origin (op : Instr) (s : State) : (accept op s).origin = s.origin := rfl
@[simp] theorem accept_moves (op : Instr) (s : State) : (accept op s).moves = s.moves := rfl
@[simp] theorem accept_draws (op : Instr) (s : State) : (accept op s).draws = s.draws := rfl

/-! ## timeoutRelease -/

@[simp] theorem timeoutRelease_string (s : State) : (timeoutRelease s).string = s.string := rfl
@[simp] theorem timeoutRelease_ct (s : State) : (timeoutRelease s).ct = s.ct := rfl
@[simp] theorem timeoutRelease_busy (s : State) : (timeoutRelease s).busy = .idle := rfl
@[simp] theorem timeoutRelease_noteTx (s : State) : (timeoutRelease s).noteTx = s.noteTx := rfl
@[simp] theorem timeoutRelease_noteRx (s : State) : (timeoutRelease s).noteRx = s.noteRx := rfl
@[simp] theorem timeoutRelease_inflight (s : State) : (timeoutRelease s).inflight = s.inflight := rfl
@[simp] theorem timeoutRelease_txBuf (s : State) : (timeoutRelease s).txBuf = s.txBuf := rfl
@[simp] theorem timeoutRelease_rxBuf (s : State) : (timeoutRelease s).rxBuf = s.rxBuf := rfl
@[simp] theorem timeoutRelease_phase (s : State) : (timeoutRelease s).phase = s.phase := rfl
@[simp] theorem timeoutRelease_pos (s : State) : (timeoutRelease s).pos = s.pos := rfl
@[simp] theorem timeoutRelease_addressed (s : State) : (timeoutRelease s).addressed = s.addressed := rfl
@[simp] theorem timeoutRelease_uidCount (s : State) : (timeoutRelease s).uidCount = s.uidCount := rfl
@[simp] theorem timeoutRelease_uid (s : State) : (timeoutRelease s).uid = s.uid := rfl
@[simp] theorem timeoutRelease_rd (s : State) : (timeoutRelease s).rd = s.rd := rfl
@[simp] theorem timeoutRelease_d (s : State) : (timeoutRelease s).d = s.d := rfl
@[simp] theorem timeoutRelease_opState (s : State) : (timeoutRelease s).opState = s.opState := rfl
@[simp] theorem timeoutRelease_port (s : State) : (timeoutRelease s).port = s.port := rfl
@[simp] theorem timeoutRelease_response (s : State) : (timeoutRelease s).response = s.response := rfl
@[simp] theorem timeoutRelease_fault (s : State) : (timeoutRelease s).fault = s.fault := rfl
@[simp] theorem timeoutRelease_history (s : State) : (timeoutRelease s).history = s.history := rfl
@[simp] theorem timeoutRelease_origin (s : State) : (timeoutRelease s).origin = s.origin := rfl
@[simp] theorem timeoutRelease_moves (s : State) : (timeoutRelease s).moves = s.moves := rfl
@[simp] theorem timeoutRelease_draws (s : State) : (timeoutRelease s).draws = s.draws := rfl

/-! ## toPhase -/

@[simp] theorem toPhase_string (op : Instr) (ph : Phase) (s : State) : (toPhase op ph s).string = s.string := rfl
@[simp] theorem toPhase_ct (op : Instr) (ph : Phase) (s : State) : (toPhase op ph s).ct = s.ct := rfl
@[simp] theorem toPhase_busy (op : Instr) (ph : Phase) (s : State) : (toPhase op ph s).busy = s.busy := rfl
@[simp] theorem toPhase_noteTx (op : Instr) (ph : Phase) (s : State) : (toPhase op ph s).noteTx = s.noteTx := rfl
@[simp] theorem toPhase_noteRx (op : Instr) (ph : Phase) (s : State) : (toPhase op ph s).noteRx = s.noteRx := rfl
@[simp] theorem toPhase_inflight (op : Instr) (ph : Phase) (s : State) : (toPhase op ph s).inflight = s.inflight := rfl
@[simp] theorem toPhase_txBuf (op : Instr) (ph : Phase) (s : State) : (toPhase op ph s).txBuf = s.txBuf := rfl
@[simp] theorem toPhase_rxBuf (op : Instr) (ph : Phase) (s : State) : (toPhase op ph s).rxBuf = s.rxBuf := rfl
@[simp] theorem toPhase_phase (op : Instr) (ph : Phase) (s : State) : (toPhase op ph s).phase = ph := rfl
@[simp] theorem toPhase_pos (op : Instr) (ph : Phase) (s : State) : (toPhase op ph s).pos = s.pos := rfl
@[simp] theorem toPhase_addressed (op : Instr) (ph : Phase) (s : State) : (toPhase op ph s).addressed = s.addressed := rfl
@[simp] theorem toPhase_uidCount (op : Instr) (ph : Phase) (s : State) : (toPhase op ph s).uidCount = s.uidCount := rfl
@[simp] theorem toPhase_uid (op : Instr) (ph : Phase) (s : State) : (toPhase op ph s).uid = s.uid := rfl
@[simp] theorem toPhase_rd (op : Instr) (ph : Phase) (s : State) : (toPhase op ph s).rd = s.rd := rfl
@[simp] theorem toPhase_d (op : Instr) (ph : Phase) (s : State) : (toPhase op ph s).d = s.d := rfl
@[simp] theorem toPhase_opState (op : Instr) (ph : Phase) (s : State) : (toPhase op ph s).opState = .running op .phase := rfl
@[simp] theorem toPhase_port (op : Instr) (ph : Phase) (s : State) : (toPhase op ph s).port = s.port := rfl
@[simp] theorem toPhase_response (op : Instr) (ph : Phase) (s : State) : (toPhase op ph s).response = s.response := rfl
@[simp] theorem toPhase_fault (op : Instr) (ph : Phase) (s : State) : (toPhase op ph s).fault = s.fault := rfl
@[simp] theorem toPhase_history (op : Instr) (ph : Phase) (s : State) : (toPhase op ph s).history = s.history := rfl
@[simp] theorem toPhase_origin (op : Instr) (ph : Phase) (s : State) : (toPhase op ph s).origin = s.origin := rfl
@[simp] theorem toPhase_moves (op : Instr) (ph : Phase) (s : State) : (toPhase op ph s).moves = s.moves := rfl
@[simp] theorem toPhase_draws (op : Instr) (ph : Phase) (s : State) : (toPhase op ph s).draws = s.draws := rfl

/-! ## forgetDecoded -/

@[simp] theorem forgetDecoded_string (s : State) : (forgetDecoded s).string = s.string := rfl
@[simp] theorem forgetDecoded_ct (s : State) : (forgetDecoded s).ct = s.ct := rfl
@[simp] theorem forgetDecoded_busy (s : State) : (forgetDecoded s).busy = s.busy := rfl
@[simp] theorem forgetDecoded_noteTx (s : State) : (forgetDecoded s).noteTx = s.noteTx := rfl
@[simp] theorem forgetDecoded_noteRx (s : State) : (forgetDecoded s).noteRx = s.noteRx := rfl
@[simp] theorem forgetDecoded_inflight (s : State) : (forgetDecoded s).inflight = s.inflight := rfl
@[simp] theorem forgetDecoded_txBuf (s : State) : (forgetDecoded s).txBuf = s.txBuf := rfl
@[simp] theorem forgetDecoded_rxBuf (s : State) : (forgetDecoded s).rxBuf = s.rxBuf := rfl
@[simp] theorem forgetDecoded_phase (s : State) : (forgetDecoded s).phase = s.phase := rfl
@[simp] theorem forgetDecoded_pos (s : State) : (forgetDecoded s).pos = s.pos := rfl
@[simp] theorem forgetDecoded_addressed (s : State) : (forgetDecoded s).addressed = s.addressed := rfl
@[simp] theorem forgetDecoded_uidCount (s : State) : (forgetDecoded s).uidCount = s.uidCount := rfl
@[simp] theorem forgetDecoded_uid (s : State) : (forgetDecoded s).uid = s.uid := rfl
@[simp] theorem forgetDecoded_rd (s : State) : (forgetDecoded s).rd = s.rd := rfl
@[simp] theorem forgetDecoded_d (s : State) : (forgetDecoded s).d = Config.freeDecoded s.draws := rfl
@[simp] theorem forgetDecoded_opState (s : State) : (forgetDecoded s).opState = s.opState := rfl
@[simp] theorem forgetDecoded_port (s : State) : (forgetDecoded s).port = s.port := rfl
@[simp] theorem forgetDecoded_response (s : State) : (forgetDecoded s).response = s.response := rfl
@[simp] theorem forgetDecoded_fault (s : State) : (forgetDecoded s).fault = s.fault := rfl
@[simp] theorem forgetDecoded_history (s : State) : (forgetDecoded s).history = s.history := rfl
@[simp] theorem forgetDecoded_origin (s : State) : (forgetDecoded s).origin = s.origin := rfl
@[simp] theorem forgetDecoded_moves (s : State) : (forgetDecoded s).moves = s.moves := rfl
@[simp] theorem forgetDecoded_draws (s : State) : (forgetDecoded s).draws = s.draws + 1 := rfl

/-! ## forgetReadRegs -/

@[simp] theorem forgetReadRegs_string (s : State) : (forgetReadRegs s).string = s.string := rfl
@[simp] theorem forgetReadRegs_ct (s : State) : (forgetReadRegs s).ct = s.ct := rfl
@[simp] theorem forgetReadRegs_busy (s : State) : (forgetReadRegs s).busy = s.busy := rfl
@[simp] theorem forgetReadRegs_noteTx (s : State) : (forgetReadRegs s).noteTx = s.noteTx := rfl
@[simp] theorem forgetReadRegs_noteRx (s : State) : (forgetReadRegs s).noteRx = s.noteRx := rfl
@[simp] theorem forgetReadRegs_inflight (s : State) : (forgetReadRegs s).inflight = s.inflight := rfl
@[simp] theorem forgetReadRegs_txBuf (s : State) : (forgetReadRegs s).txBuf = s.txBuf := rfl
@[simp] theorem forgetReadRegs_rxBuf (s : State) : (forgetReadRegs s).rxBuf = s.rxBuf := rfl
@[simp] theorem forgetReadRegs_phase (s : State) : (forgetReadRegs s).phase = s.phase := rfl
@[simp] theorem forgetReadRegs_pos (s : State) : (forgetReadRegs s).pos = s.pos := rfl
@[simp] theorem forgetReadRegs_addressed (s : State) : (forgetReadRegs s).addressed = s.addressed := rfl
@[simp] theorem forgetReadRegs_uidCount (s : State) : (forgetReadRegs s).uidCount = s.uidCount := rfl
@[simp] theorem forgetReadRegs_uid (s : State) : (forgetReadRegs s).uid = s.uid := rfl
@[simp] theorem forgetReadRegs_rd (s : State) : (forgetReadRegs s).rd = Config.freeReadRegs s.draws := rfl
@[simp] theorem forgetReadRegs_d (s : State) : (forgetReadRegs s).d = s.d := rfl
@[simp] theorem forgetReadRegs_opState (s : State) : (forgetReadRegs s).opState = s.opState := rfl
@[simp] theorem forgetReadRegs_port (s : State) : (forgetReadRegs s).port = s.port := rfl
@[simp] theorem forgetReadRegs_response (s : State) : (forgetReadRegs s).response = s.response := rfl
@[simp] theorem forgetReadRegs_fault (s : State) : (forgetReadRegs s).fault = s.fault := rfl
@[simp] theorem forgetReadRegs_history (s : State) : (forgetReadRegs s).history = s.history := rfl
@[simp] theorem forgetReadRegs_origin (s : State) : (forgetReadRegs s).origin = s.origin := rfl
@[simp] theorem forgetReadRegs_moves (s : State) : (forgetReadRegs s).moves = s.moves := rfl
@[simp] theorem forgetReadRegs_draws (s : State) : (forgetReadRegs s).draws = s.draws + 1 := rfl

theorem noteWrite_tx (v : Option Nat) (s : State) : noteWrite .tx v s = { s with noteTx := v } := rfl

theorem noteWrite_rx (v : Option Nat) (s : State) : noteWrite .rx v s = { s with noteRx := v } := rfl

/-- A channel's notification after it is written. -/
@[simp] theorem noteRead_noteWrite_same (c : Channel) (v : Option Nat) (s : State) :
    noteRead c (noteWrite c v s) = v := by cases c <;> rfl

/-- Writing one channel's notification leaves the other alone. -/
theorem noteRead_noteWrite_other {c c' : Channel} (h : c' ≠ c) (v : Option Nat) (s : State) :
    noteRead c' (noteWrite c v s) = noteRead c' s := by
  cases c <;> cases c' <;> first | rfl | exact absurd rfl h

end Sys2Proof.Machine
end

