-- ==== Sys2Proof/Laws/Tables.lean ====
section
/-! SUPPORT. Tables: reading after writing, and every write keeps the canonical form. -/

namespace Sys2Proof.Machine

variable {α : Type}

@[simp] theorem tableRead_nil (dflt : α) (k : Nat) : tableRead dflt k [] = dflt := rfl

theorem tableRead_cons (dflt : α) (k k' : Nat) (v : α) (t : Table α) :
    tableRead dflt k ((k', v) :: t) = if k' = k then v else tableRead dflt k t := rfl

theorem tableRead_filter_same (dflt : α) (k : Nat) (t : Table α) :
    tableRead dflt k (t.filter fun e => e.1 != k) = dflt := by
  induction t with
  | nil => rfl
  | cons e t ih =>
    obtain ⟨k', v⟩ := e
    by_cases h : k' = k
    · simpa [List.filter_cons, h] using ih
    · simpa [List.filter_cons, h, tableRead_cons] using ih

theorem tableRead_filter_other (dflt : α) {k j : Nat} (h : j ≠ k) (t : Table α) :
    tableRead dflt j (t.filter fun e => e.1 != k) = tableRead dflt j t := by
  induction t with
  | nil => rfl
  | cons e t ih =>
    obtain ⟨k', v⟩ := e
    by_cases hk : k' = k
    · simpa [List.filter_cons, hk, tableRead_cons, Ne.symm h] using ih
    · simp [hk, tableRead_cons, ih]

theorem tableRead_insert_same (dflt v : α) (k : Nat) (t : Table α) (h : ∀ e ∈ t, e.1 ≠ k) :
    tableRead dflt k (tableInsert k v t) = v := by
  induction t with
  | nil => simp [tableInsert, tableRead_cons]
  | cons e t ih =>
    obtain ⟨k', w⟩ := e
    have hk : k' ≠ k := h (k', w) (by simp)
    by_cases hlt : k' < k
    · simpa [tableInsert, hlt, tableRead_cons, hk] using ih fun e he => h e (by simp [he])
    · simp [tableInsert, hlt, tableRead_cons]

theorem tableRead_insert_other (dflt v : α) {k j : Nat} (h : j ≠ k) (t : Table α) :
    tableRead dflt j (tableInsert k v t) = tableRead dflt j t := by
  induction t with
  | nil => simp [tableInsert, tableRead_cons, Ne.symm h]
  | cons e t ih =>
    obtain ⟨k', w⟩ := e
    by_cases hlt : k' < k
    · simp [tableInsert, hlt, tableRead_cons, ih]
    · simp [tableInsert, hlt, tableRead_cons, Ne.symm h]

variable [DecidableEq α]

/-- Reading the index just written gives the value written. -/
@[simp] theorem tableRead_write_same (dflt v : α) (k : Nat) (t : Table α) :
    tableRead dflt k (tableWrite dflt k v t) = v := by
  unfold tableWrite
  split
  · next h => rw [tableRead_filter_same, h]
  · exact tableRead_insert_same _ _ _ _ (by simp)

/-- A write leaves every other index alone. -/
@[simp] theorem tableRead_write_other (dflt v : α) {k j : Nat} (h : j ≠ k) (t : Table α) :
    tableRead dflt j (tableWrite dflt k v t) = tableRead dflt j t := by
  unfold tableWrite
  split
  · exact tableRead_filter_other _ h _
  · rw [tableRead_insert_other _ _ h, tableRead_filter_other _ h]

/-- Reading outside the indexes a list was written to. -/
theorem tableRead_writeList_outside (dflt : α) (vs : List α) :
    ∀ (k j : Nat) (t : Table α), (j < k ∨ k + vs.length ≤ j) →
      tableRead dflt j (tableWriteList dflt k vs t) = tableRead dflt j t := by
  induction vs with
  | nil => intros; rfl
  | cons v vs ih =>
    intro k j t h
    simp only [List.length_cons] at h
    rw [tableWriteList, ih (k + 1) j _ (by omega), tableRead_write_other _ _ (by omega)]

/-- Reading inside the indexes a list was written to. -/
theorem tableRead_writeList_inside (dflt : α) (vs : List α) :
    ∀ (k i : Nat) (t : Table α), i < vs.length →
      tableRead dflt (k + i) (tableWriteList dflt k vs t) = vs.getD i dflt := by
  induction vs with
  | nil => intro k i t h; simp at h
  | cons v vs ih =>
    intro k i t h
    rw [tableWriteList]
    cases i with
    | zero => rw [Nat.add_zero, tableRead_writeList_outside _ _ _ _ _ (by omega)]; simp
    | succ i =>
      have := ih (k + 1) i (tableWrite dflt k v t) (by simpa using h)
      simpa [Nat.add_comm, Nat.add_left_comm] using this

/-! ## The canonical form -/

theorem tableWf_cons (dflt : α) (k : Nat) (v : α) (t : Table α) :
    tableWf dflt ((k, v) :: t) = true ↔ v ≠ dflt ∧ (∀ e ∈ t, k < e.1) ∧ tableWf dflt t = true := by
  simp [tableWf, List.all_eq_true, and_assoc]

theorem tableWf_filter (dflt : α) (p : Nat × α → Bool) (t : Table α) (h : tableWf dflt t = true) :
    tableWf dflt (t.filter p) = true := by
  induction t with
  | nil => rfl
  | cons e t ih =>
    obtain ⟨k, v⟩ := e
    obtain ⟨hv, hk, ht⟩ := (tableWf_cons ..).1 h
    by_cases hp : p (k, v)
    · rw [List.filter_cons_of_pos hp, tableWf_cons]
      exact ⟨hv, fun e he => hk e (List.mem_of_mem_filter he), ih ht⟩
    · rw [List.filter_cons_of_neg hp]; exact ih ht

theorem mem_tableInsert (k : Nat) (v : α) (t : Table α) (e : Nat × α) :
    e ∈ tableInsert k v t ↔ e = (k, v) ∨ e ∈ t := by
  induction t with
  | nil => simp [tableInsert]
  | cons e' t ih =>
    obtain ⟨k', w⟩ := e'
    by_cases hlt : k' < k
    · simp only [tableInsert, hlt, if_true, List.mem_cons, ih]; tauto
    · simp [tableInsert, hlt]

theorem tableWf_insert (dflt v : α) (k : Nat) (t : Table α) (h : tableWf dflt t = true) (hv : v ≠ dflt)
    (hk : ∀ e ∈ t, e.1 ≠ k) : tableWf dflt (tableInsert k v t) = true := by
  induction t with
  | nil => simp [tableInsert, tableWf, hv]
  | cons e t ih =>
    obtain ⟨k', w⟩ := e
    obtain ⟨hw, hlt', ht⟩ := (tableWf_cons ..).1 h
    have hne : k' ≠ k := hk (k', w) (by simp)
    by_cases hlt : k' < k
    · simp only [tableInsert, hlt, if_true, tableWf_cons]
      refine ⟨hw, fun e he => ?_, ih ht fun e he => hk e (by simp [he])⟩
      rcases (mem_tableInsert ..).1 he with rfl | he
      · exact hlt
      · exact hlt' e he
    · simp only [tableInsert, hlt, if_false]
      refine (tableWf_cons ..).2 ⟨hv, fun e he => ?_, h⟩
      rcases List.mem_cons.1 he with rfl | he
      · show k < k'; omega
      · have := hlt' e he; omega

/-- Every table write keeps the canonical form. -/
theorem tableWf_write (dflt v : α) (k : Nat) (t : Table α) (h : tableWf dflt t = true) :
    tableWf dflt (tableWrite dflt k v t) = true := by
  unfold tableWrite
  split
  · exact tableWf_filter _ _ _ h
  · next hv => exact tableWf_insert _ _ _ _ (tableWf_filter _ _ _ h) hv (by simp)

/-- Every table write of a list keeps the canonical form. -/
theorem tableWf_writeList (dflt : α) (vs : List α) :
    ∀ (k : Nat) (t : Table α), tableWf dflt t = true → tableWf dflt (tableWriteList dflt k vs t) = true := by
  induction vs with
  | nil => intro k t h; exact h
  | cons v vs ih => intro k t h; exact ih _ _ (tableWf_write _ _ _ _ h)

/-- Equal contents are equal data: canonical tables that read alike are equal. -/
theorem table_ext (dflt : α) : ∀ (t u : Table α), tableWf dflt t = true → tableWf dflt u = true →
    (∀ k, tableRead dflt k t = tableRead dflt k u) → t = u := by
  have low : ∀ (t : Table α) (k : Nat), (∀ e ∈ t, k < e.1) → tableRead dflt k t = dflt := by
    intro t k h
    induction t with
    | nil => rfl
    | cons e t ih =>
      have hk : e.1 ≠ k := by have := h e (by simp); omega
      obtain ⟨k', v⟩ := e
      simp only [tableRead_cons, if_neg hk]
      exact ih fun e he => h e (by simp [he])
  intro t
  induction t with
  | nil =>
    intro u _ hu h
    cases u with
    | nil => rfl
    | cons e u =>
      obtain ⟨k, v⟩ := e
      obtain ⟨hv, -, -⟩ := (tableWf_cons ..).1 hu
      exact absurd (by simpa [tableRead_cons] using (h k).symm) hv
  | cons e t ih =>
    intro u ht hu h
    obtain ⟨k, v⟩ := e
    obtain ⟨hv, hk, ht'⟩ := (tableWf_cons ..).1 ht
    cases u with
    | nil => exact absurd (by simpa [tableRead_cons] using h k) hv
    | cons e' u =>
      obtain ⟨k', v'⟩ := e'
      obtain ⟨hv', hk', hu'⟩ := (tableWf_cons ..).1 hu
      have hkk : k = k' := by
        rcases Nat.lt_trichotomy k k' with hlt | heq | hgt
        · have := h k
          rw [tableRead_cons, if_pos rfl, low _ k (by
            intro e he
            rcases List.mem_cons.1 he with rfl | he
            · exact hlt
            · have := hk' e he; omega)] at this
          exact absurd this hv
        · exact heq
        · have := h k'
          rw [low _ k' (by
            intro e he
            rcases List.mem_cons.1 he with rfl | he
            · exact hgt
            · have := hk e he; omega), tableRead_cons, if_pos rfl] at this
          exact absurd this.symm hv'
      subst hkk
      have hvv : v = v' := by simpa [tableRead_cons] using h k
      subst hvv
      rw [ih u ht' hu' fun j => ?_]
      by_cases hj : k = j
      · subst hj; rw [low t k hk, low u k hk']
      · simpa [tableRead_cons, hj] using h j

end Sys2Proof.Machine
end

