-- ==== Sys2Proof/Laws/Operations.lean ====
section
/-! SUPPORT. For each shared operation one lemma that says once everything it can do; later proofs cite it instead of
unfolding the operation. -/

namespace Sys2Proof.Machine

/-! ## Configuration -/

/-- The machine's configuration is valid, whichever it is. -/
theorem params_valid : Config.params.valid = true := by
  unfold Config.params
  split
  · assumption
  · rfl

/-- The ranges of R7, one by one. -/
theorem valid_ranges {P : Params} (h : P.valid = true) :
    1 ≤ P.nStrings ∧ 1 ≤ P.deviceCount ∧ P.deviceCount + P.chainBase ≤ 63 ∧ 40 ≤ P.maxFrames ∧ P.maxFrames ≤ 64 ∧
      1 ≤ P.uidIpf ∧ P.uidIpf ≤ 4 ∧ 1 ≤ P.uidWords ∧ ceilDiv P.uidWords P.uidIpf ≤ P.maxFrames := by
  simpa [Params.valid, and_assoc] using h

/-! ## Tables of the spec, and who may run an operation -/

/-- An entry just written (R23). -/
@[simp] theorem ctRead_ctWrite_same (a : Addr) (v : Counter) (s : State) : ctRead a (ctWrite a v s) = v := by
  simp [ctRead]

/-- Another entry (R23). -/
theorem ctRead_ctWrite_other {a b : Addr} (h : b ≠ a) (v : Counter) (s : State) :
    ctRead b (ctWrite a v s) = ctRead b s :=
  tableRead_write_other _ _ (fun e => h (BitVec.eq_of_toNat_eq e)) _

/-- A counter read depends on the counter table alone. -/
theorem ctRead_congr {s t : State} (h : s.ct = t.ct) (a : Addr) : ctRead a s = ctRead a t := by
  simp [ctRead, h]

/-- The entry after its advance (R131). -/
theorem ctRead_ctrAdvance_same (a : Addr) (s : State) : ctRead a (ctrAdvance a s) = ctRead a s + 1 :=
  ctRead_ctWrite_same ..

/-- Another entry after an advance (R131). -/
theorem ctRead_ctrAdvance_other {a b : Addr} (h : b ≠ a) (s : State) : ctRead b (ctrAdvance a s) = ctRead b s :=
  ctRead_ctWrite_other h ..

/-- The entry after its reset (R132). -/
theorem ctRead_ctrReset_same (a : Addr) (s : State) : ctRead a (ctrReset a s) = 0 :=
  ctRead_ctWrite_same ..

/-- Another entry after a reset (R132). -/
theorem ctRead_ctrReset_other {a b : Addr} (h : b ≠ a) (s : State) : ctRead b (ctrReset a s) = ctRead b s :=
  ctRead_ctWrite_other h ..

/-- An internal operation from a caller (R93). -/
theorem internalOnly_caller {s : State} (run : State → State) (h : s.origin = .caller) :
    internalOnly run s = raiseFault .illegalOperation s := by
  simp only [internalOnly, h]

/-- An internal operation from a test harness (R93). -/
theorem internalOnly_harness {s : State} (run : State → State) (h : s.origin = .harness) : internalOnly run s = run s := by
  simp only [internalOnly, h]

/-- Everything an internal operation can do (R93). -/
theorem internalOnly_cases (run : State → State) (s : State) :
    internalOnly run s = raiseFault .illegalOperation s ∨ internalOnly run s = run s := by
  unfold internalOnly
  split
  · exact .inl rfl
  · exact .inr rfl

/-- Everything the checksum operations can do (R102, R103). -/
theorem crcComputeOp_cases (P : Params) (words : List Word) (s : State) :
    (words.length ≤ 6 ∧ crcComputeOp P words s = respond (.checksum (P.crc words)) s) ∨
    (6 < words.length ∧ crcComputeOp P words s = raiseFault .illegalOperation s) := by
  unfold crcComputeOp
  by_cases h : words.length ≤ maxCrcWords
  · exact .inl ⟨h, if_pos h⟩
  · exact .inr ⟨Nat.not_le.1 h, if_neg h⟩

theorem crcVerifyOp_cases (P : Params) (words : List Word) (expected : Word) (s : State) :
    (words.length ≤ 6 ∧ crcVerifyOp P words expected s = respond (.verified (P.crc words == expected)) s) ∨
    (6 < words.length ∧ crcVerifyOp P words expected s = raiseFault .illegalOperation s) := by
  unfold crcVerifyOp
  by_cases h : words.length ≤ maxCrcWords
  · exact .inl ⟨h, if_pos h⟩
  · exact .inr ⟨Nat.not_le.1 h, if_neg h⟩

/-! ## Codec -/

theorem commandOfCode_code (cmd : Command) : commandOfCode cmd.code = cmd := by cases cmd <;> rfl

/-- Fields that have their widths always compose (R110, R111). -/
theorem compose_fields (P : Params) (cmd : Command) (madd : BitVec 1) (ra : Addr) (reg : Word) (length : BitVec 2)
    (values : Quad) :
    compose P cmd.code.toNat madd.toNat ra.toNat reg.toNat length.toNat values =
      .ok (composeWords P cmd madd ra reg length values) := by
  have h1 := length.isLt
  have h2 := ra.isLt
  have h3 := madd.isLt
  have h4 := cmd.code.isLt
  have h5 := reg.isLt
  rw [compose, if_pos (by omega)]
  simp [commandOfCode_code]

/-- What a compose gives, if it gives a message. -/
theorem compose_ok {P : Params} {cmd madd ra reg length : Nat} {values : Quad} {m : List Word}
    (h : compose P cmd madd ra reg length values = .ok m) :
    length ≤ 3 ∧ ra ≤ 127 ∧ madd ≤ 1 ∧ cmd ≤ 3 ∧ reg ≤ 0xFFFF ∧
      m = composeWords P (commandOfCode (BitVec.ofNat 2 cmd)) (BitVec.ofNat 1 madd) (BitVec.ofNat 7 ra)
        (BitVec.ofNat 16 reg) (BitVec.ofNat 2 length) values := by
  unfold compose at h
  split at h
  · next hc => exact ⟨hc.1, hc.2.1, hc.2.2.1, hc.2.2.2.1, hc.2.2.2.2, (Except.ok.inj h).symm⟩
  · cases h

/-- Composing a request word by word: one payload word, four words in all (R121, R122). -/
theorem compose_single (P : Params) (cmd : Command) (ra : Addr) (reg w : Word) :
    compose P cmd.code.toNat 0 ra.toNat reg.toNat 0 ⟨w, 0, 0, 0⟩ =
      .ok [pack cmd 0 ra 0 0, reg, w, P.crc [pack cmd 0 ra 0 0, reg, w]] := by
  have h := compose_fields P cmd 0 ra reg 0 ⟨w, 0, 0, 0⟩
  simpa [composeWords, withChecksum, composeBody, composePayload, quadWords] using h

/-- Everything a decode can do (R113). -/
theorem decodeWords_cases (P : Params) (words : List Word) (s : State) :
    (7 < words.length ∧ decodeWords P words s = .error .programmingError) ∨
    (words.length = 0 ∧ decodeWords P words s = .ok (forgetDecoded s, .timeout)) ∨
    (0 < words.length ∧ words.length < 4 ∧ decodeWords P words s = .ok (forgetDecoded s, .shortMessage)) ∨
    (4 ≤ words.length ∧ words.length ≤ 7 ∧ decodeWords P words s = .ok (decodeFramed P words s)) := by
  unfold decodeWords
  by_cases h7 : maxMsgWords < words.length
  · exact .inl ⟨h7, if_pos h7⟩
  · rw [if_neg h7]
    have h7' : words.length ≤ 7 := Nat.not_lt.1 h7
    by_cases h0 : words.length = 0
    · exact .inr (.inl ⟨h0, if_pos h0⟩)
    · rw [if_neg h0]
      by_cases h4 : words.length < 4
      · exact .inr (.inr (.inl ⟨by omega, h4, if_pos h4⟩))
      · exact .inr (.inr (.inr ⟨by omega, h7', if_neg h4⟩))

/-- A framed decode, with `ADVANCE_ON_WRONG_CRC = true`: the fields, one advance of the decoded address's entry (R113, R116). -/
theorem decodeFramed_eq (P : Params) (words : List Word) (s : State) :
    decodeFramed P words s =
      (ctrAdvance (fieldsOf words).ra { s with d := fieldsOf words },
        framedStatus P (checksumOk P words) (ctRead (fieldsOf words).ra s) (fieldsOf words)) := by
  simp [decodeFramed, advanceOnWrongCrc]

/-- What a decode may change: the decoder registers, the counter table and the count of drawn values (R116). -/
theorem decodeWords_changes {P : Params} {words : List Word} {s t : State} {st : Status}
    (h : decodeWords P words s = .ok (t, st)) : t = { s with d := t.d, ct := t.ct, draws := t.draws } := by
  rcases decodeWords_cases P words s with ⟨-, h'⟩ | ⟨-, h'⟩ | ⟨-, -, h'⟩ | ⟨-, -, h'⟩ <;> rw [h'] at h
  · cases h
  · cases h; rfl
  · cases h; rfl
  · rw [decodeFramed_eq] at h; cases h; rfl

/-- `DECOMPOSE`: a fault for an overlong message, else the result of the decode (R113, R117). -/
theorem decomposeOp_cases (P : Params) (words : List Word) (s : State) :
    (7 < words.length ∧ decomposeOp P words s = raiseFault .programmingError s) ∨
    (words.length ≤ 7 ∧ ∃ t st, decodeWords P words s = .ok (t, st) ∧
      decomposeOp P words s = respond (.decoded (if words.length < 4 then none else some t.d) st) t) := by
  unfold decomposeOp
  rcases decodeWords_cases P words s with ⟨h, h'⟩ | ⟨h, h'⟩ | ⟨-, h, h'⟩ | ⟨-, h, h'⟩ <;> rw [h']
  · exact .inl ⟨h, rfl⟩
  all_goals exact .inr ⟨by omega, _, _, rfl, rfl⟩

/-! ## Gate -/

/-- Everything the claim of the bus can do (R141). -/
theorem gateClaim_cases (op : Instr) (c : Channel) (nRx : Nat) (m : List Word) (s : State) :
    (s.busy = .idle ∧ gateClaim op c nRx m s =
      { s with busy := .busy, txBuf := quadOf m, opState := .running op (.start c nRx) }) ∨
    (s.busy = .busy ∧ gateClaim op c nRx m s = raiseFault .busBusy s) := by
  cases h : s.busy
  · exact .inl ⟨rfl, by simp [gateClaim, acquire, h]⟩
  · exact .inr ⟨rfl, by simp [gateClaim, acquire, h]⟩

/-- A write up to the transfer start is a claim of the bus with the composed message (R143). -/
theorem writeBegin_eq (P : Params) (op : Instr) (ra : Addr) (reg value : Word) (s : State) :
    writeBegin P op ra reg value s =
      gateClaim op .tx 0 [pack .write 0 ra 0 0, reg, value, P.crc [pack .write 0 ra 0 0, reg, value]] s := by
  rw [writeBegin, compose_single]

/-- A read up to the transfer start: refused by the check, or a claim of the bus with the one request message (R160 to
R162). -/
theorem readBegin_eq (P : Params) (op : Instr) (ra : Addr) (itemCount ipf : Nat) (reg : Word) (s : State) :
    readBegin P op ra itemCount ipf reg s =
      match readCheck P itemCount ipf with
      | some f => raiseFault f s
      | none =>
        gateClaim op .rx (rxLength itemCount ipf)
          [pack .read 0 ra 0 0, reg, paramWord ipf itemCount,
            P.crc [pack .read 0 ra 0 0, reg, paramWord ipf itemCount]]
          { s with rd := readLatch ra itemCount ipf reg s.rd } := by
  rw [readBegin]
  cases readCheck P itemCount ipf with
  | some f => rfl
  | none => simp only [compose_single]

/-- The check passes exactly inside the caps (R161). -/
theorem readCheck_none {P : Params} {itemCount ipf : Nat} :
    readCheck P itemCount ipf = none ↔
      1 ≤ ipf ∧ ipf ≤ 4 ∧ 1 ≤ itemCount ∧ frameCount itemCount ipf ≤ P.maxFrames := by
  unfold readCheck maxIpf
  split
  · simp only [reduceCtorEq, false_iff]; omega
  · split
    · simp only [reduceCtorEq, false_iff]; omega
    · split
      · simp only [reduceCtorEq, false_iff]; omega
      · simp only [true_iff]; omega

/-- The only reason the check refuses with (R161). -/
theorem readCheck_some {P : Params} {itemCount ipf : Nat} {f : Fault} (h : readCheck P itemCount ipf = some f) :
    f = .programmingError := by
  unfold readCheck at h
  split at h
  · exact (Option.some.inj h).symm
  · split at h
    · exact (Option.some.inj h).symm
    · split at h
      · exact (Option.some.inj h).symm
      · cases h

/-- The wait ended by a completion, channel by channel (R144). -/
theorem waitDone_tx (op : Instr) (r : Nat) (s : State) :
    waitDone op .tx r s = { s with noteTx := none, opState := .running op .written } := rfl

theorem waitDone_rx (op : Instr) (r : Nat) (s : State) :
    waitDone op .rx r s = { s with noteRx := none, opState := .running op .frames, rd := beginWalk r s.rd } := rfl

/-- The wait ended by a timeout, channel by channel (R144, R145). -/
theorem waitTimedOut_tx (P : Params) (op : Instr) (s : State) :
    waitTimedOut P op .tx s =
      { s with busy := .idle, opState := .running op .written, history := .timedOut .tx P.txTimeout :: s.history } := rfl

theorem waitTimedOut_rx (P : Params) (op : Instr) (s : State) :
    waitTimedOut P op .rx s =
      { s with
        busy := .idle, opState := .running op .frames, rd := readTimedOut s.rd
        history := .timedOut .rx P.rxTimeout :: s.history } := rfl

/-- The completion agent's step, kind by kind (R146). -/
theorem completion_eq (t : Transfer) (ws : List Word) (s : State) :
    completion t ws s =
      match t.kind with
      | .tx =>
        { s with
          inflight := s.inflight.erase t, busy := .idle, noteTx := some 0
          history := .notification .tx 0 :: s.history }
      | .rx =>
        { s with
          inflight := s.inflight.erase t, busy := .idle, noteRx := some ws.length
          rxBuf := tableWriteList 0 0 ws s.rxBuf
          history := .notification .rx ws.length :: s.history } := by
  unfold completion
  cases t.kind <;> rfl

/-- What the claim of the bus may change (R140, R141). -/
theorem gateClaim_changes (op : Instr) (c : Channel) (nRx : Nat) (m : List Word) (s : State) :
    gateClaim op c nRx m s = { s with
      busy := (gateClaim op c nRx m s).busy, txBuf := (gateClaim op c nRx m s).txBuf
      opState := (gateClaim op c nRx m s).opState, fault := (gateClaim op c nRx m s).fault } := by
  rcases gateClaim_cases op c nRx m s with ⟨-, h⟩ | ⟨-, h⟩
  · rw [h]
  · rw [h]; rfl

/-- What a write may change before its transfer starts (R143). -/
theorem writeBegin_changes (P : Params) (op : Instr) (ra : Addr) (reg value : Word) (s : State) :
    writeBegin P op ra reg value s = { s with
      busy := (writeBegin P op ra reg value s).busy, txBuf := (writeBegin P op ra reg value s).txBuf
      opState := (writeBegin P op ra reg value s).opState, fault := (writeBegin P op ra reg value s).fault } := by
  rw [writeBegin_eq]; exact gateClaim_changes ..

/-- What a read may change before its transfer starts (R160). -/
theorem readBegin_changes (P : Params) (op : Instr) (ra : Addr) (itemCount ipf : Nat) (reg : Word) (s : State) :
    readBegin P op ra itemCount ipf reg s = { s with
      busy := (readBegin P op ra itemCount ipf reg s).busy, txBuf := (readBegin P op ra itemCount ipf reg s).txBuf
      opState := (readBegin P op ra itemCount ipf reg s).opState
      fault := (readBegin P op ra itemCount ipf reg s).fault, rd := (readBegin P op ra itemCount ipf reg s).rd } := by
  rw [readBegin_eq]
  split
  · rfl
  · rw [gateClaim_changes]

/-- A write on an idle bus claims it and stages its message (R141, R143). -/
theorem writeBegin_idle {P : Params} {op : Instr} {ra : Addr} {reg value : Word} {s : State} (h : s.busy = .idle) :
    writeBegin P op ra reg value s = { s with
      busy := .busy, txBuf := writeMessage P ra reg value, opState := .running op (.start .tx 0) } := by
  rw [writeBegin_eq]
  rcases gateClaim_cases op .tx 0
    [pack .write 0 ra 0 0, reg, value, P.crc [pack .write 0 ra 0 0, reg, value]] s with ⟨-, h'⟩ | ⟨h', -⟩
  · rw [h']; rfl
  · rw [h] at h'; cases h'

/-- A read inside the caps on an idle bus claims it and stages its request (R141, R160, R162). -/
theorem readBegin_idle {P : Params} {op : Instr} {ra : Addr} {itemCount ipf : Nat} {reg : Word} {s : State}
    (hc : readCheck P itemCount ipf = none) (h : s.busy = .idle) :
    readBegin P op ra itemCount ipf reg s = { s with
      rd := readLatch ra itemCount ipf reg s.rd, busy := .busy, txBuf := readMessage P ra itemCount ipf reg
      opState := .running op (.start .rx (rxLength itemCount ipf)) } := by
  rw [readBegin_eq, hc]
  dsimp only
  rcases gateClaim_cases op .rx (rxLength itemCount ipf)
    [pack .read 0 ra 0 0, reg, paramWord ipf itemCount, P.crc [pack .read 0 ra 0 0, reg, paramWord ipf itemCount]]
    { s with rd := readLatch ra itemCount ipf reg s.rd } with ⟨-, h'⟩ | ⟨h', -⟩
  · rw [h']; rfl
  · exact absurd (h.symm.trans h') (by simp)

/-! ## Read engine -/

/-- Everything an answer frame can do (R160, R169). -/
theorem frameStep_cases (P : Params) (s : State) :
    (7 < (frameWords s).length ∧ frameStep P s = raiseFault .programmingError s) ∨
    (∃ s' sd, decodeWords P (frameWords s) s = .ok (s', sd) ∧
      ((answerStatus sd s'.d s'.rd.ra (expectedReg s'.rd.reg s'.rd.k s'.rd.ipf) = .ok ∧
          frameStep P s = { s' with rd := copyItems s'.d.payload s'.rd }) ∨
        (∃ st, answerStatus sd s'.d s'.rd.ra (expectedReg s'.rd.reg s'.rd.k s'.rd.ipf) = st ∧ st ≠ .ok ∧
          frameStep P s = { s' with rd := { s'.rd with st := st } }))) := by
  cases h : decodeWords P (frameWords s) s with
  | error f =>
    rcases decodeWords_cases P (frameWords s) s with ⟨h7, h'⟩ | ⟨-, h'⟩ | ⟨-, -, h'⟩ | ⟨-, -, h'⟩ <;> rw [h'] at h
    · cases h; exact .inl ⟨h7, by simp [frameStep, h']⟩
    all_goals cases h
  | ok r =>
    obtain ⟨s', sd⟩ := r
    refine .inr ⟨s', sd, rfl, ?_⟩
    simp only [frameStep, h]
    split
    · next ha => exact .inl ⟨ha, rfl⟩
    · next hne => exact .inr ⟨_, rfl, hne, rfl⟩

/-- A frame that passes every check (R168). -/
theorem frameStep_passes {P : Params} {s t : State} {sd : Status} (hd : decodeWords P (frameWords s) s = .ok (t, sd))
    (ha : answerStatus sd t.d s.rd.ra (expectedReg s.rd.reg s.rd.k s.rd.ipf) = .ok) :
    frameStep P s = { t with rd := copyItems t.d.payload s.rd } := by
  have hrd : t.rd = s.rd := by rw [decodeWords_changes hd]
  rcases frameStep_cases P s with ⟨h7, -⟩ | ⟨t', sd', hd', h⟩
  · rcases decodeWords_cases P (frameWords s) s with ⟨-, h'⟩ | ⟨h', -⟩ | ⟨-, h', -⟩ | ⟨-, h', -⟩
    · rw [h'] at hd; cases hd
    all_goals omega
  · rw [hd] at hd'
    cases hd'
    rcases h with ⟨-, h⟩ | ⟨st, h, hne, -⟩
    · rw [h, hrd]
    · rw [hrd] at h; exact absurd (h.symm.trans ha) hne

/-- A frame that fails a check (R169). -/
theorem frameStep_fails {P : Params} {s t : State} {sd st : Status} (hd : decodeWords P (frameWords s) s = .ok (t, sd))
    (ha : answerStatus sd t.d s.rd.ra (expectedReg s.rd.reg s.rd.k s.rd.ipf) = st) (hne : st ≠ .ok) :
    frameStep P s = { t with rd := { s.rd with st := st } } := by
  have hrd : t.rd = s.rd := by rw [decodeWords_changes hd]
  rcases frameStep_cases P s with ⟨h7, -⟩ | ⟨t', sd', hd', h⟩
  · rcases decodeWords_cases P (frameWords s) s with ⟨-, h'⟩ | ⟨h', -⟩ | ⟨-, h', -⟩ | ⟨-, h', -⟩
    · rw [h'] at hd; cases hd
    all_goals omega
  · rw [hd] at hd'
    cases hd'
    rcases h with ⟨h, -⟩ | ⟨st', h, -, h'⟩
    · rw [hrd] at h; exact absurd (ha.symm.trans h) hne
    · rw [hrd] at h; rw [h', hrd, ← h, ha]

/-- What an answer frame may change (R160): decoder registers, counter table, read-engine registers, the count of drawn values,
and the fault. -/
theorem frameStep_changes (P : Params) (s : State) :
    frameStep P s = { s with
      d := (frameStep P s).d, ct := (frameStep P s).ct, draws := (frameStep P s).draws
      rd := (frameStep P s).rd, fault := (frameStep P s).fault } := by
  rcases frameStep_cases P s with ⟨-, h⟩ | ⟨t, sd, hd, ⟨-, h⟩ | ⟨st, -, -, h⟩⟩
  · rw [h]; rfl
  all_goals rw [h, decodeWords_changes hd]

/-! ## Enumeration -/

/-- The `addressed` bit just written, and any other (R28). -/
@[simp] theorem addressedRead_write_same (p : Nat) (b : Bool) (s : State) :
    addressedRead p (addressedWrite p b s) = b := by
  simp [addressedRead]

theorem addressedRead_write_other {p q : Nat} (h : q ≠ p) (b : Bool) (s : State) :
    addressedRead q (addressedWrite p b s) = addressedRead q s :=
  tableRead_write_other _ _ h _

/-- The reads that an enumeration phase issues are inside the caps, in every valid configuration (R7, R161). -/
theorem readCheck_single : readCheck Config.params 1 1 = none := by
  obtain ⟨-, -, -, h, -⟩ := valid_ranges params_valid
  exact readCheck_none.2 ⟨by omega, by omega, by omega, by show (1 + 1 - 1) / 1 ≤ _; omega⟩

theorem readCheck_uid : readCheck Config.params Config.params.uidWords Config.params.uidIpf = none := by
  obtain ⟨-, -, -, -, -, h1, h4, hu, hf⟩ := valid_ranges params_valid
  exact readCheck_none.2 ⟨h1, h4, hu, hf⟩

/-- The phase rule of a known phase (R181). -/
theorem phaseStep_eq {ph : Phase} (P : Params) (op : Instr) {s : State} :
    s.phase = ph → phaseStep P op s =
      match ph with
      | .idle => s
      | .sleep => writeBegin P op (positionAddr P s.pos) P.regSysMode P.sleepValue s
      | .probe1 => readBegin P op (positionAddr P s.pos) 1 1 P.regStatus s
      | .wake => toPhase op .probe2 (emit (.delay .wakeSettle P.wakeSettle) s)
      | .probe2 => readBegin P op (positionAddr P s.pos) 1 1 P.regStatus s
      | .assign => writeBegin P op broadcastAddr P.regDevAddr (assignValue P s.pos) s
      | .verify => readBegin P op (positionAddr P s.pos) 1 1 P.regVersion s
      | .config => writeBegin P op (positionAddr P s.pos) P.regComTimeout P.comTimeoutValue s
      | .uid => readBegin P op (positionAddr P s.pos) P.uidWords P.uidIpf P.regUid s
      | .done => enumerateReturn P s := by
  rintro rfl
  unfold phaseStep
  cases s.phase <;> rfl

/-- What a phase rule may change up to its transfer start (R181). -/
theorem phaseStep_changes (P : Params) (op : Instr) (s : State) :
    phaseStep P op s = { s with
      busy := (phaseStep P op s).busy, txBuf := (phaseStep P op s).txBuf, opState := (phaseStep P op s).opState
      fault := (phaseStep P op s).fault, rd := (phaseStep P op s).rd, phase := (phaseStep P op s).phase
      pos := (phaseStep P op s).pos, response := (phaseStep P op s).response
      history := (phaseStep P op s).history } := by
  unfold phaseStep
  cases s.phase <;> dsimp only <;> first
    | rfl
    | rw [writeBegin_changes]
    | rw [readBegin_changes]

/-- Everything a phase can do with its returned write (R182, R185, R187). -/
theorem phaseWritten_cases (P : Params) (op : Instr) (s : State) :
    (s.phase = .sleep ∧ phaseWritten P op s = { s with opState := .running op .settle }) ∨
    (s.phase = .assign ∧ phaseWritten P op s = toPhase op .verify (ctrReset (positionAddr P s.pos) s)) ∨
    (s.phase = .config ∧ phaseWritten P op s = toPhase op .uid s) ∨
    (phaseTransfers s.phase .tx = false ∧ phaseWritten P op s = s) := by
  unfold phaseWritten
  cases h : s.phase <;> simp [phaseTransfers]

/-- Everything a phase can do with its returned read (R183, R184, R186, R187). -/
theorem phaseRead_cases (P : Params) (op : Instr) (acc : List Word) (st : Status) (s : State) :
    ((s.phase = .probe1 ∨ s.phase = .probe2) ∧ st = .ok ∧ phaseRead P op acc st s = probeOk P op s) ∨
    (s.phase = .probe1 ∧ st ≠ .ok ∧ phaseRead P op acc st s = toPhase op .wake s) ∨
    (s.phase = .probe2 ∧ st ≠ .ok ∧ phaseRead P op acc st s = toPhase op .assign s) ∨
    (s.phase = .verify ∧ phaseRead P op acc st s = toPhase op .config (addressedWrite s.pos (st == .ok) s)) ∨
    (s.phase = .uid ∧ s.pos < P.deviceCount ∧
      phaseRead P op acc st s = toPhase op .sleep { uidStore s.pos acc s with pos := s.pos + 1 }) ∨
    (s.phase = .uid ∧ ¬s.pos < P.deviceCount ∧ phaseRead P op acc st s = toPhase op .done (uidStore s.pos acc s)) ∨
    (phaseTransfers s.phase .rx = false ∧ phaseRead P op acc st s = s) := by
  unfold phaseRead nextPosition
  by_cases hst : st = .ok <;> by_cases hp : s.pos < P.deviceCount <;> cases h : s.phase <;>
    simp [phaseTransfers, hst, hp]

/-- What a phase may change with its returned read. -/
theorem phaseRead_changes (P : Params) (op : Instr) (acc : List Word) (st : Status) (s : State) :
    phaseRead P op acc st s = { s with
      ct := (phaseRead P op acc st s).ct, addressed := (phaseRead P op acc st s).addressed
      uid := (phaseRead P op acc st s).uid, uidCount := (phaseRead P op acc st s).uidCount
      pos := (phaseRead P op acc st s).pos, phase := (phaseRead P op acc st s).phase
      opState := (phaseRead P op acc st s).opState } := by
  rcases phaseRead_cases P op acc st s with ⟨-, -, h⟩ | ⟨-, -, h⟩ | ⟨-, -, h⟩ | ⟨-, h⟩ | ⟨-, -, h⟩ | ⟨-, -, h⟩ | ⟨-, h⟩ <;>
    rw [h] <;> rfl

/-- Everything the return of a write can do (R143, R205). -/
theorem writeReturns_cases (P : Params) (op : Instr) (s : State) :
    ((∃ ra reg value, op = .write ra reg value) ∧ writeReturns P op s = respond .done s) ∨
    (op = .enumerate ∧ writeReturns P op s = phaseWritten P .enumerate s) ∨
    (transfersWith op .tx = false ∧ writeReturns P op s = s) := by
  cases op
  case write ra reg value => exact .inl ⟨⟨ra, reg, value, rfl⟩, rfl⟩
  case enumerate => exact .inr (.inl ⟨rfl, rfl⟩)
  all_goals exact .inr (.inr ⟨rfl, rfl⟩)

/-- Everything the return of a read can do (R163, R171, R205). -/
theorem readReturns_cases (P : Params) (op : Instr) (s : State) :
    ((∃ ra reg, op = .read ra reg) ∧
      readReturns P op s =
        respond (.value (readValue s.draws s.rd.acc s.rd.st) s.rd.st) (forgetReadRegs s)) ∨
    ((∃ ra itemCount ipf reg, op = .readMultiple ra itemCount ipf reg) ∧
      readReturns P op s = respond (.values s.rd.acc s.rd.st) (forgetReadRegs s)) ∨
    (op = .enumerate ∧ readReturns P op s = phaseRead P .enumerate s.rd.acc s.rd.st (forgetReadRegs s)) ∨
    (transfersWith op .rx = false ∧ readReturns P op s = s) := by
  cases op
  case read ra reg => exact .inl ⟨⟨ra, reg, rfl⟩, rfl⟩
  case readMultiple ra n ipf reg => exact .inr (.inl ⟨⟨ra, n, ipf, reg, rfl⟩, rfl⟩)
  case enumerate => exact .inr (.inr (.inl ⟨rfl, rfl⟩))
  all_goals exact .inr (.inr (.inr ⟨rfl, rfl⟩))

/-! ## The agents and the step -/

/-- Everything the engine can do inside an operation (R5). -/
theorem engineStep_cases {P : Params} {s s' : State} (h : engineStep P s = some s') :
    (∃ op c r, s.opState = .waiting op c ∧ noteRead c s = some r ∧ s' = waitDone op c r s) ∨
    (∃ op, s.opState = .running op .phase ∧ s' = phaseStep P op s) ∨
    (∃ op, s.opState = .running op .written ∧ s' = writeReturns P op s) ∨
    (∃ op, s.opState = .running op .settle ∧ s' = settleStep P op s) ∨
    (∃ op, s.opState = .running op .frames ∧ walkOver s.rd = true ∧ s' = readReturns P op s) ∨
    (∃ op, s.opState = .running op .frames ∧ walkOver s.rd = false ∧ s' = frameStep P s) := by
  unfold engineStep at h
  split at h
  · cases h
  · next op c hop =>
    split at h
    · next r hr => exact .inl ⟨op, c, r, hop, hr, (Option.some.inj h).symm⟩
    · cases h
  · cases h
  · cases h
  · next op hop => exact .inr (.inl ⟨op, hop, (Option.some.inj h).symm⟩)
  · next op hop => exact .inr (.inr (.inl ⟨op, hop, (Option.some.inj h).symm⟩))
  · next op hop => exact .inr (.inr (.inr (.inl ⟨op, hop, (Option.some.inj h).symm⟩)))
  · next op hop =>
    cases hw : walkOver s.rd
    · exact .inr (.inr (.inr (.inr (.inr ⟨op, hop, rfl, by simpa [hw] using h.symm⟩))))
    · exact .inr (.inr (.inr (.inr (.inl ⟨op, hop, rfl, by simpa [hw] using h.symm⟩))))

/-- What the engine's step inside an operation never changes: the port, the records in flight, the received words, the string
and the model's own moves (R90, R149). -/
theorem engineStep_keeps {P : Params} {s s' : State} (h : engineStep P s = some s') :
    s'.string = s.string ∧ s'.port = s.port ∧ s'.inflight = s.inflight ∧ s'.rxBuf = s.rxBuf ∧ s'.origin = s.origin ∧
      s'.moves = s.moves := by
  rcases engineStep_cases h with ⟨op, c, r, -, -, e⟩ | ⟨op, -, e⟩ | ⟨op, -, e⟩ | ⟨op, -, e⟩ | ⟨op, -, -, e⟩ |
    ⟨op, -, -, e⟩
  · subst e; cases c <;> exact ⟨rfl, rfl, rfl, rfl, rfl, rfl⟩
  · rw [e.trans (phaseStep_changes P op s)]; exact ⟨rfl, rfl, rfl, rfl, rfl, rfl⟩
  · rcases writeReturns_cases P op s with ⟨-, h⟩ | ⟨-, h⟩ | ⟨-, h⟩
    · rw [e.trans h]; exact ⟨rfl, rfl, rfl, rfl, rfl, rfl⟩
    · rcases phaseWritten_cases P .enumerate s with ⟨-, h'⟩ | ⟨-, h'⟩ | ⟨-, h'⟩ | ⟨-, h'⟩ <;>
        (rw [e.trans (h.trans h')]; exact ⟨rfl, rfl, rfl, rfl, rfl, rfl⟩)
    · rw [e.trans h]; exact ⟨rfl, rfl, rfl, rfl, rfl, rfl⟩
  · subst e; exact ⟨rfl, rfl, rfl, rfl, rfl, rfl⟩
  · rcases readReturns_cases P op s with ⟨-, h⟩ | ⟨-, h⟩ | ⟨-, h⟩ | ⟨-, h⟩
    · rw [e.trans h]; exact ⟨rfl, rfl, rfl, rfl, rfl, rfl⟩
    · rw [e.trans h]; exact ⟨rfl, rfl, rfl, rfl, rfl, rfl⟩
    · rw [e.trans (h.trans (phaseRead_changes P .enumerate s.rd.acc s.rd.st (forgetReadRegs s)))]
      exact ⟨rfl, rfl, rfl, rfl, rfl, rfl⟩
    · rw [e.trans h]; exact ⟨rfl, rfl, rfl, rfl, rfl, rfl⟩
  · rw [e.trans (frameStep_changes P s)]; exact ⟨rfl, rfl, rfl, rfl, rfl, rfl⟩

/-- Everything the other agents can do (R35, R146). -/
theorem agentMove_cases {P : Params} {m : Move} {s s' : State} (h : agentMove P m s = some s') :
    (∃ r, m = .request r ∧ s.port = none ∧ s' = { s with port := some r }) ∨
    (∃ a op c n, m = .answer a ∧ s.opState = .running op (.start c n) ∧ s' = startTransfer P op c n a s) ∨
    (∃ t ws, m = .complete t ws ∧ completionEnabled t ws s = true ∧ s' = completion t ws s) ∨
    (∃ op c, m = .timeout c ∧ s.opState = .waiting op c ∧ noteRead c s = none ∧ s' = waitTimedOut P op c s) := by
  cases m with
  | engine => cases h
  | reset => cases h
  | request r =>
    cases hp : s.port with
    | none => exact .inl ⟨r, rfl, rfl, by simpa [agentMove, hp] using h.symm⟩
    | some r' => simp [agentMove, hp] at h
  | answer a =>
    cases ho : s.opState with
    | ready => simp [agentMove, ho] at h
    | waiting op c => simp [agentMove, ho] at h
    | running op pt =>
      cases pt with
      | start c n => exact .inr (.inl ⟨a, op, c, n, rfl, rfl, by simpa [agentMove, ho] using h.symm⟩)
      | _ => simp [agentMove, ho] at h
  | complete t ws =>
    by_cases he : completionEnabled t ws s = true
    · exact .inr (.inr (.inl ⟨t, ws, rfl, he, by simpa [agentMove, he] using h.symm⟩))
    · simp [agentMove, he] at h
  | timeout c =>
    cases ho : s.opState with
    | ready => simp [agentMove, ho] at h
    | running op pt => simp [agentMove, ho] at h
    | waiting op c' =>
      by_cases he : c = c' ∧ noteRead c s = none
      · obtain ⟨rfl, hn⟩ := he
        exact .inr (.inr (.inr ⟨op, c, rfl, rfl, hn, by simpa [agentMove, ho, hn] using h.symm⟩))
      · simp [agentMove, ho, he] at h

end Sys2Proof.Machine
end

