-- ==== Sys2Proof/Laws/Step.lean ====
section
/-! SUPPORT. What a step can do, said once: the inversion lemmas of the step function. -/

namespace Sys2Proof.Machine

/-- Every instruction has a meaning that answers a next state; a fault of the block is a next state too (R203). -/
theorem exec_is_next (i : Instr) (s : State) : ∃ t, exec i s = .next t := by
  cases i <;> exact ⟨_, rfl⟩

/-- Everything an instruction can do in the step that takes it: a fault; a result, with at most the decoder registers and one
counter entry written; a claim of the bus for a write or for a read; or the start of a walk. -/
theorem exec_cases {i : Instr} {s t : State} (h : exec i s = .next t) :
    (∃ f, t = raiseFault f s ∧ (f = .programmingError ∨ f = .illegalOperation)) ∨
    (∃ r s1, t = respond r s1 ∧ (s1 = s ∨ (∃ words st, decodeWords Config.params words s = .ok (s1, st)) ∨
      (∃ ra, s1 = ctrAdvance ra s) ∨ ∃ ra, s1 = ctrReset ra s)) ∨
    (∃ ra reg value, i = .write ra reg value ∧ t = writeBegin Config.params i ra reg value (accept i s)) ∨
    (∃ ra n ipf reg, (i = .read ra reg ∧ n = 1 ∧ ipf = 1 ∨ ∃ nw ipfw, i = .readMultiple ra nw ipfw reg ∧
        n = nw.toNat ∧ ipf = ipfw.toNat) ∧
      t = readBegin Config.params i ra n ipf reg (accept i s)) ∨
    (i = .enumerate ∧ t = enumerateBegin i (accept i s)) := by
  have hd : ∀ words u, u = internalOnly (decomposeOp Config.params words) s →
      (∃ f, u = raiseFault f s ∧ (f = .programmingError ∨ f = .illegalOperation)) ∨
      (∃ r s1, u = respond r s1 ∧ (s1 = s ∨ (∃ words st, decodeWords Config.params words s = .ok (s1, st)) ∨
        (∃ ra, s1 = ctrAdvance ra s) ∨ ∃ ra, s1 = ctrReset ra s)) := by
    rintro words u rfl
    rcases internalOnly_cases (decomposeOp Config.params words) s with e | e
    · exact .inl ⟨_, e, .inr rfl⟩
    · rw [e]
      rcases decomposeOp_cases Config.params words s with ⟨-, e⟩ | ⟨-, s1, st, hw, e⟩
      · exact .inl ⟨_, e, .inl rfl⟩
      · exact .inr ⟨_, s1, e, .inr (.inl ⟨words, st, hw⟩)⟩
  have hd' : ∀ words u, u = internalOnly (decomposeOp Config.params words) s → _ := fun words u hu =>
    (hd words u hu).imp id (fun h => Or.inl (b := (∃ ra reg value, i = .write ra reg value ∧
        u = writeBegin Config.params i ra reg value (accept i s)) ∨
      (∃ ra n ipf reg, (i = .read ra reg ∧ n = 1 ∧ ipf = 1 ∨ ∃ nw ipfw, i = .readMultiple ra nw ipfw reg ∧
          n = nw.toNat ∧ ipf = ipfw.toNat) ∧
        u = readBegin Config.params i ra n ipf reg (accept i s)) ∨
      (i = .enumerate ∧ u = enumerateBegin i (accept i s))) h)
  have hr : ∀ (f : State → State) r s1, f s = respond r s1 → (s1 = s ∨ (∃ ra, s1 = ctrAdvance ra s)) →
      (∃ f', internalOnly f s = raiseFault f' s ∧ (f' = .programmingError ∨ f' = .illegalOperation)) ∨
      (∃ r s1, internalOnly f s = respond r s1 ∧ (s1 = s ∨
        (∃ words st, decodeWords Config.params words s = .ok (s1, st)) ∨
        (∃ ra, s1 = ctrAdvance ra s) ∨ ∃ ra, s1 = ctrReset ra s)) := by
    intro f r s1 hf hs
    rcases internalOnly_cases f s with e | e
    · exact .inl ⟨_, e, .inr rfl⟩
    · refine .inr ⟨r, s1, e.trans hf, ?_⟩
      rcases hs with hs | hs
      · exact .inl hs
      · exact .inr (.inr (.inl hs))
  cases i <;> cases h
  case crcCompute words =>
    rcases crcComputeOp_cases Config.params words s with ⟨-, e⟩ | ⟨-, e⟩
    · exact (hr _ _ _ e (.inl rfl)).imp id .inl
    · rcases internalOnly_cases (crcComputeOp Config.params words) s with e' | e'
      · exact .inl ⟨_, e', .inr rfl⟩
      · exact .inl ⟨_, e'.trans e, .inr rfl⟩
  case crcVerify words expected =>
    rcases crcVerifyOp_cases Config.params words expected s with ⟨-, e⟩ | ⟨-, e⟩
    · exact (hr _ _ _ e (.inl rfl)).imp id .inl
    · rcases internalOnly_cases (crcVerifyOp Config.params words expected) s with e' | e'
      · exact .inl ⟨_, e', .inr rfl⟩
      · exact .inl ⟨_, e'.trans e, .inr rfl⟩
  case compose cmd madd ra reg length values =>
    have e : composeOp Config.params cmd madd ra reg length values s =
        respond (.message (composeWords Config.params cmd madd ra reg length values)) s := by
      unfold composeOp; rw [compose_fields]
    exact (hr _ _ _ e (.inl rfl)).imp id .inl
  case decompose words => exact hd' _ _ rfl
  case ctrExpected ra => exact (hr (fun s => respond (.counter (ctRead ra s)) s) _ _ rfl (.inl rfl)).imp id .inl
  case ctrAdvance ra => exact (hr (fun s => respond .done (ctrAdvance ra s)) _ _ rfl (.inr ⟨ra, rfl⟩)).imp id .inl
  case ctrReset ra stringId =>
    unfold ctrResetOp
    split
    · exact .inr (.inl ⟨_, _, rfl, .inr (.inr (.inr ⟨ra, rfl⟩))⟩)
    · exact .inl ⟨_, rfl, .inr rfl⟩
  case write ra reg value => exact .inr (.inr (.inl ⟨ra, reg, value, rfl, rfl⟩))
  case read ra reg => exact .inr (.inr (.inr (.inl ⟨ra, 1, 1, reg, .inl ⟨rfl, rfl, rfl⟩, rfl⟩)))
  case readMultiple ra n ipf reg =>
    exact .inr (.inr (.inr (.inl ⟨ra, n.toNat, ipf.toNat, reg, .inr ⟨n, ipf, rfl, rfl, rfl⟩, rfl⟩)))
  case enumerate => exact .inr (.inr (.inr (.inr ⟨rfl, rfl⟩)))
  case msgNop madd ra cnt dl body => exact hd' _ _ rfl
  case msgRead madd ra cnt dl body => exact hd' _ _ rfl
  case msgWrite madd ra cnt dl body => exact hd' _ _ rfl
  case msgResponse madd ra cnt dl body => exact hd' _ _ rfl
  all_goals exact .inl ⟨_, rfl, .inr rfl⟩

/-- What an instruction may change in the step that takes it. -/
theorem exec_changes {i : Instr} {s t : State} (h : exec i s = .next t) :
    t = { s with
      ct := t.ct, busy := t.busy, txBuf := t.txBuf, phase := t.phase, pos := t.pos, addressed := t.addressed
      rd := t.rd, d := t.d, opState := t.opState, response := t.response, fault := t.fault, history := t.history
      draws := t.draws } := by
  rcases exec_cases h with ⟨f, rfl, -⟩ | ⟨r, s1, rfl, rfl | ⟨w, st, hw⟩ | ⟨ra, rfl⟩ | ⟨ra, rfl⟩⟩ |
    ⟨ra, reg, v, -, rfl⟩ | ⟨ra, n, ipf, reg, -, rfl⟩ | ⟨-, rfl⟩
  · rfl
  · rfl
  · rw [decodeWords_changes hw]; rfl
  · rfl
  · rfl
  · rw [writeBegin_changes]; rfl
  · rw [readBegin_changes]; rfl
  · rfl

/-- Every request taken off the port is answered with a next state. -/
theorem runRequest_is_next (r : Request) (s : State) : ∃ t, runRequest r s = .next t := by
  unfold runRequest
  split
  · exact exec_is_next _ _
  · exact ⟨_, rfl⟩

/-- A request that does not decode is refused (R90, R91); one that decodes is run. -/
theorem runRequest_cases (r : Request) (s : State) :
    (∃ i, decode r.format r.words = .ok i ∧ runRequest r s = exec i (takeRequest r s)) ∨
    (∃ e, decode r.format r.words = .error e ∧
      runRequest r s = .next (raiseFault .illegalOperation (takeRequest r s))) := by
  unfold runRequest
  cases h : decode r.format r.words with
  | ok i => exact .inl ⟨i, rfl, rfl⟩
  | error e => exact .inr ⟨e, rfl, rfl⟩

/-- The engine's turn: a request taken in Ready, or the next step of the operation. -/
theorem engineTurn_cases {s : State} {o : Host.Outcome State Fault Refusal} (h : engineTurn s = some o) :
    (∃ r, s.opState = .ready ∧ s.port = some r ∧ o = runRequest r s) ∨
    (∃ s', engineStep Config.params s = some s' ∧ o = .next s') := by
  unfold engineTurn at h
  split at h
  · cases h
  · next r ho hp => exact .inl ⟨r, ho, hp, (Option.some.inj h).symm⟩
  · obtain ⟨s', hs', rfl⟩ := Option.map_eq_some_iff.1 h
    exact .inr ⟨s', hs', rfl⟩

/-- The engine's turn is always a next state. -/
theorem engineTurn_is_next {s : State} {o : Host.Outcome State Fault Refusal} (h : engineTurn s = some o) :
    ∃ t, o = .next t := by
  rcases engineTurn_cases h with ⟨r, -, -, rfl⟩ | ⟨s', -, rfl⟩
  · exact runRequest_is_next r s
  · exact ⟨s', rfl⟩

/-- What the engine's turn, or holding in its place, can do. -/
theorem engineOrElse_cases {s s' hold : State} (h : (engineTurn s).getD (.next hold) = .next s') :
    s' = hold ∨ (∃ r, s.opState = .ready ∧ s.port = some r ∧ runRequest r s = .next s') ∨
      engineStep Config.params s = some s' := by
  cases ht : engineTurn s with
  | none => rw [ht] at h; simp at h; exact .inl h.symm
  | some o =>
    rw [ht] at h
    simp only [Option.getD_some] at h
    rcases engineTurn_cases ht with ⟨r, ho, hp, rfl⟩ | ⟨t, hs, rfl⟩
    · exact .inr (.inl ⟨r, ho, hp, h⟩)
    · cases h; exact .inr (.inr hs)

/-- Everything a step can do: a reset; or, without a fault, holding, taking a request, going on with the operation, or a move
of another agent, each after at most one move was taken from the list. -/
theorem step_cases {s s' : State} (h : step s = .next s') :
    (∃ rest, s.moves = .reset :: rest ∧ s' = restart rest s) ∨
    (s.fault = none ∧ ∃ ms, (ms = s.moves ∨ ∃ m, s.moves = m :: ms) ∧
      (s' = { s with moves := ms } ∨
        (∃ r, s.opState = .ready ∧ s.port = some r ∧ runRequest r { s with moves := ms } = .next s') ∨
        engineStep Config.params { s with moves := ms } = some s' ∨
        ∃ m, s.moves = m :: ms ∧ agentMove Config.params m { s with moves := ms } = some s')) := by
  unfold step at h
  split at h
  · next rest hm => cases h; exact .inl ⟨rest, hm, rfl⟩
  · cases h
  · next hf _ =>
    refine .inr ⟨hf, ?_⟩
    unfold liveStep at h
    split at h
    · next hm =>
      refine ⟨s.moves, .inl rfl, ?_⟩
      rcases engineOrElse_cases h with h | h | h
      · exact .inl h
      · exact .inr (.inl h)
      · exact .inr (.inr (.inl h))
    · next m rest hm =>
      unfold moveStep at h
      split at h
      · refine ⟨rest, .inr ⟨_, hm⟩, ?_⟩
        rcases engineOrElse_cases h with h | h | h
        · exact .inl h
        · exact .inr (.inl h)
        · exact .inr (.inr (.inl h))
      · split at h
        · next s1 ha =>
          cases h
          exact ⟨rest, .inr ⟨_, hm⟩, .inr (.inr (.inr ⟨_, hm, ha⟩))⟩
        · rcases engineOrElse_cases h with h | h | h
          · exact ⟨rest, .inr ⟨_, hm⟩, .inl h⟩
          · exact ⟨s.moves, .inl rfl, .inr (.inl h)⟩
          · exact ⟨s.moves, .inl rfl, .inr (.inr (.inl h))⟩

/-- An invariant is kept by every step if it does not read the coming moves, holds after a reset, and is kept by a request, by
the engine's steps and by the other agents' moves, of an instance without a fault. -/
theorem step_preserves (Inv : State → Prop) (moves : ∀ s ms, Inv s → Inv { s with moves := ms })
    (reset : ∀ s ms, Inv (restart ms s))
    (request : ∀ r s t, Inv s → s.fault = none → s.opState = .ready → s.port = some r → runRequest r s = .next t → Inv t)
    (engine : ∀ s t, Inv s → s.fault = none → engineStep Config.params s = some t → Inv t)
    (agent : ∀ m s t, Inv s → s.fault = none → agentMove Config.params m s = some t → Inv t)
    {s s' : State} (hs : Inv s) (h : step s = .next s') : Inv s' := by
  rcases step_cases h with ⟨rest, -, rfl⟩ | ⟨hf, ms, -, rfl | ⟨r, ho, hp, hr⟩ | he | ⟨m, -, ha⟩⟩
  · exact reset s rest
  · exact moves s ms hs
  · exact request r _ _ (moves s ms hs) hf ho hp hr
  · exact engine _ _ (moves s ms hs) hf he
  · exact agent m _ _ (moves s ms hs) hf ha

/-- With no move left the engine goes on, or the state holds. -/
theorem step_noMoves {s : State} (hm : s.moves = []) (hf : s.fault = none) : step s = engineOrHold s := by
  simp [step, liveStep, hm, hf]

/-- With no move left a waiting request is run in Ready. -/
theorem step_request {s : State} {r : Request} (hm : s.moves = []) (hf : s.fault = none) (ho : s.opState = .ready)
    (hp : s.port = some r) : step s = runRequest r s := by
  rw [step_noMoves hm hf]; simp [engineOrHold, engineTurn, ho, hp]

/-- With no move left the operation goes on. -/
theorem step_engine {s s' : State} (hm : s.moves = []) (hf : s.fault = none)
    (he : engineStep Config.params s = some s') : step s = .next s' := by
  rw [step_noMoves hm hf]
  have ho : s.opState ≠ .ready := by intro ho; simp [engineStep, ho] at he
  unfold engineOrHold engineTurn
  split
  · contradiction
  · contradiction
  · simp [he]

/-- An enabled move of another agent happens. -/
theorem step_agent {s s' : State} {m : Move} {rest : List Move} (hm : s.moves = m :: rest) (hf : s.fault = none)
    (ha : agentMove Config.params m { s with moves := rest } = some s') : step s = .next s' := by
  have h1 : m ≠ .engine := by rintro rfl; cases ha
  have h2 : m ≠ .reset := by rintro rfl; cases ha
  simp only [hf] at ha
  unfold step liveStep moveStep
  cases m <;> first | exact absurd rfl h1 | exact absurd rfl h2 | simp only [hm, hf, ha]

/-- With a move at hand that the instance cannot take yet, a waiting request is run in Ready. -/
theorem step_request_before {s : State} {r : Request} {m : Move} {rest : List Move} (hm : s.moves = m :: rest)
    (hf : s.fault = none) (ho : s.opState = .ready) (hp : s.port = some r) (h1 : m ≠ .engine) (h2 : m ≠ .reset)
    (ha : agentMove Config.params m { s with moves := rest } = none) : step s = runRequest r s := by
  have ht : engineTurn s = some (runRequest r s) := by simp [engineTurn, ho, hp]
  simp only [hf] at ha
  unfold step liveStep moveStep
  cases m <;> first | exact absurd rfl h1 | exact absurd rfl h2 | simp only [hm, hf, ha, ht, Option.getD_some]

/-- With a move at hand that is not enabled yet, the operation goes on. -/
theorem step_engine_before {s s' : State} {m : Move} {rest : List Move} (hm : s.moves = m :: rest)
    (hf : s.fault = none) (h1 : m ≠ .engine) (h2 : m ≠ .reset)
    (ha : agentMove Config.params m { s with moves := rest } = none) (he : engineStep Config.params s = some s') :
    step s = .next s' := by
  have ho : s.opState ≠ .ready := by intro ho; simp [engineStep, ho] at he
  have ht : engineTurn s = some (.next s') := by
    unfold engineTurn
    split
    · contradiction
    · contradiction
    · simp [he]
  simp only [hf] at ha
  unfold step liveStep moveStep
  cases m <;> first | exact absurd rfl h1 | exact absurd rfl h2 | simp only [hm, hf, ha, ht, Option.getD_some]

/-! ## Runs -/

/-- A run of no steps. -/
theorem stepsTo_zero (s : State) : stepsTo 0 s s := rfl

/-- A run of one step more, on any machine. -/
theorem run_succ (M : Host.Core) (n : Nat) (s t u : M.State) (h : M.step s = .next t) (h' : M.run n t = .next u) :
    M.run (n + 1) s = .next u := by
  simp only [Host.Core.run, h, h']

/-- The first step of a run, on any machine. -/
theorem run_uncons (M : Host.Core) (n : Nat) (s u : M.State) (h : M.run (n + 1) s = .next u) :
    ∃ t, M.step s = .next t ∧ M.run n t = .next u := by
  unfold Host.Core.run at h
  split at h
  · exact ⟨_, by assumption, h⟩
  · cases h
  · cases h

/-- A run of one step more. -/
theorem stepsTo_succ {n : Nat} {s t u : State} (h : step s = .next t) (h' : stepsTo n t u) : stepsTo (n + 1) s u :=
  run_succ Sys2Proof.core n s t u h h'

/-- The first step of a run. -/
theorem stepsTo_uncons {n : Nat} {s u : State} (h : stepsTo (n + 1) s u) : ∃ t, step s = .next t ∧ stepsTo n t u :=
  run_uncons Sys2Proof.core n s u h

/-- Two runs, one after the other. -/
theorem stepsTo_add {m n : Nat} {s t u : State} (h : stepsTo m s t) (h' : stepsTo n t u) : stepsTo (m + n) s u := by
  induction m generalizing s with
  | zero => cases h; simpa using h'
  | succ m ih =>
    obtain ⟨v, hs, hv⟩ := stepsTo_uncons h
    have := stepsTo_succ hs (ih hv)
    rwa [Nat.add_right_comm] at this

end Sys2Proof.Machine
end

