-- ==== Sys2Proof/Laws/PerInstr.lean ====
section
/-! SUPPORT. Statements about every instruction as syntax, proved constructor by constructor. -/

namespace Sys2Proof.Laws

/-- A word matches a row of the opcode table: `word & mask = match`. -/
def matchesRow (mask value : Word) (words : List Word) : Prop :=
  words.headD 0 &&& mask = value

/-- The row of spec/opcode_table.json that an instruction stands for, as (mask, match). -/
def rowOf : Instr → Word × Word
  | .crcCompute _ => (0xFFFF, 0x1000)
  | .crcVerify _ _ => (0xFFFF, 0x2000)
  | .compose _ _ _ _ _ _ => (0xFFFF, 0x3000)
  | .decompose _ => (0xFFFF, 0x4000)
  | .ctrExpected _ => (0xFFFF, 0x5000)
  | .ctrAdvance _ => (0xFFFF, 0x6000)
  | .ctrReset _ _ => (0xFFFF, 0x7000)
  | .write _ _ _ => (0xFFFF, 0x8000)
  | .read _ _ => (0xFFFF, 0x9000)
  | .readMultiple _ _ _ _ => (0xFFFF, 0xA000)
  | .enumerate => (0xFFFF, 0xB000)
  | .reserved0 _ => (0xF000, 0x0000)
  | .reservedC _ => (0xF000, 0xC000)
  | .reservedD _ => (0xF000, 0xD000)
  | .reservedE _ => (0xF000, 0xE000)
  | .reservedF _ => (0xF000, 0xF000)
  | .msgNop _ _ _ _ _ => (0xC000, 0x0000)
  | .msgRead _ _ _ _ _ => (0xC000, 0x4000)
  | .msgWrite _ _ _ _ _ => (0xC000, 0x8000)
  | .msgResponse _ _ _ _ _ => (0xC000, 0xC000)

theorem reservedWord_matches (opcode : BitVec 4) (low : BitVec 12) :
    reservedWord opcode low &&& 0xF000 = opcodeWord opcode := by
  unfold reservedWord opcodeWord
  ext i hi
  simp
  interval_cases i <;> simp

theorem pack_matches (cmd : Command) (madd : BitVec 1) (ra : Addr) (cnt : Counter) (dl : BitVec 2) :
    pack cmd madd ra cnt dl &&& 0xC000 = cmd.code.setWidth 16 <<< 14 := by
  unfold pack
  ext i hi
  simp
  interval_cases i <;> simp

/-- The first word of every encoding matches the instruction's row of the opcode table. -/
def EncodeMatchesRow.Statement (i : Instr) : Prop :=
  matchesRow (rowOf i).1 (rowOf i).2 (encode i)

theorem EncodeMatchesRow.crcCompute (words : List Word) : EncodeMatchesRow.Statement (.crcCompute words) :=
  by show opcodeWord 1 &&& 0xFFFF = 0x1000; decide
theorem EncodeMatchesRow.crcVerify (words : List Word) (expected : Word) :
    EncodeMatchesRow.Statement (.crcVerify words expected) :=
  by show opcodeWord 2 &&& 0xFFFF = 0x2000; decide
theorem EncodeMatchesRow.compose (cmd : Command) (madd : BitVec 1) (ra : Addr) (reg : Word) (length : BitVec 2)
    (values : Quad) : EncodeMatchesRow.Statement (.compose cmd madd ra reg length values) :=
  by show opcodeWord 3 &&& 0xFFFF = 0x3000; decide
theorem EncodeMatchesRow.decompose (words : List Word) : EncodeMatchesRow.Statement (.decompose words) :=
  by show opcodeWord 4 &&& 0xFFFF = 0x4000; decide
theorem EncodeMatchesRow.ctrExpected (ra : Addr) : EncodeMatchesRow.Statement (.ctrExpected ra) :=
  by show opcodeWord 5 &&& 0xFFFF = 0x5000; decide
theorem EncodeMatchesRow.ctrAdvance (ra : Addr) : EncodeMatchesRow.Statement (.ctrAdvance ra) :=
  by show opcodeWord 6 &&& 0xFFFF = 0x6000; decide
theorem EncodeMatchesRow.ctrReset (ra : Addr) (stringId : Word) :
    EncodeMatchesRow.Statement (.ctrReset ra stringId) :=
  by show opcodeWord 7 &&& 0xFFFF = 0x7000; decide
theorem EncodeMatchesRow.write (ra : Addr) (reg value : Word) :
    EncodeMatchesRow.Statement (.write ra reg value) :=
  by show opcodeWord 8 &&& 0xFFFF = 0x8000; decide
theorem EncodeMatchesRow.read (ra : Addr) (reg : Word) : EncodeMatchesRow.Statement (.read ra reg) :=
  by show opcodeWord 9 &&& 0xFFFF = 0x9000; decide
theorem EncodeMatchesRow.readMultiple (ra : Addr) (itemCount ipf reg : Word) :
    EncodeMatchesRow.Statement (.readMultiple ra itemCount ipf reg) :=
  by show opcodeWord 10 &&& 0xFFFF = 0xA000; decide
theorem EncodeMatchesRow.enumerate : EncodeMatchesRow.Statement .enumerate :=
  by show opcodeWord 11 &&& 0xFFFF = 0xB000; decide
theorem EncodeMatchesRow.reserved0 (low : BitVec 12) : EncodeMatchesRow.Statement (.reserved0 low) :=
  reservedWord_matches 0 low
theorem EncodeMatchesRow.reservedC (low : BitVec 12) : EncodeMatchesRow.Statement (.reservedC low) :=
  reservedWord_matches 12 low
theorem EncodeMatchesRow.reservedD (low : BitVec 12) : EncodeMatchesRow.Statement (.reservedD low) :=
  reservedWord_matches 13 low
theorem EncodeMatchesRow.reservedE (low : BitVec 12) : EncodeMatchesRow.Statement (.reservedE low) :=
  reservedWord_matches 14 low
theorem EncodeMatchesRow.reservedF (low : BitVec 12) : EncodeMatchesRow.Statement (.reservedF low) :=
  reservedWord_matches 15 low
theorem EncodeMatchesRow.msgNop (madd : BitVec 1) (ra : Addr) (cnt : Counter) (dl : BitVec 2) (body : List Word) :
    EncodeMatchesRow.Statement (.msgNop madd ra cnt dl body) := pack_matches .nop madd ra cnt dl
theorem EncodeMatchesRow.msgRead (madd : BitVec 1) (ra : Addr) (cnt : Counter) (dl : BitVec 2) (body : List Word) :
    EncodeMatchesRow.Statement (.msgRead madd ra cnt dl body) := pack_matches .read madd ra cnt dl
theorem EncodeMatchesRow.msgWrite (madd : BitVec 1) (ra : Addr) (cnt : Counter) (dl : BitVec 2) (body : List Word) :
    EncodeMatchesRow.Statement (.msgWrite madd ra cnt dl body) := pack_matches .write madd ra cnt dl
theorem EncodeMatchesRow.msgResponse (madd : BitVec 1) (ra : Addr) (cnt : Counter) (dl : BitVec 2) (body : List Word) :
    EncodeMatchesRow.Statement (.msgResponse madd ra cnt dl body) := pack_matches .response madd ra cnt dl

end Sys2Proof.Laws
end

