-- ==== Sys2Proof/Tests/Slice0.lean ====
section
/-! SUPPORT. Tests: the well-formedness checks, the decoding of every constructor from words written out from the spec's
encodings, one or two steps for each instruction with the expected words of 95_test_vectors.md, and for every statement with
hypotheses a witness that meets them. -/

namespace Sys2Proof.Tests

set_option maxRecDepth 10000

open Sys2Proof.Machine

/-- The reference configuration with the reference checksum, under which the spec's vectors are written (R8). -/
def ref : Params := refParams refCrc

/-- The reset state with given counter entries. -/
def withCounters (ct : Table Counter) : State := { State.reset with ct := ct }

/-- The reset state as a test harness sees it while its request is run. -/
def harness : State := { State.reset with origin := .harness }

/-- The reset state with a request on the port and the environment's moves. -/
def requested (r : Request) (ms : List Move) : State := { State.reset with port := some r, moves := ms }

/-- A caller's request. -/
def callerReq (words : List Word) : Request := ⟨.req, .caller, words⟩

/-- The reset state inside an operation, with the environment's moves. -/
def inside (o : OpState) (ms : List Move) : State := { State.reset with opState := o, moves := ms }

/-- A walk at position 1. -/
def walking (pt : Point) (ph : Phase) (ms : List Move) : State :=
  { State.reset with opState := .running .enumerate pt, phase := ph, pos := 1, moves := ms }

/-! ## Well-formedness and decoding -/

theorem test_wf_too_many_checksum_words :
    (Instr.crcCompute (List.replicate 7 0)).check = some .tooManyChecksumWords ∧
      (Instr.crcVerify (List.replicate 7 0) 0).check = some .tooManyChecksumWords ∧
      (Instr.crcCompute (List.replicate 6 0)).wf = true := by decide

theorem test_wf_message_too_long :
    (Instr.decompose (List.replicate 8 0)).check = some .messageTooLong ∧
      (Instr.msgNop 0 0 0 0 (List.replicate 7 0)).check = some .messageTooLong ∧
      (Instr.msgResponse 0 0 0 0 (List.replicate 6 0)).wf = true := by decide

/-- Opcode words and operands written out from R91, each operation once. -/
theorem test_decode_requests :
    decodeRequest [0x1000, 2, 0xFFFF, 0x0001] = .ok (.crcCompute [0xFFFF, 0x0001]) ∧
      decodeRequest [0x2000, 1, 0x1234, 0x0EC9] = .ok (.crcVerify [0x1234] 0x0EC9) ∧
      decodeRequest [0x3000, 2, 1, 0x7F, 0xABCD, 3, 1, 2, 3, 4] = .ok (.compose .write 1 0x7F 0xABCD 3 ⟨1, 2, 3, 4⟩) ∧
      decodeRequest [0x4000, 4, 0xD040, 3, 0x1234, 0xF15A] = .ok (.decompose [0xD040, 3, 0x1234, 0xF15A]) ∧
      decodeRequest [0x5000, 0x41] = .ok (.ctrExpected 0x41) ∧ decodeRequest [0x6000, 0x7F] = .ok (.ctrAdvance 0x7F) ∧
      decodeRequest [0x7000, 0x42, 7] = .ok (.ctrReset 0x42 7) ∧
      decodeRequest [0x8000, 0x41, 2, 1] = .ok (.write 0x41 2 1) ∧ decodeRequest [0x9000, 0x41, 3] = .ok (.read 0x41 3) ∧
      decodeRequest [0xA000, 0x41, 22, 4, 0x10] = .ok (.readMultiple 0x41 22 4 0x10) ∧
      decodeRequest [0xB000] = .ok .enumerate := by decide

/-- The reserved codes of R92, their low bits open. -/
theorem test_decode_reserved :
    decodeRequest [0x0000] = .ok (.reserved0 0) ∧ decodeRequest [0xC001] = .ok (.reservedC 1) ∧
      decodeRequest [0xD002] = .ok (.reservedD 2) ∧ decodeRequest [0xE800] = .ok (.reservedE 0x800) ∧
      decodeRequest [0xFFFF] = .ok (.reservedF 0xFFF) := by decide

/-- Header words written out from R72: command 15:14, master 13, address 12:6, counter 5:2, data length 1:0. -/
theorem test_decode_messages :
    decodeReceived [0b00_1_0000001_0101_11, 1, 2, 3] = .ok (.msgNop 1 1 5 3 [1, 2, 3]) ∧
      decodeReceived [0b01_0_1000001_0000_00, 3, 0x8000, 0x2D24] = .ok (.msgRead 0 0x41 0 0 [3, 0x8000, 0x2D24]) ∧
      decodeReceived [0b10_0_1111111_0000_11, 0xABCD, 1, 2, 3, 4, 0xC2BD] =
        .ok (.msgWrite 0 0x7F 0 3 [0xABCD, 1, 2, 3, 4, 0xC2BD]) ∧
      decodeReceived [0b11_0_1000001_0001_00, 3, 0x1234, 0x785C] = .ok (.msgResponse 0 0x41 1 0 [3, 0x1234, 0x785C]) := by
  decide

/-- What R90 to R93, R102 and R113 refuse; operand words are missing in the last two. -/
theorem test_decode_refuses :
    decodeRequest [0x9001, 0x41, 3] = .error .opcodeLowBits ∧ decodeRequest [0x9000, 0x80, 3] = .error .operandRange ∧
      decodeRequest (0x1000 :: 7 :: List.replicate 7 0) = .error .operandRange ∧
      decodeRequest (0x4000 :: 8 :: List.replicate 8 0) = .error .operandRange ∧
      decodeRequest [0x8000, 0x41, 2] = .error .missingOperand ∧ decodeReceived [] = .error .empty := by decide

/-- Table words: the first word in bits 15..0, the bits above the given ones 0. -/
theorem test_table_words :
    decodeTableWord 16 0xB000 = some .enumerate ∧ decodeTableWord 64 0x0001_0002_0041_8000 = some (.write 0x41 2 1) ∧
      decodeTableWord 16 0xC123 = some (.reservedC 0x123) ∧
      decodeTableWord 16 0x9041 = some (.msgWrite 0 0x41 0 1 [0, 0, 0, 0]) := by decide

/-! ## Instructions, with the vectors of 95_test_vectors.md -/

/-- V-CRC9, V-CRC15. -/
theorem test_crcCompute :
    (crcComputeOp ref [0x9040, 2, 1] harness).response = some (.checksum 0xAF9D) ∧
      (crcComputeOp ref [] harness).response = some (.checksum 0xFFFF) := by decide

/-- V-CRC13, V-CRC14. -/
theorem test_crcVerify :
    (crcVerifyOp ref [0x9040, 2, 1] 0xAF9D harness).response = some (.verified true) ∧
      (crcVerifyOp ref [0x9040, 2, 1] 0xAF9C harness).response = some (.verified false) := by decide

/-- V-CP3, V-CP5, V-CP7. -/
theorem test_compose :
    (composeOp ref .write 0 0x7F 0xABCD 3 ⟨1, 2, 3, 4⟩ harness).response =
        some (.message [0x9FC3, 0xABCD, 1, 2, 3, 4, 0xC2BD]) ∧
      (composeOp ref .response 1 0x41 3 1 ⟨0xAAAA, 0xBBBB, 0, 0⟩ harness).response =
        some (.message [0xF041, 3, 0xAAAA, 0xBBBB, 0xDB2B]) ∧
      (composeOp ref .write 0 0x41 0x20 1 ⟨0x1111, 0x2222, 0x9999, 0x9999⟩ harness).response =
        some (.message [0x9041, 0x20, 0x1111, 0x2222, 0xE1D6]) := by decide

/-- V-DC5: counter 5 while 3 is expected: `WrongMessageCount`, and the entry is 4 afterwards, not 6. -/
theorem test_decompose_wrong_count :
    (decomposeOp ref [0xD054, 0x10, 0x5555, 0x8EE9] (withCounters [(0x41, 3)])).response =
        some (.decoded (some ⟨.response, 0, 0x41, 5, 0, 0x10, 1, ⟨0x5555, 0, 0, 0⟩⟩) .wrongMessageCount) ∧
      (decomposeOp ref [0xD054, 0x10, 0x5555, 0x8EE9] (withCounters [(0x41, 3)])).ct = [(0x41, 4)] := by decide

/-- R113's example, and a flipped checksum bit: the entry advances on `WrongCrc` too. -/
theorem test_decompose_status :
    (decomposeOp ref [0xD040, 3, 0x1234, 0xF15A] harness).ct = [(0x41, 1)] ∧
      (decomposeOp ref [0xD040, 3, 0x1234, 0xF15B] harness).response =
        some (.decoded (some ⟨.response, 0, 0x41, 0, 0, 3, 1, ⟨0x1234, 0, 0, 0⟩⟩) .wrongCrc) ∧
      (decomposeOp ref [0xD040, 3, 0x1234, 0xF15B] harness).ct = [(0x41, 1)] := by decide

theorem test_ctrExpected :
    exec (.ctrExpected 0x41) { harness with ct := [(0x41, 9)] } =
      .next { harness with ct := [(0x41, 9)], response := some (.counter 9), history := [.result (.counter 9)] } := rfl

/-- 15 advances to 0 (R131); a caller is refused (R93). -/
theorem test_ctrAdvance :
    exec (.ctrAdvance 0x41) { harness with ct := [(0x41, 15)] } =
        .next { harness with response := some .done, history := [.result .done] } ∧
      exec (.ctrAdvance 0x41) State.reset = .next { State.reset with fault := some .illegalOperation } := ⟨rfl, rfl⟩

/-- R132's example; another string's id is refused. -/
theorem test_ctrReset :
    exec (.ctrReset 0x42 0) (withCounters [(0x41, 3), (0x42, 9)]) =
        .next { withCounters [(0x41, 3)] with response := some .done, history := [.result .done] } ∧
      exec (.ctrReset 0x42 1) State.reset = .next { State.reset with fault := some .illegalOperation } := ⟨rfl, rfl⟩

/-- V-GT1: the staged words and the words staged to receive. -/
theorem test_write :
    (writeBegin ref (.write 0x41 2 1) 0x41 2 1 State.reset).txBuf = ⟨0x9040, 2, 1, 0xAF9D⟩ ∧
      (writeBegin ref (.write 0x41 2 1) 0x41 2 1 State.reset).opState = .running (.write 0x41 2 1) (.start .tx 0) := by
  decide

/-- R122's example. -/
theorem test_read :
    (readBegin ref (.read 0x41 3) 0x41 1 1 3 State.reset).txBuf = ⟨0x5040, 3, 0x8000, 0x2D24⟩ ∧
      (readBegin ref (.read 0x41 3) 0x41 1 1 3 State.reset).opState = .running (.read 0x41 3) (.start .rx 8) := by decide

/-- R162's example: 22 items at 4 per frame, 6 frames, 46 receive words. -/
theorem test_readMultiple :
    (readBegin ref (.readMultiple 0x41 22 4 0x10) 0x41 22 4 0x10 State.reset).txBuf = ⟨0x5040, 0x10, 0xB015, 0x7016⟩ ∧
      (readBegin ref (.readMultiple 0x41 22 4 0x10) 0x41 22 4 0x10 State.reset).opState =
        .running (.readMultiple 0x41 22 4 0x10) (.start .rx 46) := by decide

/-- The receive buffer after the last frame of V-RM1: two items and two padding words. -/
def lastFrame : State :=
  { State.reset with
    ct := [(0x41, 5)], opState := .running (.readMultiple 0x41 22 4 0x10) .frames
    rxBuf := [(39, 0xD057), (40, 0x24), (41, 0x114), (42, 0x115), (43, 0xEEEE), (44, 0xEEEE), (45, 0xA610)]
    rd := ⟨0x41, 22, 4, 0x10, 46, 6, 5, 2, List.replicate 20 0, .ok⟩ }

/-- V-RM1's last frame gives two items only; cut to one word it is a short message that gives none. -/
theorem test_readMultiple_frame :
    (frameStep ref lastFrame).rd = { lastFrame.rd with
      k := 6, remaining := 0, acc := List.replicate 20 0 ++ [0x114, 0x115] } ∧
    (frameStep ref { lastFrame with rd := { lastFrame.rd with received := 40 } }).rd =
      { lastFrame.rd with received := 40, st := .shortMessage } := by decide

/-- The sleep write of V-EN1, and the assignment of address 2 to position 2. -/
theorem test_enumerate_writes :
    (phaseStep ref .enumerate (walking .phase .sleep [])).txBuf = ⟨0x9040, 2, 1, 0xAF9D⟩ ∧
      (phaseStep ref .enumerate { walking .phase .assign [] with pos := 2 }).txBuf = ⟨0x8000, 1, 2, 0xCD42⟩ := by decide

/-- The version and identifier reads of V-EN1. -/
theorem test_enumerate_reads :
    (phaseStep ref .enumerate { walking .phase .verify [] with pos := 2 }).txBuf = ⟨0x5080, 4, 0x8000, 0x9B0C⟩ ∧
      (phaseStep ref .enumerate (walking .phase .uid [])).txBuf = ⟨0x5040, 0x10, 0xA002, 0x11B3⟩ := by decide

theorem test_reserved :
    exec (.reserved0 0) State.reset = .next { State.reset with fault := some .illegalOperation } ∧
      exec (.reservedC 5) State.reset = .next { State.reset with fault := some .illegalOperation } ∧
      exec (.reservedD 0) State.reset = .next { State.reset with fault := some .illegalOperation } ∧
      exec (.reservedE 0) State.reset = .next { State.reset with fault := some .illegalOperation } ∧
      exec (.reservedF 0) State.reset = .next { State.reset with fault := some .illegalOperation } :=
  ⟨rfl, rfl, rfl, rfl, rfl⟩

/-- R120's and R121's examples, and the echo of a read request (R122). -/
theorem test_msg_not_response :
    (receivedOp ref .nop 0 0 0 0 [0, 0, 0x0E10] harness).response =
        some (.decoded (some ⟨.nop, 0, 0, 0, 0, 0, 1, ⟨0, 0, 0, 0⟩⟩) .noResponse) ∧
      (receivedOp ref .write 0 0x41 0 0 [2, 1, 0xAF9D] harness).response =
        some (.decoded (some ⟨.write, 0, 0x41, 0, 0, 2, 1, ⟨1, 0, 0, 0⟩⟩) .noResponse) ∧
      (receivedOp ref .read 0 0x41 0 0 [3, 0x8000, 0x2D24] harness).response =
        some (.decoded (some ⟨.read, 0, 0x41, 0, 0, 3, 1, ⟨0x8000, 0, 0, 0⟩⟩) .noResponse) := by decide

/-- R123's example with counter 1, and the error register address (M3). -/
theorem test_msgResponse :
    (receivedOp ref .response 0 0x41 1 0 [3, 0x1234, 0x785C] (withCounters [(0x41, 1)])).response =
        some (.decoded (some ⟨.response, 0, 0x41, 1, 0, 3, 1, ⟨0x1234, 0, 0, 0⟩⟩) .ok) ∧
      (receivedOp ref .response 0 0x41 0 0 [0xFFFF, 0, 0x3F0C] harness).response =
        some (.decoded (some ⟨.response, 0, 0x41, 0, 0, 0xFFFF, 1, ⟨0, 0, 0, 0⟩⟩) .noAccess) := by decide

/-! ## Witnesses: states and operands that meet the statements' hypotheses -/

/-- A good answer frame of device `0x41`, at a register that is not the error register, whatever the configuration. -/
def goodReg : Word := if Config.params.errorRegAddr = 0 then 0x10 else 0

def goodFrame (cnt : Counter) (reg v : Word) : List Word :=
  [pack .response 0 0x41 cnt 0, reg, v, Config.params.crc [pack .response 0 0x41 cnt 0, reg, v]]

theorem goodReg_ne : goodReg ≠ Config.params.errorRegAddr := by
  unfold goodReg
  split
  · next h => rw [h]; decide
  · next h => exact fun h' => h h'.symm

/-- A whole answer stream of one frame passes. -/
theorem goodFrame_good : frameGood Config.params ([0, 0, 0, 0] ++ goodFrame 0 goodReg 7) 0x41 goodReg 1 0 0 :=
  ⟨rfl, by decide, goodReg_ne, by decide, by decide, by
    show goodReg = goodReg + BitVec.ofNat 16 (0 * 1)
    simp⟩

theorem witness_DecodeEncodeAgree :
    (Instr.crcVerify (List.replicate 6 0xFFFF) 0xFFFF).wf = true ∧ (Instr.decompose (List.replicate 7 0)).wf = true ∧
      (Instr.msgWrite 1 0x7F 15 3 (List.replicate 6 0)).wf = true ∧ (Instr.reservedF 0xFFF).wf = true := by decide

theorem witness_EncodingUnique :
    decodeRequest [0x5000, 0x7F, 1, 2] = .ok (.ctrExpected 0x7F) ∧
      decodeReceived [0xFFFF] = .ok (.msgResponse 1 0x7F 15 3 []) := by decide

theorem witness_StepRunsTheDecodedInstruction :
    let s := requested (callerReq [0xB000]) [];
    s.fault = none ∧ s.moves = [] ∧ s.opState = .ready ∧ s.port = some (callerReq [0xB000]) ∧
      decode (callerReq [0xB000]).format (callerReq [0xB000]).words = .ok .enumerate := by decide

theorem witness_ReservedCodesRefused (q : Word) :
    let s := requested (callerReq [q, 5]) [];
    s.fault = none ∧ s.moves = [] ∧ s.opState = .ready ∧ s.port = some ⟨.req, .caller, q :: [5]⟩ :=
  ⟨rfl, rfl, rfl, rfl⟩

theorem witness_ReservedCodesRefused_codes :
    (0x0FFF : Word).toNat / 4096 = 0 ∧ 12 ≤ (0xC000 : Word).toNat / 4096 ∧ 12 ≤ (0xFFFF : Word).toNat / 4096 := by decide

theorem witness_MalformedRequestsRefused :
    let r := callerReq [0x9001, 0x41, 3];
    (requested r []).fault = none ∧ (requested r []).moves = [] ∧ (requested r []).opState = .ready ∧
      (requested r []).port = some r ∧ decode r.format r.words = .error .opcodeLowBits :=
  ⟨rfl, rfl, rfl, rfl, rfl⟩

theorem witness_MalformedRequestsRefused_lowBits :
    1 ≤ (0x1001 : Word).toNat / 4096 ∧ (0xB800 : Word).toNat / 4096 ≤ 11 ∧ (0x1001 : Word).toNat % 4096 ≠ 0 := by decide

theorem witness_MalformedRequestsRefused_operands :
    ((0x1000 : Word).toNat / 4096 ≤ 2 ∧ 6 < (([7] : List Word).getD 0 0).toNat) ∧
      ((0x3000 : Word).toNat / 4096 = 3 ∧ 3 < (([4] : List Word).getD 0 0).toNat ∧
        1 < (([0, 2] : List Word).getD 1 0).toNat ∧ 127 < (([0, 0, 128] : List Word).getD 2 0).toNat ∧
        3 < (([0, 0, 0, 0, 4] : List Word).getD 4 0).toNat) ∧
      ((0x4000 : Word).toNat / 4096 = 4 ∧ 7 < (([8] : List Word).getD 0 0).toNat) ∧
      (5 ≤ (0x5000 : Word).toNat / 4096 ∧ (0xA000 : Word).toNat / 4096 ≤ 10 ∧
        127 < (([128] : List Word).getD 0 0).toNat) := by decide

theorem witness_ForbiddenRequestsRefused :
    (∀ i ∈ [Instr.crcCompute [], .crcVerify [] 0, .compose .nop 0 0 0 0 ⟨0, 0, 0, 0⟩, .decompose [], .ctrExpected 0,
      .ctrAdvance 0], internalOp i = true) ∧ State.reset.origin = .caller ∧ (1 : Word).toNat ≠ State.reset.string := by
  decide

theorem witness_PortHoldsTheRequest :
    let s := { inside (.waiting .enumerate .tx) [] with port := some (callerReq [0xB000]) };
    s.opState ≠ .ready ∧ s.port = some (callerReq [0xB000]) ∧ (∀ rest, s.moves ≠ .reset :: rest) ∧ step s = .next s :=
  ⟨nofun, rfl, nofun, rfl⟩

theorem witness_ChecksumOperations :
    harness.origin = .harness ∧ (List.replicate 6 (0 : Word)).length ≤ 6 ∧ 6 < (List.replicate 7 (0 : Word)).length := by
  decide

theorem witness_ComposedMessage : harness.origin = .harness := rfl

theorem witness_ComposedCounterIsZero :
    compose ref 2 0 0x7F 0xABCD 3 ⟨1, 2, 3, 4⟩ = .ok [0x9FC3, 0xABCD, 1, 2, 3, 4, 0xC2BD] := by decide

theorem witness_ComposeOperandChecks :
    compose ref 0 0 0 0 4 ⟨0, 0, 0, 0⟩ = .error .programmingError ∧
      compose ref 0 0 128 0 0 ⟨0, 0, 0, 0⟩ = .error .programmingError ∧
      compose ref 0 2 0 0 0 ⟨0, 0, 0, 0⟩ = .error .programmingError ∧
      compose ref 4 0 0 0 0 ⟨0, 0, 0, 0⟩ = .error .programmingError ∧
      compose ref 0 0 0 0x10000 0 ⟨0, 0, 0, 0⟩ = .error .programmingError := by decide

theorem witness_ComposeOperandChecks_port :
    let s := requested (callerReq [0x3000, 4, 2, 128, 0, 4, 0, 0, 0, 0]) [];
    s.fault = none ∧ s.moves = [] ∧ s.opState = .ready ∧
      s.port = some ⟨.req, .caller, 0x3000 :: 4 :: 2 :: 128 :: 0 :: 4 :: 0 :: 0 :: 0 :: 0 :: []⟩ ∧
      3 < (4 : Word).toNat ∧ 127 < (128 : Word).toNat ∧ 1 < (2 : Word).toNat := by decide

/-- The status a decode of `words` reports, from reset. -/
def statusOf (words : List Word) : Option Status :=
  match decodeWords ref words harness with
  | .ok (_, st) => some st
  | .error _ => none

/-- A message that meets each condition of R114 in turn. -/
theorem witness_DecodeStatusPriority :
    statusOf [] = some .timeout ∧ statusOf [0, 0, 0] = some .shortMessage ∧
      statusOf [0xD040, 3, 0x1234, 0xF15B] = some .wrongCrc ∧
      statusOf [0xD044, 3, 0x1234, 0x785C] = some .wrongMessageCount ∧
      statusOf [0xD040, 0xFFFF, 0, 0x3F0C] = some .noAccess ∧ statusOf [0x9040, 2, 1, 0xAF9D] = some .noResponse ∧
      statusOf [0xD040, 3, 0x1234, 0xF15A] = some .ok := by decide

theorem witness_FieldExtraction :
    (∃ t, decodeWords ref [0xD040, 3, 0x1234, 0xF15A] harness = .ok (t, .ok)) ∧
      ∃ t, decodeWords ref (frameWords harness) harness = .ok (t, .timeout) :=
  ⟨⟨_, rfl⟩, _, rfl⟩

theorem witness_DecodeSideEffect :
    (∃ t st, decodeWords ref (List.replicate 7 0) harness = .ok (t, st)) ∧
      ∃ t st, decodeWords ref [0, 0, 0] harness = .ok (t, st) :=
  ⟨⟨_, _, rfl⟩, _, _, rfl⟩

theorem witness_OverlongMessageFaults :
    7 < (List.replicate 8 (0 : Word)).length ∧ harness.origin = .harness ∧ lastFrame.rd.ipf ≤ 4 := by decide

theorem witness_DecomposeCompletes : harness.origin = .harness ∧ (List.replicate 7 (0 : Word)).length ≤ 7 := by decide

/-- A RESPONSE that passes every check, and bodies of 2, 3, 6 and 7 words. -/
theorem witness_ReceivedMessages :
    (.response, Instr.msgResponse) ∈ messageRows ∧ (.nop, Instr.msgNop) ∈ messageRows ∧ harness.origin = .harness ∧
      (∃ body : List Word, 3 ≤ body.length ∧ body.length ≤ 6 ∧
        Config.params.crc (pack .response 0 0x41 0 0 :: body).dropLast = body.getLastD 0 ∧ 0 = ctRead 0x41 harness ∧
        body.getD 0 0 ≠ Config.params.errorRegAddr) ∧
      ([0, 0] : List Word).length < 3 ∧ (List.replicate 6 (0 : Word)).length ≤ 6 ∧
      6 < (List.replicate 7 (0 : Word)).length :=
  ⟨by simp [messageRows], by simp [messageRows], rfl, ⟨(goodFrame 0 goodReg 7).tail, by decide, by decide, rfl, rfl, goodReg_ne⟩,
    by decide, by decide, by decide⟩

theorem witness_CounterOperations : harness.origin = .harness ∧ (0 : Word).toNat = harness.string := by decide

theorem witness_CounterTableWriters : step State.reset = .next State.reset := rfl

theorem witness_WriteClaimsTheBus : State.reset.busy = .idle ∧ { State.reset with busy := .busy }.busy = .busy := ⟨rfl, rfl⟩

theorem witness_TransferStart :
    (let s := inside (.running (.write 0x41 2 1) (.start .tx 0)) [.answer .accepted];
      s.fault = none ∧ s.opState = .running (.write 0x41 2 1) (.start .tx 0) ∧ s.moves = .answer .accepted :: []) ∧
      let s := inside (.running (.read 0x41 3) (.start .rx 8)) [.answer .busy, .reset];
      s.fault = none ∧ s.opState = .running (.read 0x41 3) (.start .rx 8) ∧ s.moves = .answer .busy :: [.reset] := by decide

/-- One state for each way a wait goes: notified, notified and timed out at once, timed out on each channel, and held. -/
theorem witness_WaitEnds :
    (let s := { inside (.waiting (.write 0x41 2 1) .tx) [] with noteTx := some 0 };
      s.fault = none ∧ s.noteTx = some 0 ∧ s.moves = []) ∧
    (let s := { inside (.waiting (.read 0x41 3) .rx) [.timeout .rx] with noteRx := some 8 };
      s.fault = none ∧ s.noteRx = some 8 ∧ s.moves = .timeout .rx :: []) ∧
    (let s := inside (.waiting (.write 0x41 2 1) .tx) [.timeout .tx];
      s.opState = .waiting (.write 0x41 2 1) .tx ∧ s.noteTx = none ∧ s.moves = .timeout .tx :: []) ∧
    (let s := inside (.waiting (.read 0x41 3) .rx) [.timeout .rx];
      s.opState = .waiting (.read 0x41 3) .rx ∧ s.noteRx = none ∧ s.moves = .timeout .rx :: []) ∧
    let s := inside (.waiting (.read 0x41 3) .rx) [];
    s.opState = .waiting (.read 0x41 3) .rx ∧ noteRead .rx s = none ∧ s.moves = [] := by decide

theorem witness_CompletionStep :
    (let s := { inside .ready [.complete ⟨.rx, 2⟩ [5, 6]] with inflight := [⟨.tx, 0⟩, ⟨.rx, 2⟩] };
      s.fault = none ∧ s.moves = .complete ⟨.rx, 2⟩ [5, 6] :: [] ∧ ⟨.rx, 2⟩ ∈ s.inflight ∧ ([5, 6] : List Word).length ≤ 2 ∧
        (Channel.rx = .tx → ([5, 6] : List Word) = [])) ∧
      let s := { inside .ready [.complete ⟨.tx, 0⟩ []] with inflight := [⟨.tx, 0⟩] };
      s.moves = .complete ⟨.tx, 0⟩ [] :: [] ∧ ⟨.tx, 0⟩ ∈ s.inflight ∧ (Channel.tx = .tx → ([] : List Word) = []) := by decide

theorem witness_RecordsLeaveOnlyByCompletion :
    let s := { inside .ready [.complete ⟨.tx, 0⟩ []] with inflight := [⟨.tx, 0⟩] };
    ∃ s', step s = .next s' ∧ s'.inflight.count ⟨.tx, 0⟩ < s.inflight.count ⟨.tx, 0⟩ :=
  ⟨_, rfl, by decide⟩

theorem witness_WriteReturnsOnBothPaths :
    ∀ ms ∈ [[Move.answer .accepted, .complete ⟨.tx, 0⟩ []], [.answer .accepted, .timeout .tx]],
      let s := requested ⟨.req, .caller, encode (.write 0x41 2 1)⟩ ms;
      s.fault = none ∧ s.opState = .ready ∧ s.busy = .idle ∧ s.port = some ⟨.req, .caller, encode (.write 0x41 2 1)⟩ ∧
        s.moves = ms ∧ s.noteTx = none := by decide

theorem witness_BusBusyNeedsATransferInFlight :
    let s := { requested (callerReq [0x8000, 0x41, 2, 1]) [] with busy := .busy, inflight := [⟨.tx, 0⟩] };
    busAccounted s = true ∧ s.fault = none ∧ ∃ s', step s = .next s' ∧ s'.fault = some .busBusy :=
  ⟨rfl, rfl, _, rfl, rfl⟩

/-- Outside the caps at each boundary; inside them at both ends of `ipf`, with at most 40 frames. -/
theorem witness_ReadCaps :
    (0 : Word).toNat < 1 ∧ 4 < (5 : Word).toNat ∧
      Config.params.maxFrames < ((0xFFFF : Word).toNat + (1 : Word).toNat - 1) / (1 : Word).toNat ∧
      ((40 : Word).toNat + (1 : Word).toNat - 1) / (1 : Word).toNat ≤ Config.params.maxFrames ∧
      ((160 : Word).toNat + (4 : Word).toNat - 1) / (4 : Word).toNat ≤ Config.params.maxFrames ∧ State.reset.fault = none ∧
      ∃ t, exec (.readMultiple 0x41 40 1 0x10) State.reset = .next t := by
  obtain ⟨-, -, -, h40, h64, -⟩ := valid_ranges params_valid
  refine ⟨by decide, by decide, ?_, ?_, ?_, rfl, exec_is_next _ _⟩ <;> simp <;> omega

theorem witness_ReadClaimsTheBus :
    1 ≤ (4 : Word).toNat ∧ (4 : Word).toNat ≤ 4 ∧ 1 ≤ (160 : Word).toNat ∧
      ((160 : Word).toNat + (4 : Word).toNat - 1) / (4 : Word).toNat ≤ Config.params.maxFrames ∧
      State.reset.busy = .idle ∧ { State.reset with busy := .busy }.busy = .busy := by
  obtain ⟨-, -, -, h40, -⟩ := valid_ranges params_valid
  refine ⟨by decide, by decide, by decide, ?_, rfl, rfl⟩
  simp; omega

theorem witness_ReadRequestMessage :
    1 ≤ (1 : Word).toNat ∧ (1 : Word).toNat ≤ 4 ∧ 1 ≤ (40 : Word).toNat ∧
      ((40 : Word).toNat + (1 : Word).toNat - 1) / (1 : Word).toNat ≤ Config.params.maxFrames ∧
      State.reset.busy = .idle ∧ ∃ t, exec (.readMultiple 0x41 40 1 0x10) State.reset = .next t := by
  obtain ⟨-, -, -, h40, -⟩ := valid_ranges params_valid
  refine ⟨by decide, by decide, by decide, ?_, rfl, exec_is_next _ _⟩
  simp; omega

/-- A frame received whole, none of it, three words of it, and one cut to four words whose last word is no checksum. -/
theorem witness_FrameLength :
    (1 ≤ lastFrame.rd.ipf ∧ 4 + (lastFrame.rd.k + 1) * (3 + lastFrame.rd.ipf) ≤ lastFrame.rd.received) ∧
      (frameWords { lastFrame with rd := { lastFrame.rd with received := 39 } }).length = 0 ∧
      (frameWords { lastFrame with rd := { lastFrame.rd with received := 42 } }).length = 3 ∧
      let w := frameWords { lastFrame with rd := { lastFrame.rd with received := 43 } };
      w.length = 4 ∧ ref.crc (w.take (w.length - 1)) ≠ w.getD (w.length - 1) 0 := by decide

/-- A read inside its walk with nothing received, and one with a good frame. -/
def walkOfOne (op : Instr) (received : Nat) : State :=
  { inside (.running op .frames) [] with
    rxBuf := tableWriteList 0 4 (goodFrame 0 goodReg 7) []
    rd := ⟨0x41, 1, 1, goodReg, received, 1, 0, 1, [], .ok⟩ }

theorem witness_FrameOutcomeOrder_fails :
    ∀ op ∈ [Instr.readMultiple 0x41 1 1 goodReg, .read 0x41 goodReg],
      let s := walkOfOne op 4;
      s.fault = none ∧ s.moves = [] ∧ s.opState = .running op .frames ∧ s.rd.st = .ok ∧ s.rd.k < s.rd.fc ∧
        ∃ t, decodeWords Config.params (frameWords s) s = .ok (t, .timeout) :=
  fun _ _ => ⟨rfl, rfl, rfl, rfl, Nat.zero_lt_one, _, rfl⟩

theorem walkOfOne_frame (op : Instr) : frameWords (walkOfOne op 8) = goodFrame 0 goodReg 7 := by
  have h : ∀ i < 4, rxRead (4 + i) (walkOfOne op 8) = (goodFrame 0 goodReg 7).getD i 0 := fun i hi =>
    tableRead_writeList_inside 0 (goodFrame 0 goodReg 7) 4 i [] hi
  show (List.range 4).map (fun i => rxRead (4 + i) (walkOfOne op 8)) = _
  rw [List.map_congr_left fun i hi => h i (List.mem_range.1 hi)]
  rfl

theorem witness_FrameOutcomeOrder_passes :
    let s := walkOfOne (.read 0x41 goodReg) 8;
    s.fault = none ∧ s.rd.st = .ok ∧ s.rd.k < s.rd.fc ∧
      ∃ t, decodeWords Config.params (frameWords s) s = .ok (t, .ok) ∧ t.d.ra = s.rd.ra ∧
        t.d.reg = s.rd.reg + BitVec.ofNat 16 (s.rd.k * s.rd.ipf) := by
  refine ⟨rfl, rfl, Nat.zero_lt_one, ?_⟩
  rw [walkOfOne_frame]
  rcases decodeWords_cases Config.params (goodFrame 0 goodReg 7) (walkOfOne (.read 0x41 goodReg) 8) with
    ⟨h, -⟩ | ⟨h, -⟩ | ⟨-, h, -⟩ | ⟨-, -, h⟩
  · exact absurd h (by decide)
  · exact absurd h (by decide)
  · exact absurd h (by decide)
  · have hc : checksumOk Config.params (goodFrame 0 goodReg 7) = true := beq_self_eq_true _
    have hr : (fieldsOf (goodFrame 0 goodReg 7)).reg ≠ Config.params.errorRegAddr := goodReg_ne
    have hn : (fieldsOf (goodFrame 0 goodReg 7)).cnt =
        ctRead (fieldsOf (goodFrame 0 goodReg 7)).ra (walkOfOne (.read 0x41 goodReg) 8) := rfl
    have hm : (fieldsOf (goodFrame 0 goodReg 7)).cmd = .response := rfl
    rw [decodeFramed_eq] at h
    simp only [framedStatus, hc, hr, ← hn, hm, ne_eq, not_true_eq_false, if_false, reduceCtorEq] at h
    refine ⟨_, h, rfl, ?_⟩
    show goodReg = goodReg + BitVec.ofNat 16 (0 * 1)
    simp

theorem witness_FrameItemsCopied :
    let words := frameWords lastFrame;
    4 ≤ words.length ∧ words.length ≤ 7 ∧ lastFrame.rd.ipf ≤ 4 ∧
      framedStatus ref (checksumOk ref words) (ctRead (headerAddr (words.getD 0 0)) lastFrame) (fieldsOf words) = .ok ∧
      headerAddr (words.getD 0 0) = lastFrame.rd.ra ∧
      words.getD 1 0 = lastFrame.rd.reg + BitVec.ofNat 16 (lastFrame.rd.k * lastFrame.rd.ipf) := by decide

theorem witness_ReceiveTimeout :
    let s := inside (.waiting (.readMultiple 0x41 22 4 0x10) .rx) [.timeout .rx];
    s.fault = none ∧ s.opState = .waiting (.readMultiple 0x41 22 4 0x10) .rx ∧ s.noteRx = none ∧
      s.moves = [.timeout .rx] := by decide

theorem witness_ReassemblyCompleteness :
    let received := [0, 0, 0, 0] ++ goodFrame 0 goodReg 7;
    let i := Instr.readMultiple 0x41 1 1 goodReg;
    let s := requested ⟨.req, .caller, encode i⟩ [.answer .accepted, .complete ⟨.rx, received.length⟩ received];
    let fc := ((1 : Word).toNat + (1 : Word).toNat - 1) / (1 : Word).toNat;
    s.fault = none ∧ s.opState = .ready ∧ s.busy = .idle ∧ s.port = some ⟨.req, .caller, encode i⟩ ∧
      received.length = 4 + fc * (3 + (1 : Word).toNat) ∧
      ∀ k < fc, frameGood Config.params received 0x41 goodReg (1 : Word).toNat (ctRead 0x41 s) k := by
  refine ⟨rfl, rfl, rfl, rfl, rfl, fun k hk => ?_⟩
  obtain rfl : k = 0 := Nat.lt_one_iff.1 hk
  exact goodFrame_good

theorem witness_ReadReturns :
    let received := [0, 0, 0, 0] ++ goodFrame 0 goodReg 7;
    (let s := requested ⟨.req, .caller, encode (.read 0x41 goodReg)⟩ [.answer .accepted, .complete ⟨.rx, 8⟩ received];
      s.fault = none ∧ s.opState = .ready ∧ s.busy = .idle ∧ s.port = some ⟨.req, .caller, encode (.read 0x41 goodReg)⟩ ∧
        received.length = 8 ∧ frameGood Config.params received 0x41 goodReg 1 (ctRead 0x41 s) 0) ∧
      let s := requested ⟨.req, .caller, encode (.read 0x41 goodReg)⟩ [.answer .accepted, .timeout .rx];
      s.busy = .idle ∧ s.noteRx = none ∧ s.moves = [.answer .accepted, .timeout .rx] :=
  ⟨⟨rfl, rfl, rfl, rfl, rfl, goodFrame_good⟩, rfl, rfl, rfl⟩

theorem witness_PositionAddress :
    ({ ref with chainBase := 60 } : Params).valid = true ∧ 1 ≤ 1 ∧ 1 ≤ ({ ref with chainBase := 60 } : Params).deviceCount ∧
      3 ≤ ({ ref with chainBase := 60 } : Params).deviceCount := by decide

/-- The phases that write, with a completion, with a timeout and with a stale notification pending; on a busy bus; and after
their write. -/
theorem witness_SleepPhase_AssignPhase_ConfigPhase :
    ∀ ph ∈ [Phase.sleep, .assign, .config],
      (∀ ms ∈ [[Move.answer .accepted, .complete ⟨.tx, 0⟩ []], [.answer .accepted, .timeout .tx]],
        let s := walking .phase ph ms;
        s.fault = none ∧ s.opState = .running .enumerate .phase ∧ s.phase = ph ∧ s.busy = .idle ∧ s.noteTx = none ∧
          s.moves = ms) ∧
      (let s := { walking .phase ph [.answer .accepted] with noteTx := some 0 };
        s.fault = none ∧ s.opState = .running .enumerate .phase ∧ s.phase = ph ∧ s.busy = .idle ∧ s.noteTx = some 0 ∧
          s.moves = [.answer .accepted]) ∧
      (let s := { walking .phase ph [] with busy := .busy, inflight := [⟨.tx, 0⟩] };
        s.fault = none ∧ s.opState = .running .enumerate .phase ∧ s.phase = ph ∧ s.busy = .busy ∧ s.moves = []) ∧
      let s := walking .written ph [];
      s.fault = none ∧ s.opState = .running .enumerate .written ∧ s.phase = ph ∧ s.moves = [] := by decide

theorem witness_SleepPhase_settle :
    let s := walking .settle .sleep [];
    s.fault = none ∧ s.opState = .running .enumerate .settle ∧ s.phase = .sleep ∧ s.moves = [] := by decide

/-- The phases that read, before their read on an idle and on a busy bus, after one that failed and after one that succeeded,
and the wake delay. -/
theorem witness_ProbePhases_VerifyPhase_UidPhase :
    (∀ ph ∈ [Phase.probe1, .probe2, .verify, .uid], ∀ b ∈ [Busy.idle, .busy],
      let s := { walking .phase ph [] with busy := b };
      s.fault = none ∧ s.moves = [] ∧ s.phase = ph ∧ s.opState = .running .enumerate .phase ∧ s.busy = b) ∧
    (∀ ph ∈ [Phase.probe1, .probe2, .verify, .uid], ∀ st ∈ [Status.ok, .timeout],
      let s := { walking .frames ph [] with rd := { ReadRegs.reset with st := st } };
      s.fault = none ∧ s.moves = [] ∧ s.phase = ph ∧ s.opState = .running .enumerate .frames ∧ walkOver s.rd = true ∧
        s.rd.st = st ∧ s.rd.acc.length ≤ 256) ∧
    (walking .phase .wake []).phase = .wake := by decide

theorem witness_EnumerationStartsAndReturns :
    let s := walking .phase .done [];
    s.fault = none ∧ s.moves = [] ∧ s.opState = .running .enumerate .phase ∧ s.phase = .done := by decide

theorem witness_InnerCallsDoNotRespond :
    let s := walking .phase .done [];
    (∃ pt, s.opState = .running .enumerate pt) ∧ (∀ rest, s.moves ≠ .reset :: rest) ∧
      ∃ s', step s = .next s' ∧ s'.response ≠ s.response :=
  ⟨⟨_, rfl⟩, nofun, _, rfl, nofun⟩

theorem witness_SilentChainEnumeration :
    let s := requested (callerReq [0xB000]) (List.replicate Config.params.deviceCount silentPosition).flatten;
    s.fault = none ∧ s.opState = .ready ∧ s.busy = .idle ∧ s.noteTx = none ∧ s.noteRx = none ∧
      s.port = some ⟨.req, .caller, [0xB000]⟩ :=
  ⟨rfl, rfl, rfl, rfl, rfl, rfl⟩

theorem witness_FaultIsSticky_ResetAtAnyTime :
    (let s := { State.reset with fault := some .busBusy };
      s.fault = some .busBusy ∧ ∀ rest, s.moves ≠ .reset :: rest) ∧
      { inside (.waiting .enumerate .rx) [.reset] with fault := some .transferRejected }.moves = .reset :: [] :=
  ⟨⟨rfl, nofun⟩, rfl⟩

/-- There is an instance of string 0, and it is the reset state. -/
theorem witness_ResetState : 0 < Config.params.nStrings ∧ { State.reset with string := 0 } = State.reset :=
  ⟨(valid_ranges params_valid).1, rfl⟩

theorem witness_StringsShareNothing :
    ∃ y', systemStep 1 ⟨[State.reset, { inside .ready [.reset] with string := 1 }]⟩ = some y' :=
  ⟨_, rfl⟩

theorem witness_UnspecifiedValuesAreNotRead :
    let s' := { State.reset with txBuf := ⟨1, 2, 3, 4⟩, rxBuf := [(0, 5)], uid := [(256, 7)], rd := { ReadRegs.reset with k := 9 } }
    controlWf State.reset = true ∧ agreeButUnspecified State.reset s' ∧ step State.reset = .next State.reset :=
  ⟨rfl, ⟨rfl, nofun, nofun, nofun, nofun, nofun⟩, rfl⟩

/-- The reset state meets the invariants of the five statements about steps, and takes a step. -/
theorem witness_invariants :
    tablesWf State.reset = true ∧ busAccounted State.reset = true ∧ controlWf State.reset = true ∧
      walkWf Config.params State.reset = true ∧ buffersWf Config.params State.reset = true ∧
      readRegsWf Config.params State.reset = true ∧ uidCountsWf Config.params State.reset = true ∧
      step State.reset = .next State.reset :=
  ⟨rfl, rfl, rfl, rfl, rfl, rfl, rfl, rfl⟩

theorem witness_ProgrammingErrorOnlyFromRequests :
    let s := requested (callerReq [0xA000, 0x41, 22, 5, 0x10]) [];
    controlWf s = true ∧ walkWf Config.params s = true ∧ readRegsWf Config.params s = true ∧ s.fault = none ∧
      ∃ s', step s = .next s' ∧ s'.fault = some .programmingError :=
  ⟨rfl, rfl, rfl, rfl, _, rfl, rfl⟩

end Sys2Proof.Tests
end

namespace Sys2Proof.Proofs

open Machine

/-! ## What a step writes to the tables -/

/-- The counter table is as it was, or one entry was advanced or reset (R131, R132). -/
def ctMoved (s t : State) : Prop :=
  t.ct = s.ct ∨ (∃ ra, t.ct = (ctrAdvance ra s).ct) ∨ ∃ ra, t.ct = (ctrReset ra s).ct

/-- The addressed bits are as they were, all cleared, or one was written (R180, R183, R184, R186). -/
def addressedMoved (s t : State) : Prop :=
  t.addressed = s.addressed ∨ t.addressed = [] ∨ ∃ b, t.addressed = (addressedWrite s.pos b s).addressed

/-- The identifiers are as they were, or the read of phase `Uid` stored its items (R187). -/
def uidMoved (s t : State) : Prop :=
  (t.uid = s.uid ∧ t.uidCount = s.uidCount) ∨
    (s.opState = .running .enumerate .frames ∧ s.phase = .uid ∧ t.uid = (uidStore s.pos s.rd.acc s).uid ∧
      t.uidCount = (uidStore s.pos s.rd.acc s).uidCount)

/-- What a step inside an operation does to the tables that it writes. -/
def tablesMoved (s t : State) : Prop :=
  ctMoved s t ∧ addressedMoved s t ∧ uidMoved s t

theorem tablesMoved_refl (s : State) : tablesMoved s s :=
  ⟨.inl rfl, .inl rfl, .inl ⟨rfl, rfl⟩⟩

theorem ctMoved_of_ctrAdvance {s t : State} {ra : Addr} (h : t.ct = (ctrAdvance ra s).ct) : ctMoved s t :=
  .inr (.inl ⟨ra, h⟩)

theorem ctMoved_of_ctrReset {s t : State} {ra : Addr} (h : t.ct = (ctrReset ra s).ct) : ctMoved s t :=
  .inr (.inr ⟨ra, h⟩)

/-- A decode writes the counter table by one advance at most (R116, R133). -/
theorem decodeWords_ctMoved {P : Params} {words : List Word} {s t : State} {st : Status}
    (h : decodeWords P words s = .ok (t, st)) : ctMoved s t := by
  rcases decodeWords_cases P words s with ⟨-, e⟩ | ⟨-, e⟩ | ⟨-, -, e⟩ | ⟨-, -, e⟩ <;> rw [e] at h
  · cases h
  · cases h; exact .inl rfl
  · cases h; exact .inl rfl
  · rw [decodeFramed_eq] at h
    cases h
    exact ctMoved_of_ctrAdvance rfl

/-- An answer frame writes the counter table as its decode does (R133). -/
theorem frameStep_ctMoved (P : Params) (s : State) : ctMoved s (frameStep P s) := by
  rcases frameStep_cases P s with ⟨-, e⟩ | ⟨t, sd, hd, ⟨-, e⟩ | ⟨st, -, -, e⟩⟩ <;> rw [e]
  · exact .inl rfl
  · exact (decodeWords_ctMoved hd : ctMoved s t)
  · exact (decodeWords_ctMoved hd : ctMoved s t)

/-- What the instruction of a request writes to the tables in the step that takes it. -/
theorem exec_tables {i : Instr} {s t : State} (h : exec i s = .next t) :
    ctMoved s t ∧ addressedMoved s t ∧ t.uid = s.uid ∧ t.uidCount = s.uidCount ∧ t.rxBuf = s.rxBuf := by
  have hkeep : t.uid = s.uid ∧ t.uidCount = s.uidCount ∧ t.rxBuf = s.rxBuf := by
    rw [exec_changes h]; exact ⟨rfl, rfl, rfl⟩
  refine and_assoc.1 ⟨?_, hkeep⟩
  rcases exec_cases h with ⟨f, rfl, -⟩ | ⟨r, s1, rfl, rfl | ⟨ws, st, hd⟩ | ⟨ra, rfl⟩ | ⟨ra, rfl⟩⟩ |
    ⟨ra, reg, value, -, rfl⟩ | ⟨ra, n, ipf, reg, -, rfl⟩ | ⟨-, rfl⟩
  · exact ⟨.inl rfl, .inl rfl⟩
  · exact ⟨.inl rfl, .inl rfl⟩
  · refine ⟨(decodeWords_ctMoved hd : ctMoved s s1), .inl ?_⟩
    rw [decodeWords_changes hd]; rfl
  · exact ⟨ctMoved_of_ctrAdvance rfl, .inl rfl⟩
  · exact ⟨ctMoved_of_ctrReset rfl, .inl rfl⟩
  · rw [writeBegin_changes]; exact ⟨.inl rfl, .inl rfl⟩
  · rw [readBegin_changes]; exact ⟨.inl rfl, .inl rfl⟩
  · exact ⟨.inl rfl, .inr (.inl rfl)⟩

/-- What a phase writes to the tables with its returned read (R183, R184, R186, R187). -/
theorem phaseRead_tables (P : Params) (s : State) (hop : s.opState = .running .enumerate .frames) :
    let t := phaseRead P .enumerate s.rd.acc s.rd.st (forgetReadRegs s)
    tablesMoved s t := by
  rcases phaseRead_cases P .enumerate s.rd.acc s.rd.st (forgetReadRegs s) with
    ⟨-, -, e⟩ | ⟨-, -, e⟩ | ⟨-, -, e⟩ | ⟨-, e⟩ | ⟨hph, -, e⟩ | ⟨hph, -, e⟩ | ⟨-, e⟩ <;> rw [e]
  · exact ⟨ctMoved_of_ctrReset rfl, .inr (.inr ⟨true, rfl⟩), .inl ⟨rfl, rfl⟩⟩
  · exact tablesMoved_refl s
  · exact tablesMoved_refl s
  · exact ⟨.inl rfl, .inr (.inr ⟨_, rfl⟩), .inl ⟨rfl, rfl⟩⟩
  · exact ⟨.inl rfl, .inl rfl, .inr ⟨hop, hph, rfl, rfl⟩⟩
  · exact ⟨.inl rfl, .inl rfl, .inr ⟨hop, hph, rfl, rfl⟩⟩
  · exact tablesMoved_refl s

/-- What the engine's step inside an operation writes to the tables. -/
theorem engineStep_tables {P : Params} {s t : State} (h : engineStep P s = some t) :
    tablesMoved s t := by
  rcases engineStep_cases h with ⟨op, c, r, -, -, rfl⟩ | ⟨op, -, rfl⟩ | ⟨op, -, rfl⟩ | ⟨op, -, rfl⟩ |
    ⟨op, hop, -, rfl⟩ | ⟨op, -, -, rfl⟩
  · cases c <;> exact tablesMoved_refl s
  · rw [phaseStep_changes]; exact tablesMoved_refl s
  · rcases writeReturns_cases P op s with ⟨-, e⟩ | ⟨-, e⟩ | ⟨-, e⟩ <;> rw [e]
    · exact tablesMoved_refl s
    · rcases phaseWritten_cases P .enumerate s with ⟨-, e⟩ | ⟨-, e⟩ | ⟨-, e⟩ | ⟨-, e⟩ <;> rw [e]
      · exact tablesMoved_refl s
      · exact ⟨ctMoved_of_ctrReset rfl, .inl rfl, .inl ⟨rfl, rfl⟩⟩
      · exact tablesMoved_refl s
      · exact tablesMoved_refl s
    · exact tablesMoved_refl s
  · exact tablesMoved_refl s
  · rcases readReturns_cases P op s with ⟨-, e⟩ | ⟨-, e⟩ | ⟨rfl, e⟩ | ⟨-, e⟩ <;> rw [e]
    · exact tablesMoved_refl s
    · exact tablesMoved_refl s
    · exact phaseRead_tables P s hop
    · exact tablesMoved_refl s
  · refine ⟨frameStep_ctMoved P s, ?_⟩
    rw [frameStep_changes]; exact ⟨.inl rfl, .inl ⟨rfl, rfl⟩⟩

/-- The other agents write no table but the receive buffer (R146). -/
theorem agentMove_tables {P : Params} {m : Move} {s t : State} (h : agentMove P m s = some t) :
    t.ct = s.ct ∧ t.addressed = s.addressed ∧ t.uid = s.uid ∧ t.uidCount = s.uidCount ∧
      (t.rxBuf = s.rxBuf ∨ ∃ words, t.rxBuf = tableWriteList 0 0 words s.rxBuf) := by
  rcases agentMove_cases h with ⟨r, -, -, rfl⟩ | ⟨a, op, c, n, -, -, rfl⟩ | ⟨tr, ws, -, -, rfl⟩ | ⟨op, c, -, -, -, rfl⟩
  · exact ⟨rfl, rfl, rfl, rfl, .inl rfl⟩
  · cases a <;> exact ⟨rfl, rfl, rfl, rfl, .inl rfl⟩
  · rw [completion_eq]
    cases tr.kind
    · exact ⟨rfl, rfl, rfl, rfl, .inl rfl⟩
    · exact ⟨rfl, rfl, rfl, rfl, .inr ⟨ws, rfl⟩⟩
  · cases c <;> exact ⟨rfl, rfl, rfl, rfl, .inl rfl⟩

/-- A request taken off the port writes the tables as its instruction does. -/
theorem runRequest_tables {r : Request} {s t : State} (h : runRequest r s = .next t) :
    ctMoved s t ∧ addressedMoved s t ∧ t.uid = s.uid ∧ t.uidCount = s.uidCount ∧ t.rxBuf = s.rxBuf := by
  rcases runRequest_cases r s with ⟨i, -, e⟩ | ⟨err, -, e⟩ <;> rw [e] at h
  · exact (exec_tables h :)
  · cases h; exact ⟨.inl rfl, .inl rfl, rfl, rfl, rfl⟩

/-- What a whole step does to the counter table: moved as above, or cleared by a reset (R132, R220). -/
theorem step_ctMoved {s t : State} (h : step s = .next t) : ctMoved s t ∨ t.ct = [] := by
  rcases step_cases h with ⟨rest, -, rfl⟩ | ⟨-, ms, -, rfl | ⟨r, -, -, hr⟩ | he | ⟨m, -, ha⟩⟩
  · exact .inr rfl
  · exact .inl (.inl rfl)
  · exact .inl (runRequest_tables hr).1
  · exact .inl (engineStep_tables he).1
  · exact .inl (.inl (agentMove_tables ha).1)

/-- An entry of a moved counter table: kept, advanced by one, or 0. -/
theorem ctRead_of_ctMoved {s t : State} (h : ctMoved s t) (a : Addr) :
    ctRead a t = ctRead a s ∨ ctRead a t = ctRead a s + 1 ∨ ctRead a t = 0 := by
  rcases h with e | ⟨ra, e⟩ | ⟨ra, e⟩ <;> rw [ctRead_congr e]
  · exact .inl rfl
  · by_cases ha : a = ra
    · subst ha; exact .inr (.inl (ctRead_ctrAdvance_same a s))
    · exact .inl (ctRead_ctrAdvance_other ha s)
  · by_cases ha : a = ra
    · subst ha; exact .inr (.inr (ctRead_ctrReset_same a s))
    · exact .inl (ctRead_ctrReset_other ha s)

/-- Settles O23: every step moves the counter table by advances and resets alone. -/
theorem counterTableWriters : Obligations.CounterTableWriters := by
  intro s s' a h
  rcases step_ctMoved h with hm | hnil
  · exact ctRead_of_ctMoved hm a
  · exact .inr (.inr (by rw [ctRead, hnil]; rfl))

/-! ## The canonical form of the tables -/

theorem tablesWf_iff (s : State) :
    tablesWf s = true ↔ tableWf 0 s.ct = true ∧ tableWf 0 s.rxBuf = true ∧ tableWf false s.addressed = true ∧
      tableWf 0 s.uidCount = true ∧ tableWf 0 s.uid = true := by
  simp [tablesWf, and_assoc]

theorem tableWf_of_ctMoved {s t : State} (h : ctMoved s t) (hs : tableWf 0 s.ct = true) : tableWf 0 t.ct = true := by
  rcases h with e | ⟨ra, e⟩ | ⟨ra, e⟩ <;> rw [e]
  · exact hs
  · exact tableWf_write _ _ _ _ hs
  · exact tableWf_write 0 0 _ _ hs

theorem tableWf_of_addressedMoved {s t : State} (h : addressedMoved s t) (hs : tableWf false s.addressed = true) :
    tableWf false t.addressed = true := by
  rcases h with e | e | ⟨b, e⟩ <;> rw [e]
  · exact hs
  · rfl
  · exact tableWf_write _ _ _ _ hs

theorem tableWf_of_uidMoved {s t : State} (h : uidMoved s t) (hc : tableWf 0 s.uidCount = true)
    (hu : tableWf 0 s.uid = true) : tableWf 0 t.uidCount = true ∧ tableWf 0 t.uid = true := by
  rcases h with ⟨eu, ec⟩ | ⟨-, -, eu, ec⟩ <;> rw [eu, ec]
  · exact ⟨hc, hu⟩
  · exact ⟨tableWf_write _ _ _ _ hc, tableWf_writeList _ _ _ _ hu⟩

theorem runRequest_tablesWf {r : Request} {s t : State} (hs : tablesWf s = true) (h : runRequest r s = .next t) :
    tablesWf t = true := by
  obtain ⟨hct, hrx, had, huc, hu⟩ := (tablesWf_iff s).1 hs
  obtain ⟨mct, mad, eu, ec, erx⟩ := runRequest_tables h
  rw [tablesWf_iff, eu, ec, erx]
  exact ⟨tableWf_of_ctMoved mct hct, hrx, tableWf_of_addressedMoved mad had, huc, hu⟩

theorem engineStep_tablesWf {P : Params} {s t : State} (hs : tablesWf s = true) (h : engineStep P s = some t) :
    tablesWf t = true := by
  obtain ⟨hct, hrx, had, huc, hu⟩ := (tablesWf_iff s).1 hs
  obtain ⟨mct, mad, mu⟩ := engineStep_tables h
  obtain ⟨-, -, -, erx, -⟩ := engineStep_keeps h
  rw [tablesWf_iff, erx]
  exact ⟨tableWf_of_ctMoved mct hct, hrx, tableWf_of_addressedMoved mad had, tableWf_of_uidMoved mu huc hu⟩

theorem agentMove_tablesWf {P : Params} {m : Move} {s t : State} (hs : tablesWf s = true)
    (h : agentMove P m s = some t) : tablesWf t = true := by
  obtain ⟨hct, hrx, had, huc, hu⟩ := (tablesWf_iff s).1 hs
  obtain ⟨ect, ead, eu, ec, erx⟩ := agentMove_tables h
  rw [tablesWf_iff, ect, ead, eu, ec]
  refine ⟨hct, ?_, had, huc, hu⟩
  rcases erx with e | ⟨ws, e⟩ <;> rw [e]
  · exact hrx
  · exact tableWf_writeList _ _ _ _ hrx

/-- Settles O55: whoever moves, each table is kept, cleared, or written by table writes. -/
theorem tablesStayCanonical : Obligations.TablesStayCanonical := by
  intro s s' hs h
  exact step_preserves (fun s => tablesWf s = true) (moves := fun _ _ hs => hs) (reset := fun _ _ => rfl)
    (request := fun _ _ _ hs _ _ _ hr => runRequest_tablesWf hs hr)
    (engine := fun _ _ hs _ he => engineStep_tablesWf hs he)
    (agent := fun _ _ _ hs _ ha => agentMove_tablesWf hs ha) hs h

/-! ## Faults and the reset state -/

/-- Settles O49: with a fault set, `step` looks no further than for a reset. -/
theorem faultIsSticky : Obligations.FaultIsSticky := by
  refine ⟨fun s f hf hm => ?_, fun s rest hm => ⟨restart rest s, ?_, rfl⟩, rfl⟩
  · unfold step
    split
    · next rest hr => exact absurd hr (hm rest)
    · next hf' _ => rw [hf] at hf'; cases hf'; rfl
    · next hn _ => rw [hf] at hn; cases hn
  · simp only [step, hm]

/-- The record of string `i` after reset (R210). -/
theorem systemReset_getElem? {i : Nat} (hi : i < Config.params.nStrings) :
    systemReset.strings[i]? = some { State.reset with string := i } := by
  simp [systemReset, hi]

/-- Settles O50: `systemReset` holds the reset state under each string id. -/
theorem resetState : Obligations.ResetState := by
  obtain ⟨hn, -⟩ := valid_ranges params_valid
  refine ⟨by simp [systemReset], systemReset_getElem? hn, fun i hi => ⟨_, systemReset_getElem? hi, rfl, ?_⟩⟩
  exact ⟨fun _ => rfl, rfl, rfl, rfl, rfl, rfl, rfl, fun _ => rfl, fun _ => rfl, rfl, rfl, rfl⟩

/-- Settles O60: each invariant is evaluated at the one state. -/
theorem resetMeetsInvariants : Obligations.ResetMeetsInvariants :=
  ⟨rfl, rfl, rfl, rfl, rfl, rfl, rfl⟩

end Sys2Proof.Proofs

namespace Sys2Proof.Proofs

open Machine

/-! ## The control point and the enumeration registers -/

/-- The invariant of the control point: it is one that the operation's pseudocode has, with the enumeration registers at rest
outside a walk and inside the chain during it (R22, R28, R180). -/
def controlLegal (P : Params) (s : State) : Prop :=
  controlWf s = true ∧ walkWf P s = true

/-- The enumeration registers are inside the chain in an operation that walks it, and at rest in any other (R28, R180). -/
def walkFits (P : Params) (op : Instr) (s : State) : Prop :=
  if op = .enumerate then s.phase ≠ .idle ∧ 1 ≤ s.pos ∧ s.pos ≤ P.deviceCount else s.phase = .idle ∧ s.pos = 0

/-- A point of a running operation is one that its pseudocode has (R143, R160, R181). -/
def pointFits (op : Instr) (s : State) : Point → Prop
  | .entry => s.fault.isSome = true
  | .phase => op = .enumerate
  | .start c _ => channelFits op c s.phase = true
  | .written => channelFits op .tx s.phase = true
  | .settle => op = .enumerate ∧ s.phase = .sleep
  | .frames => channelFits op .rx s.phase = true

theorem walkFits_enumerate {P : Params} {s : State} :
    walkFits P .enumerate s ↔ s.phase ≠ .idle ∧ 1 ≤ s.pos ∧ s.pos ≤ P.deviceCount := by
  simp [walkFits]

theorem walkFits_of_ne {P : Params} {op : Instr} {s : State} (h : op ≠ .enumerate) :
    walkFits P op s ↔ s.phase = .idle ∧ s.pos = 0 := by
  simp [walkFits, h]

/-- Inside a walk a channel fits if the phase uses it (R181). -/
theorem channelFits_enumerate (c : Channel) (ph : Phase) : channelFits .enumerate c ph = phaseTransfers ph c := by
  simp [channelFits, transfersWith]

/-- Outside a walk a channel fits if the operation uses it (R91). -/
theorem channelFits_of_ne {op : Instr} (h : op ≠ .enumerate) (c : Channel) (ph : Phase) :
    channelFits op c ph = transfersWith op c := by
  simp [channelFits, h]

/-- An operation that uses a channel only if it fits uses it at all. -/
theorem transfersWith_of_channelFits {op : Instr} {c : Channel} {ph : Phase} (h : channelFits op c ph = true) :
    transfersWith op c = true := by
  simp only [channelFits, Bool.and_eq_true] at h; exact h.1

/-! ### The invariant at each kind of control point -/

theorem controlLegal_ready {P : Params} {s : State} (h : s.opState = .ready) :
    controlLegal P s ↔ s.phase = .idle ∧ s.pos = 0 := by
  simp [controlLegal, controlWf, walkWf, h]

theorem controlLegal_waiting {P : Params} {s : State} {op : Instr} {c : Channel} (h : s.opState = .waiting op c) :
    controlLegal P s ↔ walkFits P op s ∧ channelFits op c s.phase = true := by
  have hw : walkWf P s = true ↔ walkFits P op s := by
    cases op <;> simp [walkWf, walkFits, h, and_assoc]
  rw [controlLegal, hw, and_comm]
  simp [controlWf, h]

theorem controlLegal_running {P : Params} {s : State} {op : Instr} {pt : Point} (h : s.opState = .running op pt) :
    controlLegal P s ↔ walkFits P op s ∧ pointFits op s pt := by
  have hw : walkWf P s = true ↔ walkFits P op s := by
    cases op <;> simp [walkWf, walkFits, h, and_assoc]
  have hc : walkFits P op s → (controlWf s = true ↔ pointFits op s pt) := by
    intro hf
    cases pt with
    | phase =>
      by_cases he : op = .enumerate
      · subst he; simpa [controlWf, pointFits, h] using (walkFits_enumerate.1 hf).1
      · simp [controlWf, pointFits, h, he]
    | _ => simp [controlWf, pointFits, h]
  rw [controlLegal, hw, and_comm]
  exact and_congr_right hc

/-- A running operation at a point that fits. -/
theorem controlLegal_of_running {P : Params} {t : State} {op : Instr} {pt : Point} (h : t.opState = .running op pt)
    (hw : walkFits P op t) (hp : pointFits op t pt) : controlLegal P t :=
  (controlLegal_running h).2 ⟨hw, hp⟩

/-! ### Shared operations -/

/-- A fault leaves the control point where it is (R203). -/
theorem controlLegal_raiseFault {P : Params} {s : State} (f : Fault) (h : controlLegal P s) :
    controlLegal P (raiseFault f s) := by
  cases ho : s.opState with
  | ready => exact (controlLegal_ready (s := raiseFault f s) ho).2 ((controlLegal_ready ho).1 h)
  | waiting op c => exact (controlLegal_waiting (s := raiseFault f s) ho).2 ((controlLegal_waiting ho).1 h)
  | running op pt =>
    obtain ⟨hw, hp⟩ := (controlLegal_running ho).1 h
    cases pt with
    | entry => exact controlLegal_of_running ho hw rfl
    | _ => exact controlLegal_of_running ho hw hp

/-- A fault right after the acceptance of an operation (R90, R203). -/
theorem controlLegal_raiseFault_accept {P : Params} {s : State} {op : Instr} (f : Fault) (h : walkFits P op s) :
    controlLegal P (raiseFault f (accept op s)) :=
  controlLegal_of_running rfl h rfl

/-- A return outside a walk, or at its end (R204). -/
theorem controlLegal_respond {P : Params} {s : State} (r : Response) (h : s.phase = .idle ∧ s.pos = 0) :
    controlLegal P (respond r s) :=
  (controlLegal_ready rfl).2 h

/-- Standing before a phase's rule at a position of the chain (R181). -/
theorem controlLegal_toPhase {P : Params} {s : State} {ph : Phase} (hph : ph ≠ .idle)
    (hpos : 1 ≤ s.pos ∧ s.pos ≤ P.deviceCount) : controlLegal P (toPhase .enumerate ph s) :=
  controlLegal_of_running rfl (walkFits_enumerate.2 ⟨hph, hpos⟩) rfl

/-- A claim of the bus for a transfer that the operation makes (R141). -/
theorem controlLegal_gateClaim {P : Params} {op : Instr} {c : Channel} {s : State} (n : Nat) (m : List Word)
    (hw : walkFits P op s) (hc : channelFits op c s.phase = true) (hf : ∀ f, controlLegal P (raiseFault f s)) :
    controlLegal P (gateClaim op c n m s) := by
  rcases gateClaim_cases op c n m s with ⟨-, e⟩ | ⟨-, e⟩ <;> rw [e]
  · exact controlLegal_of_running rfl hw hc
  · exact hf _

theorem controlLegal_writeBegin {P : Params} {op : Instr} {s : State} (ra : Addr) (reg value : Word)
    (hw : walkFits P op s) (hc : channelFits op .tx s.phase = true) (hf : ∀ f, controlLegal P (raiseFault f s)) :
    controlLegal P (writeBegin P op ra reg value s) := by
  rw [writeBegin_eq]; exact controlLegal_gateClaim _ _ hw hc hf

theorem controlLegal_readBegin {P : Params} {op : Instr} {s : State} (ra : Addr) (n ipf : Nat) (reg : Word)
    (hw : walkFits P op s) (hc : channelFits op .rx s.phase = true) (hf : ∀ f, controlLegal P (raiseFault f s)) :
    controlLegal P (readBegin P op ra n ipf reg s) := by
  rw [readBegin_eq]
  split
  · exact hf _
  · exact controlLegal_gateClaim _ _ hw hc hf

/-! ### Requests -/

/-- An instruction run in Ready leads to a legal control point. -/
theorem exec_controlLegal {i : Instr} {s t : State} (ho : s.opState = .ready) (hs : controlLegal Config.params s)
    (h : exec i s = .next t) : controlLegal Config.params t := by
  have hrest := (controlLegal_ready ho).1 hs
  have begun : ∀ {op c}, op ≠ Instr.enumerate → transfersWith op c = true →
      walkFits Config.params op (accept op s) ∧ channelFits op c (accept op s).phase = true :=
    fun hne htr => ⟨(walkFits_of_ne hne).2 hrest, (channelFits_of_ne hne ..).trans htr⟩
  rcases exec_cases h with ⟨f, rfl, -⟩ | ⟨r, s1, rfl, hs1⟩ | ⟨ra, reg, value, rfl, rfl⟩ |
    ⟨ra, n, ipf, reg, hi, rfl⟩ | ⟨rfl, rfl⟩
  · exact controlLegal_raiseFault f hs
  · refine controlLegal_respond r ?_
    rcases hs1 with rfl | ⟨ws, st, hd⟩ | ⟨ra, rfl⟩ | ⟨ra, rfl⟩
    · exact hrest
    · rw [decodeWords_changes hd]; exact hrest
    · exact hrest
    · exact hrest
  · obtain ⟨hw, hc⟩ := begun (op := .write ra reg value) (c := .tx) nofun rfl
    exact controlLegal_writeBegin ra reg value hw hc fun f => controlLegal_raiseFault_accept f hw
  · have hop : i ≠ .enumerate ∧ transfersWith i .rx = true := by
      rcases hi with ⟨rfl, -⟩ | ⟨nw, ipfw, rfl, -⟩ <;> exact ⟨nofun, rfl⟩
    obtain ⟨hw, hc⟩ := begun hop.1 hop.2
    exact controlLegal_readBegin ra n ipf reg hw hc fun f => controlLegal_raiseFault_accept f hw
  · exact controlLegal_toPhase nofun ⟨Nat.le_refl 1, (valid_ranges params_valid).2.1⟩

theorem runRequest_controlLegal {r : Request} {s t : State} (ho : s.opState = .ready)
    (hs : controlLegal Config.params s) (h : runRequest r s = .next t) : controlLegal Config.params t := by
  have htake : controlLegal Config.params (takeRequest r s) := (controlLegal_ready ho).2 ((controlLegal_ready ho).1 hs)
  rcases runRequest_cases r s with ⟨i, -, e⟩ | ⟨err, -, e⟩ <;> rw [e] at h
  · exact exec_controlLegal (s := takeRequest r s) ho htake h
  · cases h; exact controlLegal_raiseFault _ htake

/-! ### The engine's steps -/

/-- The end of a wait goes on at the point of its channel (R144). -/
theorem waitDone_controlLegal {P : Params} {s : State} {op : Instr} {c : Channel} (r : Nat)
    (ho : s.opState = .waiting op c) (hs : controlLegal P s) : controlLegal P (waitDone op c r s) := by
  obtain ⟨hw, hc⟩ := (controlLegal_waiting ho).1 hs
  cases c
  · rw [waitDone_tx]; exact controlLegal_of_running rfl hw hc
  · rw [waitDone_rx]; exact controlLegal_of_running rfl hw hc

/-- A phase rule: a transfer of the phase, the next phase, or the return (R181). -/
theorem phaseStep_controlLegal {P : Params} {s : State} {op : Instr} (ho : s.opState = .running op .phase)
    (hs : controlLegal P s) : controlLegal P (phaseStep P op s) := by
  obtain ⟨hw, rfl⟩ := (controlLegal_running ho).1 hs
  obtain ⟨hidle, hpos⟩ := walkFits_enumerate.1 hw
  have hf : ∀ f, controlLegal P (raiseFault f s) := fun f => controlLegal_raiseFault f hs
  have hwrite : phaseTransfers s.phase .tx = true → ∀ ra reg value,
      controlLegal P (writeBegin P .enumerate ra reg value s) := fun hc ra reg value =>
    controlLegal_writeBegin ra reg value hw ((channelFits_enumerate ..).trans hc) hf
  have hread : phaseTransfers s.phase .rx = true → ∀ ra n ipf reg,
      controlLegal P (readBegin P .enumerate ra n ipf reg s) := fun hc ra n ipf reg =>
    controlLegal_readBegin ra n ipf reg hw ((channelFits_enumerate ..).trans hc) hf
  cases hph : s.phase <;> rw [phaseStep_eq P .enumerate hph] <;> rw [hph] at hwrite hread
  case idle => exact absurd hph hidle
  case sleep => exact hwrite rfl ..
  case assign => exact hwrite rfl ..
  case config => exact hwrite rfl ..
  case probe1 => exact hread rfl ..
  case probe2 => exact hread rfl ..
  case verify => exact hread rfl ..
  case uid => exact hread rfl ..
  case wake => exact controlLegal_toPhase nofun hpos
  case done => exact controlLegal_respond _ ⟨rfl, rfl⟩

/-- The return of a write: of the operation, or to the phase that issued it (R143, R205). -/
theorem writeReturns_controlLegal {P : Params} {s : State} {op : Instr} (ho : s.opState = .running op .written)
    (hs : controlLegal P s) : controlLegal P (writeReturns P op s) := by
  obtain ⟨hw, hc⟩ := (controlLegal_running ho).1 hs
  rcases writeReturns_cases P op s with ⟨⟨ra, reg, value, rfl⟩, e⟩ | ⟨rfl, e⟩ | ⟨-, e⟩ <;> rw [e]
  · exact controlLegal_respond _ ((walkFits_of_ne (by simp)).1 hw)
  · obtain ⟨-, hpos⟩ := walkFits_enumerate.1 hw
    rcases phaseWritten_cases P .enumerate s with ⟨hph, e⟩ | ⟨-, e⟩ | ⟨-, e⟩ | ⟨-, e⟩ <;> rw [e]
    · exact controlLegal_of_running rfl hw ⟨rfl, hph⟩
    · exact controlLegal_toPhase nofun hpos
    · exact controlLegal_toPhase nofun hpos
    · exact hs
  · exact hs

/-- What a phase does with its read keeps the walk inside the chain (R181, R187). -/
theorem phaseRead_controlLegal {P : Params} {s : State} (acc : List Word) (st : Status)
    (hs : controlLegal P s) (hpos : 1 ≤ s.pos ∧ s.pos ≤ P.deviceCount) :
    controlLegal P (phaseRead P .enumerate acc st s) := by
  rcases phaseRead_cases P .enumerate acc st s with
    ⟨-, -, e⟩ | ⟨-, -, e⟩ | ⟨-, -, e⟩ | ⟨-, e⟩ | ⟨-, hlt, e⟩ | ⟨-, -, e⟩ | ⟨-, e⟩ <;> rw [e]
  · exact controlLegal_toPhase nofun hpos
  · exact controlLegal_toPhase nofun hpos
  · exact controlLegal_toPhase nofun hpos
  · exact controlLegal_toPhase nofun hpos
  · exact controlLegal_toPhase nofun ⟨Nat.le_add_left 1 s.pos, hlt⟩
  · exact controlLegal_toPhase nofun hpos
  · exact hs

/-- The return of a read: of the operation, or to the phase that issued it (R163, R171, R205). -/
theorem readReturns_controlLegal {P : Params} {s : State} {op : Instr} (ho : s.opState = .running op .frames)
    (hs : controlLegal P s) : controlLegal P (readReturns P op s) := by
  obtain ⟨hw, -⟩ := (controlLegal_running ho).1 hs
  rcases readReturns_cases P op s with ⟨⟨ra, reg, rfl⟩, e⟩ | ⟨⟨ra, n, ipf, reg, rfl⟩, e⟩ | ⟨rfl, e⟩ | ⟨-, e⟩ <;> rw [e]
  · exact controlLegal_respond _ ((walkFits_of_ne (by simp)).1 hw)
  · exact controlLegal_respond _ ((walkFits_of_ne (by simp)).1 hw)
  · exact phaseRead_controlLegal _ _ hs (walkFits_enumerate.1 hw).2
  · exact hs

/-- An answer frame leaves the control point where it is. -/
theorem frameStep_controlLegal {P : Params} {s : State} (hs : controlLegal P s) : controlLegal P (frameStep P s) := by
  rcases frameStep_cases P s with ⟨-, e⟩ | ⟨t, sd, hd, ⟨-, e⟩ | ⟨st, -, -, e⟩⟩
  · rw [e]; exact controlLegal_raiseFault _ hs
  all_goals rw [e, decodeWords_changes hd]; exact hs

theorem engineStep_controlLegal {P : Params} {s t : State} (hs : controlLegal P s) (h : engineStep P s = some t) :
    controlLegal P t := by
  rcases engineStep_cases h with ⟨op, c, r, ho, -, rfl⟩ | ⟨op, ho, rfl⟩ | ⟨op, ho, rfl⟩ | ⟨op, ho, rfl⟩ |
    ⟨op, ho, -, rfl⟩ | ⟨op, ho, -, rfl⟩
  · exact waitDone_controlLegal r ho hs
  · exact phaseStep_controlLegal ho hs
  · exact writeReturns_controlLegal ho hs
  · obtain ⟨hw, rfl, -⟩ := (controlLegal_running ho).1 hs
    exact controlLegal_toPhase nofun (walkFits_enumerate.1 hw).2
  · exact readReturns_controlLegal ho hs
  · exact frameStep_controlLegal hs

/-- The other agents start a wait, end it by a timeout, or leave the control point where it is (R142, R144, R146). -/
theorem agentMove_controlLegal {P : Params} {m : Move} {s t : State} (hs : controlLegal P s)
    (h : agentMove P m s = some t) : controlLegal P t := by
  rcases agentMove_cases h with ⟨r, -, -, rfl⟩ | ⟨a, op, c, n, -, ho, rfl⟩ | ⟨tr, ws, -, -, rfl⟩ |
    ⟨op, c, -, ho, -, rfl⟩
  · exact hs
  · cases a with
    | accepted => exact (controlLegal_waiting rfl).2 ((controlLegal_running ho).1 hs)
    | busy => exact controlLegal_raiseFault _ hs
  · rw [completion_eq]
    cases tr.kind <;> exact hs
  · obtain ⟨hw, hc⟩ := (controlLegal_waiting ho).1 hs
    cases c
    · rw [waitTimedOut_tx]; exact controlLegal_of_running rfl hw hc
    · rw [waitTimedOut_rx]; exact controlLegal_of_running rfl hw hc

/-- Settles O57: whoever moves, the control point stays legal. -/
theorem controlStaysLegal : Obligations.ControlStaysLegal := by
  intro s s' hc hw h
  exact step_preserves (controlLegal Config.params) (moves := fun _ _ hs => hs) (reset := fun _ _ => ⟨rfl, rfl⟩)
    (request := fun _ _ _ hs _ ho _ hr => runRequest_controlLegal ho hs hr)
    (engine := fun _ _ hs _ he => engineStep_controlLegal hs he)
    (agent := fun _ _ _ hs _ ha => agentMove_controlLegal hs ha) ⟨hc, hw⟩ h

end Sys2Proof.Proofs

namespace Sys2Proof.Proofs

open Machine

/-! ## Quiet control points -/

/-- No transfer is about to start and no read is under way, so neither the staged words nor the read-engine registers are
live. -/
def quiet (s : State) : Prop :=
  beforeStart s = false ∧ readLive s = false

theorem quiet_ready {s : State} (h : s.opState = .ready) : quiet s := by
  simp [quiet, beforeStart, readLive, h]

theorem quiet_entry {s : State} {op : Instr} (h : s.opState = .running op .entry) : quiet s := by
  simp [quiet, beforeStart, readLive, h]

theorem quiet_phase {s : State} {op : Instr} (h : s.opState = .running op .phase) : quiet s := by
  simp [quiet, beforeStart, readLive, h]

theorem quiet_written {s : State} {op : Instr} (h : s.opState = .running op .written) : quiet s := by
  simp [quiet, beforeStart, readLive, h]

theorem quiet_settle {s : State} {op : Instr} (h : s.opState = .running op .settle) : quiet s := by
  simp [quiet, beforeStart, readLive, h]

theorem quiet_waiting_tx {s : State} {op : Instr} (h : s.opState = .waiting op .tx) : quiet s := by
  simp [quiet, beforeStart, readLive, h]

theorem quiet_respond (r : Response) (s : State) : quiet (respond r s) := quiet_ready rfl

theorem quiet_toPhase (op : Instr) (ph : Phase) (s : State) : quiet (toPhase op ph s) := quiet_phase rfl

/-- At a quiet point no transfer is staged. -/
theorem not_start_of_quiet {s : State} (h : quiet s) (op : Instr) (c : Channel) (n : Nat) :
    s.opState ≠ .running op (.start c n) := by
  intro ho; have := h.1; simp [beforeStart, ho] at this

/-- The return of a write that the operation makes ends at a quiet point (R143, R205). -/
theorem quiet_writeReturns (P : Params) {op : Instr} {s : State} (ho : s.opState = .running op .written) :
    quiet (writeReturns P op s) := by
  rcases writeReturns_cases P op s with ⟨-, e⟩ | ⟨-, e⟩ | ⟨-, e⟩ <;> rw [e]
  · exact quiet_respond ..
  · rcases phaseWritten_cases P .enumerate s with ⟨-, e⟩ | ⟨-, e⟩ | ⟨-, e⟩ | ⟨-, e⟩ <;> rw [e]
    · exact quiet_settle rfl
    · exact quiet_toPhase ..
    · exact quiet_toPhase ..
    · exact quiet_written ho
  · exact quiet_written ho

/-- A phase that reads goes on to a phase rule (R183, R184, R186, R187). -/
theorem quiet_phaseRead (P : Params) (op : Instr) (acc : List Word) (st : Status) {s : State}
    (h : phaseTransfers s.phase .rx = true) : quiet (phaseRead P op acc st s) := by
  rcases phaseRead_cases P op acc st s with
    ⟨-, -, e⟩ | ⟨-, -, e⟩ | ⟨-, -, e⟩ | ⟨-, e⟩ | ⟨-, -, e⟩ | ⟨-, -, e⟩ | ⟨hno, -⟩
  case inr.inr.inr.inr.inr.inr => rw [h] at hno; cases hno
  all_goals rw [e]; exact quiet_toPhase ..

/-- The return of a read that the operation makes ends at a quiet point (R163, R171, R205). -/
theorem quiet_readReturns (P : Params) {op : Instr} {s : State} (h : channelFits op .rx s.phase = true) :
    quiet (readReturns P op s) := by
  rcases readReturns_cases P op s with ⟨-, e⟩ | ⟨-, e⟩ | ⟨rfl, e⟩ | ⟨hno, -⟩
  · rw [e]; exact quiet_respond ..
  · rw [e]; exact quiet_respond ..
  · rw [e]; exact quiet_phaseRead _ _ _ _ ((channelFits_enumerate ..).symm.trans h)
  · rw [transfersWith_of_channelFits h] at hno; cases hno

/-! ## Table entries after a write -/

theorem mem_tableWrite {α : Type} [DecidableEq α] {dflt v : α} {k : Nat} {t : Table α} {e : Nat × α}
    (h : e ∈ tableWrite dflt k v t) : e = (k, v) ∨ e ∈ t := by
  unfold tableWrite at h
  split at h
  · exact .inr (List.mem_of_mem_filter h)
  · exact ((mem_tableInsert ..).1 h).imp_right List.mem_of_mem_filter

/-- The indexes a list is written to are those from `k` on, one for each value. -/
theorem mem_tableWriteList {α : Type} [DecidableEq α] {dflt : α} {vs : List α} {e : Nat × α} :
    ∀ {k : Nat} {t : Table α}, e ∈ tableWriteList dflt k vs t → e ∈ t ∨ e.1 < k + vs.length := by
  induction vs with
  | nil => intro k t h; exact .inl h
  | cons v vs ih =>
    intro k t h
    rw [List.length_cons]
    rcases ih h with h | h
    · rcases mem_tableWrite h with rfl | h
      · exact .inr (by simp)
      · exact .inl h
    · exact .inr (by omega)

/-! ## The buffers -/

/-- A transfer whose receive words fit the buffer, none for a write (R27, R143, R161). -/
def transferFits (P : Params) (t : Transfer) : Prop :=
  t.nRx ≤ rxBufWords P ∧ (t.kind = .rx ∨ t.nRx = 0)

/-- The capacity of the receive buffer, part by part (R25, R27). -/
structure BuffersFit (P : Params) (s : State) : Prop where
  stored : ∀ e ∈ s.rxBuf, e.1 < rxBufWords P
  inFlight : ∀ t ∈ s.inflight, transferFits P t
  staged : ∀ op c n, s.opState = .running op (.start c n) → transferFits P ⟨c, n⟩
  noteTx : s.noteTx = none ∨ s.noteTx = some 0
  noteRx : ∀ r, s.noteRx = some r → r ≤ rxBufWords P

theorem buffersWf_iff {P : Params} {s : State} : buffersWf P s = true ↔ BuffersFit P s := by
  simp only [buffersWf, Bool.and_eq_true]
  constructor
  · rintro ⟨⟨⟨⟨h1, h2⟩, h3⟩, h4⟩, h5⟩
    refine ⟨by simpa [keysBelow] using h1, by simpa [transferFits] using h2, fun op c n ho => ?_, by simpa using h4,
      fun r hr => ?_⟩
    · simpa [ho, transferFits] using h3
    · simpa [hr] using h5
  · rintro ⟨h1, h2, h3, h4, h5⟩
    refine ⟨⟨⟨⟨by simpa [keysBelow] using h1, by simpa [transferFits] using h2⟩, ?_⟩, by simpa using h4⟩, ?_⟩
    · split
      · next op c n ho => simpa [transferFits] using h3 op c n ho
      · rfl
    · split
      · next r hr => simpa using h5 r hr
      · rfl

/-- A write stages no receive words (R143). -/
theorem transferFits_write (P : Params) : transferFits P ⟨.tx, 0⟩ := ⟨Nat.zero_le _, .inr rfl⟩

/-- A read inside its caps stages at most the buffer's capacity (R27, R77, R161). -/
theorem transferFits_read {P : Params} {n ipf : Nat} (h : readCheck P n ipf = none) :
    transferFits P ⟨.rx, rxLength n ipf⟩ := by
  obtain ⟨-, hipf, -, hfc⟩ := readCheck_none.1 h
  refine ⟨?_, .inl rfl⟩
  show 4 + frameCount n ipf * (3 + ipf) ≤ 4 + P.maxFrames * 7
  have := Nat.mul_le_mul hfc (show 3 + ipf ≤ 7 by omega)
  omega

/-- Going on to a quiet point with the buffers untouched. -/
theorem BuffersFit.to_quiet {P : Params} {s t : State} (h : BuffersFit P s) (hq : quiet t)
    (hkeep : t.rxBuf = s.rxBuf ∧ t.inflight = s.inflight ∧ t.noteTx = s.noteTx ∧ t.noteRx = s.noteRx) :
    BuffersFit P t := by
  obtain ⟨erx, einf, etx, ern⟩ := hkeep
  exact ⟨erx ▸ h.stored, einf ▸ h.inFlight, fun op c n ho => absurd ho (not_start_of_quiet hq op c n),
    etx ▸ h.noteTx, ern ▸ h.noteRx⟩

theorem gateClaim_buffersFit {P : Params} {s : State} (op : Instr) {c : Channel} {n : Nat} (m : List Word)
    (hn : transferFits P ⟨c, n⟩) (hs : BuffersFit P s) : BuffersFit P (gateClaim op c n m s) := by
  rcases gateClaim_cases op c n m s with ⟨-, e⟩ | ⟨-, e⟩ <;> rw [e]
  · exact { hs with staged := by rintro op' c' n' ⟨⟩; exact hn }
  · exact { hs with }

theorem writeBegin_buffersFit {P : Params} {s : State} (op : Instr) (ra : Addr) (reg value : Word)
    (hs : BuffersFit P s) : BuffersFit P (writeBegin P op ra reg value s) := by
  rw [writeBegin_eq]; exact gateClaim_buffersFit op _ (transferFits_write P) hs

theorem readBegin_buffersFit {P : Params} {s : State} (op : Instr) (ra : Addr) (n ipf : Nat) (reg : Word)
    (hs : BuffersFit P s) : BuffersFit P (readBegin P op ra n ipf reg s) := by
  rw [readBegin_eq]
  split
  · exact { hs with }
  · next hc => exact gateClaim_buffersFit op _ (transferFits_read hc) { hs with }

theorem exec_buffersFit {i : Instr} {s t : State} (hs : BuffersFit Config.params s)
    (h : exec i s = .next t) : BuffersFit Config.params t := by
  have haccept : BuffersFit Config.params (accept i s) := hs.to_quiet (quiet_entry rfl) ⟨rfl, rfl, rfl, rfl⟩
  rcases exec_cases h with ⟨f, rfl, -⟩ | ⟨r, s1, rfl, -⟩ | ⟨ra, reg, value, -, rfl⟩ | ⟨ra, n, ipf, reg, -, rfl⟩ |
    ⟨-, rfl⟩
  · exact { hs with }
  · refine hs.to_quiet (quiet_respond r s1) ?_
    rw [exec_changes h]; exact ⟨rfl, rfl, rfl, rfl⟩
  · exact writeBegin_buffersFit _ _ _ _ haccept
  · exact readBegin_buffersFit _ _ _ _ _ haccept
  · exact hs.to_quiet (quiet_toPhase ..) ⟨rfl, rfl, rfl, rfl⟩

theorem runRequest_buffersFit {r : Request} {s t : State} (hs : BuffersFit Config.params s)
    (h : runRequest r s = .next t) : BuffersFit Config.params t := by
  have htake : BuffersFit Config.params (takeRequest r s) := { hs with }
  rcases runRequest_cases r s with ⟨i, -, e⟩ | ⟨err, -, e⟩ <;> rw [e] at h
  · exact exec_buffersFit htake h
  · cases h; exact { hs with }

theorem phaseStep_buffersFit {P : Params} {s : State} (op : Instr) (hs : BuffersFit P s) :
    BuffersFit P (phaseStep P op s) := by
  cases hph : s.phase <;> rw [phaseStep_eq P op hph]
  case idle => exact hs
  case sleep => exact writeBegin_buffersFit _ _ _ _ hs
  case assign => exact writeBegin_buffersFit _ _ _ _ hs
  case config => exact writeBegin_buffersFit _ _ _ _ hs
  case probe1 => exact readBegin_buffersFit _ _ _ _ _ hs
  case probe2 => exact readBegin_buffersFit _ _ _ _ _ hs
  case verify => exact readBegin_buffersFit _ _ _ _ _ hs
  case uid => exact readBegin_buffersFit _ _ _ _ _ hs
  case wake => exact hs.to_quiet (quiet_toPhase ..) ⟨rfl, rfl, rfl, rfl⟩
  case done => exact hs.to_quiet (quiet_respond ..) ⟨rfl, rfl, rfl, rfl⟩

/-- The return of a write touches no buffer (R143, R205). -/
theorem writeReturns_buffers (P : Params) (op : Instr) (s : State) :
    let t := writeReturns P op s
    t.rxBuf = s.rxBuf ∧ t.inflight = s.inflight ∧ t.noteTx = s.noteTx ∧ t.noteRx = s.noteRx := by
  rcases writeReturns_cases P op s with ⟨-, e⟩ | ⟨-, e⟩ | ⟨-, e⟩ <;> rw [e]
  · exact ⟨rfl, rfl, rfl, rfl⟩
  · rcases phaseWritten_cases P .enumerate s with ⟨-, e⟩ | ⟨-, e⟩ | ⟨-, e⟩ | ⟨-, e⟩ <;> rw [e] <;>
      exact ⟨rfl, rfl, rfl, rfl⟩
  · exact ⟨rfl, rfl, rfl, rfl⟩

/-- The return of a read touches no buffer (R163, R171, R205). -/
theorem readReturns_buffers (P : Params) (op : Instr) (s : State) :
    let t := readReturns P op s
    t.rxBuf = s.rxBuf ∧ t.inflight = s.inflight ∧ t.noteTx = s.noteTx ∧ t.noteRx = s.noteRx := by
  rcases readReturns_cases P op s with ⟨-, e⟩ | ⟨-, e⟩ | ⟨-, e⟩ | ⟨-, e⟩ <;> rw [e]
  · exact ⟨rfl, rfl, rfl, rfl⟩
  · exact ⟨rfl, rfl, rfl, rfl⟩
  · rw [phaseRead_changes]; exact ⟨rfl, rfl, rfl, rfl⟩
  · exact ⟨rfl, rfl, rfl, rfl⟩

theorem engineStep_buffersFit {P : Params} {s t : State} (hc : controlLegal P s) (hs : BuffersFit P s)
    (h : engineStep P s = some t) : BuffersFit P t := by
  rcases engineStep_cases h with ⟨op, c, r, -, -, rfl⟩ | ⟨op, -, rfl⟩ | ⟨op, ho, rfl⟩ | ⟨op, -, rfl⟩ |
    ⟨op, ho, -, rfl⟩ | ⟨op, -, -, rfl⟩
  · cases c
    · rw [waitDone_tx]; exact { hs with staged := nofun, noteTx := .inl rfl }
    · rw [waitDone_rx]; exact { hs with staged := nofun, noteRx := nofun }
  · exact phaseStep_buffersFit op hs
  · exact hs.to_quiet (quiet_writeReturns P ho) (writeReturns_buffers P op s)
  · exact hs.to_quiet (quiet_toPhase ..) ⟨rfl, rfl, rfl, rfl⟩
  · exact hs.to_quiet (quiet_readReturns P ((controlLegal_running ho).1 hc).2) (readReturns_buffers P op s)
  · rw [frameStep_changes]; exact { hs with }

/-- What the guard of a completion says (R146). -/
theorem completionEnabled_iff {t : Transfer} {words : List Word} {s : State} :
    completionEnabled t words s = true ↔
      t ∈ s.inflight ∧ words.length ≤ t.nRx ∧ (t.kind = .rx ∨ words = []) := by
  simp [completionEnabled, and_assoc]

/-- A completion stores and notifies no more words than were staged for it (R146). -/
theorem completion_buffersFit {P : Params} {tr : Transfer} {words : List Word} {s : State}
    (he : completionEnabled tr words s = true) (hs : BuffersFit P s) : BuffersFit P (completion tr words s) := by
  obtain ⟨hmem, hlen, -⟩ := completionEnabled_iff.1 he
  have hcap : words.length ≤ rxBufWords P := Nat.le_trans hlen (hs.inFlight tr hmem).1
  have herase : ∀ t ∈ s.inflight.erase tr, transferFits P t := fun t ht => hs.inFlight t (List.mem_of_mem_erase ht)
  rw [completion_eq]
  cases tr.kind with
  | tx => exact { hs with inFlight := herase, noteTx := .inr rfl }
  | rx =>
    refine { hs with inFlight := herase, stored := fun e hmem => ?_, noteRx := ?_ }
    · rcases mem_tableWriteList hmem with h | h
      · exact hs.stored e h
      · omega
    · rintro r ⟨⟩; exact hcap

theorem agentMove_buffersFit {P : Params} {m : Move} {s t : State} (hs : BuffersFit P s)
    (h : agentMove P m s = some t) : BuffersFit P t := by
  rcases agentMove_cases h with ⟨r, -, -, rfl⟩ | ⟨a, op, c, n, -, ho, rfl⟩ | ⟨tr, ws, -, he, rfl⟩ |
    ⟨op, c, -, -, -, rfl⟩
  · exact { hs with }
  · cases a with
    | accepted =>
      exact { hs with inFlight := List.forall_mem_cons.2 ⟨hs.staged op c n ho, hs.inFlight⟩, staged := nofun }
    | busy => exact { hs with }
  · exact completion_buffersFit he hs
  · cases c
    · rw [waitTimedOut_tx]; exact { hs with staged := nofun }
    · rw [waitTimedOut_rx]; exact { hs with staged := nofun }

/-! ## The read-engine registers -/

/-- Where no read is under way nothing is asked of the read-engine registers. -/
theorem readRegsWf_of_quiet {P : Params} {s : State} (h : quiet s) : readRegsWf P s = true := by
  have hlive := h.2
  unfold readRegsWf
  split <;> simp_all [readLive]

theorem readRegsWf_start {P : Params} {s : State} {op : Instr} {n : Nat} (h : s.opState = .running op (.start .rx n)) :
    readRegsWf P s = true ↔ latchWf P s.rd = true ∧ uidReadWf P op s = true := by
  simp [readRegsWf, h]

theorem readRegsWf_waiting {P : Params} {s : State} {op : Instr} (h : s.opState = .waiting op .rx) :
    readRegsWf P s = true ↔ latchWf P s.rd = true ∧ uidReadWf P op s = true := by
  simp [readRegsWf, h]

theorem readRegsWf_frames {P : Params} {s : State} {op : Instr} (h : s.opState = .running op .frames) :
    readRegsWf P s = true ↔ latchWf P s.rd = true ∧ uidReadWf P op s = true ∧ countWf s.rd = true := by
  simp [readRegsWf, h, and_assoc]

theorem latchWf_iff {P : Params} {rd : ReadRegs} :
    latchWf P rd = true ↔ readCheck P rd.itemCount rd.ipf = none ∧ rd.fc = frameCount rd.itemCount rd.ipf := by
  simp [latchWf]

theorem countWf_iff {rd : ReadRegs} :
    countWf rd = true ↔
      rd.acc.length ≤ rd.itemCount ∧ (rd.st = .ok → rd.acc.length + rd.remaining = rd.itemCount) := by
  simp [countWf, imp_iff_not_or]

theorem uidReadWf_iff {P : Params} {op : Instr} {s : State} :
    uidReadWf P op s = true ↔ (op = .enumerate → s.phase = .uid → s.rd.itemCount = P.uidWords) := by
  simp [uidReadWf, imp_iff_not_or, or_assoc]

/-- The walk over the frames goes on while no error was met and a frame is left (R160, R169). -/
theorem walkOver_eq_false {rd : ReadRegs} : walkOver rd = false ↔ rd.st = .ok ∧ rd.k < rd.fc := by
  simp [walkOver]

/-- A claim for a write leaves no read under way; a refused one changes nothing. -/
theorem writeBegin_readRegsWf {P : Params} {s : State} (op : Instr) (ra : Addr) (reg value : Word)
    (hs : readRegsWf P s = true) : readRegsWf P (writeBegin P op ra reg value s) = true := by
  rw [writeBegin_eq]
  rcases gateClaim_cases op .tx 0 [pack .write 0 ra 0 0, reg, value, P.crc [pack .write 0 ra 0 0, reg, value]] s with
    ⟨-, e⟩ | ⟨-, e⟩ <;> rw [e]
  · rfl
  · exact hs

/-- A read that begins latches operands inside the caps (R160, R161). -/
theorem readBegin_readRegsWf {P : Params} {s : State} {op : Instr} (ra : Addr) {n : Nat} (ipf : Nat) (reg : Word)
    (hq : quiet s) (huid : op = .enumerate → s.phase = .uid → n = P.uidWords) :
    readRegsWf P (readBegin P op ra n ipf reg s) = true := by
  rw [readBegin_eq]
  split
  · exact readRegsWf_of_quiet hq
  · next hc =>
    rcases gateClaim_cases op .rx (rxLength n ipf) [pack .read 0 ra 0 0, reg, paramWord ipf n,
      P.crc [pack .read 0 ra 0 0, reg, paramWord ipf n]] { s with rd := readLatch ra n ipf reg s.rd } with
      ⟨-, e⟩ | ⟨-, e⟩ <;> rw [e]
    · exact (readRegsWf_start rfl).2 ⟨latchWf_iff.2 ⟨hc, rfl⟩, uidReadWf_iff.2 huid⟩
    · exact readRegsWf_of_quiet hq

theorem exec_readRegsWf {i : Instr} {s t : State} (ho : s.opState = .ready) (h : exec i s = .next t) :
    readRegsWf Config.params t = true := by
  rcases exec_cases h with ⟨f, rfl, -⟩ | ⟨r, s1, rfl, -⟩ | ⟨ra, reg, value, -, rfl⟩ | ⟨ra, n, ipf, reg, hi, rfl⟩ |
    ⟨-, rfl⟩
  · exact readRegsWf_of_quiet (quiet_ready ho)
  · exact readRegsWf_of_quiet (quiet_respond r s1)
  · exact writeBegin_readRegsWf _ _ _ _ (readRegsWf_of_quiet (quiet_entry rfl))
  · have hne : i ≠ .enumerate := by rcases hi with ⟨rfl, -⟩ | ⟨nw, ipfw, rfl, -⟩ <;> nofun
    exact readBegin_readRegsWf _ _ _ (quiet_entry rfl) fun he => absurd he hne
  · exact readRegsWf_of_quiet (quiet_toPhase ..)

theorem runRequest_readRegsWf {r : Request} {s t : State} (ho : s.opState = .ready)
    (h : runRequest r s = .next t) : readRegsWf Config.params t = true := by
  rcases runRequest_cases r s with ⟨i, -, e⟩ | ⟨err, -, e⟩ <;> rw [e] at h
  · exact exec_readRegsWf (s := takeRequest r s) ho h
  · cases h; exact readRegsWf_of_quiet (quiet_ready ho)

theorem phaseStep_readRegsWf {P : Params} {s : State} {op : Instr} (ho : s.opState = .running op .phase) :
    readRegsWf P (phaseStep P op s) = true := by
  have hq : quiet s := quiet_phase ho
  have hwf : readRegsWf P s = true := readRegsWf_of_quiet hq
  cases hph : s.phase <;> rw [phaseStep_eq P op hph]
  case idle => exact hwf
  case sleep => exact writeBegin_readRegsWf _ _ _ _ hwf
  case assign => exact writeBegin_readRegsWf _ _ _ _ hwf
  case config => exact writeBegin_readRegsWf _ _ _ _ hwf
  case probe1 => exact readBegin_readRegsWf _ _ _ hq fun _ h => absurd (hph.symm.trans h) nofun
  case probe2 => exact readBegin_readRegsWf _ _ _ hq fun _ h => absurd (hph.symm.trans h) nofun
  case verify => exact readBegin_readRegsWf _ _ _ hq fun _ h => absurd (hph.symm.trans h) nofun
  case uid => exact readBegin_readRegsWf _ _ _ hq fun _ _ => rfl
  case wake => exact readRegsWf_of_quiet (quiet_toPhase ..)
  case done => exact readRegsWf_of_quiet (quiet_respond ..)

/-- A frame that passes moves items from the outstanding ones to the copied ones (R168). -/
theorem countWf_copyItems {rd : ReadRegs} (payload : Quad) (hipf : rd.ipf ≤ 4) (hok : rd.st = .ok)
    (h : countWf rd = true) : countWf (copyItems payload rd) = true := by
  obtain ⟨-, hsum⟩ := countWf_iff.1 h
  have hlen : ((quadWords payload).take (min rd.ipf rd.remaining)).length = min rd.ipf rd.remaining := by
    simp [quadWords]; omega
  have := hsum hok
  rw [countWf_iff]
  simp only [copyItems, List.length_append, hlen]
  omega

theorem frameStep_readRegsWf {P : Params} {s : State} {op : Instr} (ho : s.opState = .running op .frames)
    (hgo : walkOver s.rd = false) (hs : readRegsWf P s = true) : readRegsWf P (frameStep P s) = true := by
  obtain ⟨hl, hu, hc⟩ := (readRegsWf_frames ho).1 hs
  obtain ⟨hok, -⟩ := walkOver_eq_false.1 hgo
  obtain ⟨-, hipf, -⟩ := readCheck_none.1 (latchWf_iff.1 hl).1
  rcases frameStep_cases P s with ⟨-, e⟩ | ⟨t, sd, hd, ⟨-, e⟩ | ⟨st, -, hne, e⟩⟩
  · rw [e]; exact hs
  · rw [e, decodeWords_changes hd]
    exact (readRegsWf_frames (by exact ho)).2 ⟨hl, hu, countWf_copyItems _ hipf hok hc⟩
  · rw [e, decodeWords_changes hd]
    exact (readRegsWf_frames (by exact ho)).2 ⟨hl, hu, countWf_iff.2 ⟨(countWf_iff.1 hc).1, fun h => absurd h hne⟩⟩

theorem engineStep_readRegsWf {P : Params} {s t : State} (hc : controlLegal P s) (hs : readRegsWf P s = true)
    (h : engineStep P s = some t) : readRegsWf P t = true := by
  rcases engineStep_cases h with ⟨op, c, r, ho, -, rfl⟩ | ⟨op, ho, rfl⟩ | ⟨op, ho, rfl⟩ | ⟨op, -, rfl⟩ |
    ⟨op, ho, -, rfl⟩ | ⟨op, ho, hgo, rfl⟩
  · cases c
    · rw [waitDone_tx]; exact readRegsWf_of_quiet (quiet_written rfl)
    · obtain ⟨hl, hu⟩ := (readRegsWf_waiting ho).1 hs
      rw [waitDone_rx]
      exact (readRegsWf_frames rfl).2 ⟨hl, hu, countWf_iff.2 ⟨Nat.zero_le _, fun _ => Nat.zero_add _⟩⟩
  · exact phaseStep_readRegsWf ho
  · exact readRegsWf_of_quiet (quiet_writeReturns P ho)
  · exact readRegsWf_of_quiet (quiet_toPhase ..)
  · exact readRegsWf_of_quiet (quiet_readReturns P ((controlLegal_running ho).1 hc).2)
  · exact frameStep_readRegsWf ho hgo hs

theorem agentMove_readRegsWf {P : Params} {m : Move} {s t : State} (hs : readRegsWf P s = true)
    (h : agentMove P m s = some t) : readRegsWf P t = true := by
  rcases agentMove_cases h with ⟨r, -, -, rfl⟩ | ⟨a, op, c, n, -, ho, rfl⟩ | ⟨tr, ws, -, -, rfl⟩ |
    ⟨op, c, -, ho, -, rfl⟩
  · exact hs
  · cases a with
    | accepted =>
      cases c with
      | tx => exact readRegsWf_of_quiet (quiet_waiting_tx rfl)
      | rx => exact (readRegsWf_waiting rfl).2 ((readRegsWf_start ho).1 hs)
    | busy => exact hs
  · rw [completion_eq]
    cases tr.kind <;> exact hs
  · cases c
    · rw [waitTimedOut_tx]; exact readRegsWf_of_quiet (quiet_written rfl)
    · obtain ⟨hl, hu⟩ := (readRegsWf_waiting ho).1 hs
      rw [waitTimedOut_rx]
      exact (readRegsWf_frames rfl).2 ⟨hl, hu, countWf_iff.2 ⟨Nat.zero_le _, nofun⟩⟩

/-! ## The identifier counts -/

theorem uidCountsWf_iff {P : Params} {s : State} : uidCountsWf P s = true ↔ ∀ e ∈ s.uidCount, e.2 ≤ P.uidWords := by
  simp [uidCountsWf]

/-- The identifier read stores no more words than it asked for (R187). -/
theorem engineStep_uidCountsWf {P : Params} {s t : State} (hr : readRegsWf P s = true) (hs : uidCountsWf P s = true)
    (h : engineStep P s = some t) : uidCountsWf P t = true := by
  rw [uidCountsWf_iff] at hs ⊢
  obtain ⟨-, -, ⟨-, ec⟩ | ⟨ho, hph, -, ec⟩⟩ := engineStep_tables h <;> rw [ec]
  · exact hs
  · obtain ⟨-, hu, hc⟩ := (readRegsWf_frames ho).1 hr
    have hasked : s.rd.itemCount = P.uidWords := uidReadWf_iff.1 hu rfl hph
    intro e he
    rcases mem_tableWrite he with rfl | he
    · exact hasked ▸ (countWf_iff.1 hc).1
    · exact hs e he

/-! ## The capacities together -/

/-- The capacities at a legal control point (R27, R29, R30). -/
structure Capacities (P : Params) (s : State) : Prop where
  control : controlLegal P s
  buffers : BuffersFit P s
  readRegs : readRegsWf P s = true
  uidCounts : uidCountsWf P s = true

theorem capacities_restart (P : Params) (ms : List Move) (s : State) : Capacities P (restart ms s) where
  control := ⟨rfl, rfl⟩
  buffers := buffersWf_iff.1 rfl
  readRegs := rfl
  uidCounts := rfl

theorem runRequest_capacities {r : Request} {s t : State} (hs : Capacities Config.params s) (ho : s.opState = .ready)
    (h : runRequest r s = .next t) : Capacities Config.params t where
  control := runRequest_controlLegal ho hs.control h
  buffers := runRequest_buffersFit hs.buffers h
  readRegs := runRequest_readRegsWf ho h
  uidCounts := by
    obtain ⟨-, -, -, ec, -⟩ := runRequest_tables h
    rw [uidCountsWf_iff, ec]; exact uidCountsWf_iff.1 hs.uidCounts

theorem engineStep_capacities {P : Params} {s t : State} (hs : Capacities P s) (h : engineStep P s = some t) :
    Capacities P t where
  control := engineStep_controlLegal hs.control h
  buffers := engineStep_buffersFit hs.control hs.buffers h
  readRegs := engineStep_readRegsWf hs.control hs.readRegs h
  uidCounts := engineStep_uidCountsWf hs.readRegs hs.uidCounts h

theorem agentMove_capacities {P : Params} {m : Move} {s t : State} (hs : Capacities P s)
    (h : agentMove P m s = some t) : Capacities P t where
  control := agentMove_controlLegal hs.control h
  buffers := agentMove_buffersFit hs.buffers h
  readRegs := agentMove_readRegsWf hs.readRegs h
  uidCounts := by
    obtain ⟨-, -, -, ec, -⟩ := agentMove_tables h
    rw [uidCountsWf_iff, ec]; exact uidCountsWf_iff.1 hs.uidCounts

/-- Settles O58: the capacities and the legal control point are kept together. -/
theorem capacitiesStayRespected : Obligations.CapacitiesStayRespected := by
  intro s s' hc hw hb hr hu h
  have hs : Capacities Config.params s := ⟨⟨hc, hw⟩, buffersWf_iff.1 hb, hr, hu⟩
  obtain ⟨-, hb', hr', hu'⟩ := step_preserves (Capacities Config.params)
    (moves := fun _ _ hs => { hs with buffers := { hs.buffers with } })
    (reset := fun s ms => capacities_restart Config.params ms s)
    (request := fun _ _ _ hs _ ho _ hr => runRequest_capacities hs ho hr)
    (engine := fun _ _ hs _ he => engineStep_capacities hs he)
    (agent := fun _ _ _ hs _ ha => agentMove_capacities hs ha) hs h
  exact ⟨buffersWf_iff.2 hb', hr', hu'⟩

end Sys2Proof.Proofs

namespace Sys2Proof.Proofs

open Machine

/-! ## The unspecified values beside a state -/

/-- Other contents for the elements that R40 leaves unspecified after reset (R27, R29 to R31). -/
structure Unspecified where
  txBuf : Quad
  rxBuf : Table Word
  uid : Table Word
  rd : ReadRegs
  d : Decoded

/-- The state with these contents in place of its own. -/
def overlay (v : Unspecified) (s : State) : State :=
  { s with txBuf := v.txBuf, rxBuf := v.rxBuf, uid := v.uid, rd := v.rd, d := v.d }

/-- The operands and the frame count that a read latches are the same (R160). -/
def sameLatch (rd rd' : ReadRegs) : Prop :=
  rd'.ra = rd.ra ∧ rd'.itemCount = rd.itemCount ∧ rd'.ipf = rd.ipf ∧ rd'.reg = rd.reg ∧ rd'.fc = rd.fc

/-- The first `n` received words are the same (R27). -/
def sameReceived (n : Nat) (rx rx' : Table Word) : Prop :=
  ∀ i < n, tableRead 0 i rx' = tableRead 0 i rx

/-- The contents agree with the state's own wherever the state's control point makes them live. -/
structure Fits (v : Unspecified) (s : State) : Prop where
  staged : beforeStart s = true → v.txBuf = s.txBuf
  latch : readLive s = true → sameLatch s.rd v.rd
  result : readEnded s = true → v.rd.acc = s.rd.acc ∧ v.rd.st = s.rd.st
  walk : walkLive s = true → v.rd = s.rd ∧ sameReceived s.rd.received s.rxBuf v.rxBuf
  note : ∀ r, s.noteRx = some r → sameReceived r s.rxBuf v.rxBuf

/-- Agreeing states are one state and other contents for what is not live in it. -/
theorem agree_iff {s s' : State} : agreeButUnspecified s s' ↔ ∃ v, s' = overlay v s ∧ Fits v s := by
  constructor
  · rintro ⟨he, h1, h2, h3, h4, h5⟩
    exact ⟨⟨s'.txBuf, s'.rxBuf, s'.uid, s'.rd, s'.d⟩, he, h1, h2, h3, h4, h5⟩
  · rintro ⟨v, rfl, h1, h2, h3, h4, h5⟩
    exact ⟨rfl, h1, h2, h3, h4, h5⟩

theorem Fits.agree {v : Unspecified} {s : State} (h : Fits v s) : agreeButUnspecified s (overlay v s) :=
  agree_iff.2 ⟨v, rfl, h⟩

/-- At a quiet point only the notified words are live. -/
theorem fits_of_quiet {v : Unspecified} {s : State} (hq : quiet s)
    (hn : ∀ r, s.noteRx = some r → sameReceived r s.rxBuf v.rxBuf) : Fits v s := by
  obtain ⟨hb, hl⟩ := hq
  have he : readEnded s = false := by
    cases ho : s.opState with
    | running op pt => cases pt <;> simp_all [readEnded, readLive]
    | _ => simp [readEnded, ho]
  exact ⟨by simp [hb], by simp [hl], by simp [he], by simp [walkLive, he], hn⟩

/-- While a read is staged or waited for, its latched operands are live (R160). -/
theorem fits_of_latch {v : Unspecified} {s : State} (hb : beforeStart s = true → v.txBuf = s.txBuf)
    (hl : sameLatch s.rd v.rd) (he : readEnded s = false)
    (hn : ∀ r, s.noteRx = some r → sameReceived r s.rxBuf v.rxBuf) : Fits v s :=
  ⟨hb, fun _ => hl, by simp [he], by simp [walkLive, he], hn⟩

/-- When the wait of a read is over, equal registers and received words leave nothing live that differs. -/
theorem fits_of_frames {v : Unspecified} {s : State} {op : Instr} (ho : s.opState = .running op .frames)
    (hrd : v.rd = s.rd) (hrx : sameReceived s.rd.received s.rxBuf v.rxBuf)
    (hn : ∀ r, s.noteRx = some r → sameReceived r s.rxBuf v.rxBuf) : Fits v s :=
  ⟨by simp [beforeStart, ho], fun _ => by rw [hrd]; exact ⟨rfl, rfl, rfl, rfl, rfl⟩, fun _ => by simp [hrd],
    fun _ => ⟨hrd, hrx⟩, hn⟩

/-! ## What agreeing states share -/

theorem agree_refl (s : State) : agreeButUnspecified s s :=
  ⟨rfl, fun _ => rfl, fun _ => ⟨rfl, rfl, rfl, rfl, rfl⟩, fun _ => ⟨rfl, rfl⟩, fun _ => ⟨rfl, fun _ _ => rfl⟩,
    fun _ _ _ _ => rfl⟩

/-- What reads none of the unspecified elements is the same in agreeing states. -/
theorem agree_reads {α : Type} (f : State → α) (hf : ∀ v s, f (overlay v s) = f s) {s s' : State}
    (h : agreeButUnspecified s s') : f s' = f s := by
  obtain ⟨v, rfl, -⟩ := agree_iff.1 h
  exact hf v s

theorem agree_opState {s s' : State} (h : agreeButUnspecified s s') : s'.opState = s.opState :=
  agree_reads State.opState (fun _ _ => rfl) h

theorem agree_port {s s' : State} (h : agreeButUnspecified s s') : s'.port = s.port :=
  agree_reads State.port (fun _ _ => rfl) h

theorem agree_phase {s s' : State} (h : agreeButUnspecified s s') : s'.phase = s.phase :=
  agree_reads State.phase (fun _ _ => rfl) h

theorem agree_pos {s s' : State} (h : agreeButUnspecified s s') : s'.pos = s.pos :=
  agree_reads State.pos (fun _ _ => rfl) h

theorem agree_moves {s s' : State} (h : agreeButUnspecified s s') : s'.moves = s.moves :=
  agree_reads State.moves (fun _ _ => rfl) h

theorem agree_fault {s s' : State} (h : agreeButUnspecified s s') : s'.fault = s.fault :=
  agree_reads State.fault (fun _ _ => rfl) h

theorem agree_origin {s s' : State} (h : agreeButUnspecified s s') : s'.origin = s.origin :=
  agree_reads State.origin (fun _ _ => rfl) h

theorem agree_draws {s s' : State} (h : agreeButUnspecified s s') : s'.draws = s.draws :=
  agree_reads State.draws (fun _ _ => rfl) h

theorem agree_noteRead {s s' : State} (h : agreeButUnspecified s s') (c : Channel) : noteRead c s' = noteRead c s :=
  agree_reads (noteRead c) (fun _ _ => by cases c <;> rfl) h

theorem agree_ctRead {s s' : State} (h : agreeButUnspecified s s') (ra : Addr) : ctRead ra s' = ctRead ra s :=
  agree_reads (ctRead ra) (fun _ _ => rfl) h

/-- The result of a read that is over is shared (R160). -/
theorem agree_result {s s' : State} (h : agreeButUnspecified s s') (he : readEnded s = true) :
    s'.rd.acc = s.rd.acc ∧ s'.rd.st = s.rd.st := by
  obtain ⟨v, rfl, hv⟩ := agree_iff.1 h
  exact hv.result he

/-- During the walk over the frames the read-engine registers and the received words are shared (R160). -/
theorem agree_walk {s s' : State} (h : agreeButUnspecified s s') (hw : walkLive s = true) :
    s'.rd = s.rd ∧ sameReceived s.rd.received s.rxBuf s'.rxBuf := by
  obtain ⟨v, rfl, hv⟩ := agree_iff.1 h
  exact hv.walk hw

/-! ## Operations that read nothing unspecified -/

/-- An operation that acts beside the unspecified elements, and makes no more of them live, keeps the agreement. -/
theorem agree_map {s s' : State} (F : State → State) (hF : ∀ v s, F (overlay v s) = overlay v (F s))
    (hfits : ∀ v, Fits v s → Fits v (F s)) (h : agreeButUnspecified s s') : agreeButUnspecified (F s) (F s') := by
  obtain ⟨v, rfl, hv⟩ := agree_iff.1 h
  rw [hF]
  exact (hfits v hv).agree

theorem moves_agree {s s' : State} (ms : List Move) (h : agreeButUnspecified s s') :
    agreeButUnspecified { s with moves := ms } { s' with moves := ms } :=
  agree_map (fun s => { s with moves := ms }) (fun _ _ => rfl) (fun _ hv => { hv with }) h

theorem raiseFault_agree {s s' : State} (f : Fault) (h : agreeButUnspecified s s') :
    agreeButUnspecified (raiseFault f s) (raiseFault f s') :=
  agree_map (raiseFault f) (fun _ _ => rfl) (fun _ hv => { hv with }) h

theorem takeRequest_agree {s s' : State} (r : Request) (h : agreeButUnspecified s s') :
    agreeButUnspecified (takeRequest r s) (takeRequest r s') :=
  agree_map (takeRequest r) (fun _ _ => rfl) (fun _ hv => { hv with }) h

theorem emit_agree {s s' : State} (e : Event) (h : agreeButUnspecified s s') :
    agreeButUnspecified (emit e s) (emit e s') :=
  agree_map (emit e) (fun _ _ => rfl) (fun _ hv => { hv with }) h

theorem ctrAdvance_agree {s s' : State} (ra : Addr) (h : agreeButUnspecified s s') :
    agreeButUnspecified (ctrAdvance ra s) (ctrAdvance ra s') :=
  agree_map (ctrAdvance ra) (fun _ _ => rfl) (fun _ hv => { hv with }) h

theorem ctrReset_agree {s s' : State} (ra : Addr) (h : agreeButUnspecified s s') :
    agreeButUnspecified (ctrReset ra s) (ctrReset ra s') :=
  agree_map (ctrReset ra) (fun _ _ => rfl) (fun _ hv => { hv with }) h

theorem addressedWrite_agree {s s' : State} (p : Nat) (b : Bool) (h : agreeButUnspecified s s') :
    agreeButUnspecified (addressedWrite p b s) (addressedWrite p b s') :=
  agree_map (addressedWrite p b) (fun _ _ => rfl) (fun _ hv => { hv with }) h

theorem accept_agree {s s' : State} (op : Instr) (h : agreeButUnspecified s s') :
    agreeButUnspecified (accept op s) (accept op s') :=
  agree_map (accept op) (fun _ _ => rfl) (fun _ hv => fits_of_quiet (quiet_entry rfl) hv.note) h

theorem respond_agree {s s' : State} (r : Response) (h : agreeButUnspecified s s') :
    agreeButUnspecified (respond r s) (respond r s') :=
  agree_map (respond r) (fun _ _ => rfl) (fun _ hv => fits_of_quiet (quiet_respond r s) hv.note) h

theorem toPhase_agree {s s' : State} (op : Instr) (ph : Phase) (h : agreeButUnspecified s s') :
    agreeButUnspecified (toPhase op ph s) (toPhase op ph s') :=
  agree_map (toPhase op ph) (fun _ _ => rfl) (fun _ hv => fits_of_quiet (quiet_toPhase op ph s) hv.note) h

theorem enumerateBegin_agree {s s' : State} (op : Instr) (h : agreeButUnspecified s s') :
    agreeButUnspecified (enumerateBegin op s) (enumerateBegin op s') :=
  agree_map (enumerateBegin op) (fun _ _ => rfl) (fun _ hv => fits_of_quiet (quiet_phase rfl) hv.note) h

theorem enumerateReturn_agree {s s' : State} (P : Params) (h : agreeButUnspecified s s') :
    agreeButUnspecified (enumerateReturn P s) (enumerateReturn P s') :=
  agree_map (enumerateReturn P) (fun _ _ => rfl) (fun _ hv => fits_of_quiet (quiet_ready rfl) hv.note) h

/-- An internal operation is refused or run in both (R93). -/
theorem internalOnly_agree {s s' : State} {run : State → State} (hrun : agreeButUnspecified (run s) (run s'))
    (h : agreeButUnspecified s s') : agreeButUnspecified (internalOnly run s) (internalOnly run s') := by
  cases ho : s.origin
  · rw [internalOnly_caller run ho, internalOnly_caller run ((agree_origin h).trans ho)]
    exact raiseFault_agree _ h
  · rw [internalOnly_harness run ho, internalOnly_harness run ((agree_origin h).trans ho)]
    exact hrun

/-! ## The codec -/

/-- The free values that replace the decoder registers are the same, since as many have been drawn (R31, entry 7). -/
theorem forgetDecoded_agree {s s' : State} (h : agreeButUnspecified s s') :
    agreeButUnspecified (forgetDecoded s) (forgetDecoded s') ∧ (forgetDecoded s').d = (forgetDecoded s).d := by
  obtain ⟨v, rfl, hv⟩ := agree_iff.1 h
  exact ⟨agree_iff.2 ⟨{ v with d := Config.freeDecoded s.draws }, rfl, { hv with }⟩, rfl⟩

/-- A framed decode overwrites the decoder registers, and checks the words against the counter table alone (R113 to R116). -/
theorem decodeFramed_agree {s s' : State} (P : Params) (words : List Word) (h : agreeButUnspecified s s') :
    agreeButUnspecified (decodeFramed P words s).1 (decodeFramed P words s').1 ∧
      (decodeFramed P words s').1.d = (decodeFramed P words s).1.d ∧
      (decodeFramed P words s').2 = (decodeFramed P words s).2 := by
  rw [decodeFramed_eq, decodeFramed_eq, agree_ctRead h]
  obtain ⟨v, rfl, hv⟩ := agree_iff.1 h
  exact ⟨agree_iff.2 ⟨{ v with d := fieldsOf words }, rfl, { hv with }⟩, rfl, rfl⟩

/-- Which way a decode goes depends on the length alone: it refuses in both, or reports the same status and the same decoder
registers (R113 to R117). -/
theorem decodeWords_agree {s s' : State} (P : Params) (words : List Word) (h : agreeButUnspecified s s') :
    (∃ f, decodeWords P words s = .error f ∧ decodeWords P words s' = .error f) ∨
    ∃ t t' st, decodeWords P words s = .ok (t, st) ∧ decodeWords P words s' = .ok (t', st) ∧
      agreeButUnspecified t t' ∧ t'.d = t.d := by
  unfold decodeWords
  by_cases h7 : maxMsgWords < words.length
  · exact .inl ⟨_, if_pos h7, if_pos h7⟩
  · simp only [if_neg h7]
    refine .inr ?_
    by_cases h0 : words.length = 0
    · exact ⟨_, _, _, if_pos h0, if_pos h0, forgetDecoded_agree h⟩
    · simp only [if_neg h0]
      by_cases h4 : words.length < 4
      · exact ⟨_, _, _, if_pos h4, if_pos h4, forgetDecoded_agree h⟩
      · obtain ⟨ht, hd, hst⟩ := decodeFramed_agree P words h
        exact ⟨_, _, (decodeFramed P words s).2, if_neg h4,
          (if_neg h4).trans (congrArg Except.ok (Prod.ext rfl hst)), ht, hd⟩

theorem decomposeOp_agree {s s' : State} (P : Params) (words : List Word) (h : agreeButUnspecified s s') :
    agreeButUnspecified (decomposeOp P words s) (decomposeOp P words s') := by
  rcases decodeWords_agree P words h with ⟨f, e, e'⟩ | ⟨t, t', st, e, e', ht, hd⟩ <;>
    simp only [decomposeOp, e, e', decodeResult]
  · exact raiseFault_agree f h
  · rw [hd]; exact respond_agree _ ht

/-! ## The claim of the bus -/

/-- A claim stages the same words, and a read has latched the same operands by then (R140, R160). -/
theorem gateClaim_agree {s s' : State} (op : Instr) (c : Channel) (n : Nat) (m : List Word)
    (hl : c = .rx → sameLatch s.rd s'.rd) (h : agreeButUnspecified s s') :
    agreeButUnspecified (gateClaim op c n m s) (gateClaim op c n m s') := by
  have hb : s'.busy = s.busy := agree_reads State.busy (fun _ _ => rfl) h
  rcases gateClaim_cases op c n m s with ⟨hs, e⟩ | ⟨hs, e⟩
  · have e' : gateClaim op c n m s' =
        { s' with busy := .busy, txBuf := quadOf m, opState := .running op (.start c n) } := by
      simp [gateClaim, acquire, hb.trans hs]
    rw [e, e']
    obtain ⟨v, rfl, hv⟩ := agree_iff.1 h
    have hfits : Fits { v with txBuf := quadOf m }
        { s with busy := .busy, txBuf := quadOf m, opState := .running op (.start c n) } := by
      refine ⟨fun _ => rfl, fun hlive => ?_, nofun, nofun, hv.note⟩
      cases c
      · cases hlive
      · exact hl rfl
    exact hfits.agree
  · have e' : gateClaim op c n m s' = raiseFault .busBusy s' := by simp [gateClaim, acquire, hb.trans hs]
    rw [e, e']
    exact raiseFault_agree _ h

theorem writeBegin_agree {s s' : State} (P : Params) (op : Instr) (ra : Addr) (reg value : Word)
    (h : agreeButUnspecified s s') :
    agreeButUnspecified (writeBegin P op ra reg value s) (writeBegin P op ra reg value s') := by
  rw [writeBegin_eq, writeBegin_eq]
  exact gateClaim_agree _ _ _ _ nofun h

/-- At a quiet point the registers that a read latches over may differ (R30, R160). -/
theorem readLatch_agree {s s' : State} (ra : Addr) (n ipf : Nat) (reg : Word) (hq : quiet s)
    (h : agreeButUnspecified s s') :
    agreeButUnspecified { s with rd := readLatch ra n ipf reg s.rd } { s' with rd := readLatch ra n ipf reg s'.rd } := by
  obtain ⟨v, rfl, hv⟩ := agree_iff.1 h
  exact Fits.agree (s := { s with rd := readLatch ra n ipf reg s.rd })
    (v := { v with rd := readLatch ra n ipf reg v.rd }) (fits_of_quiet hq hv.note)

theorem readBegin_agree {s s' : State} (P : Params) (op : Instr) (ra : Addr) (n ipf : Nat) (reg : Word) (hq : quiet s)
    (h : agreeButUnspecified s s') :
    agreeButUnspecified (readBegin P op ra n ipf reg s) (readBegin P op ra n ipf reg s') := by
  rw [readBegin_eq, readBegin_eq]
  cases readCheck P n ipf with
  | some f => exact raiseFault_agree f h
  | none =>
    exact gateClaim_agree _ _ _ _ (fun _ => ⟨rfl, rfl, rfl, rfl, rfl⟩) (readLatch_agree ra n ipf reg hq h)

/-! ## Requests -/

/-- The second outcome is a next state that agrees, whenever the first is a next state. -/
def agreeNext (o o' : Host.Outcome State Fault Refusal) : Prop :=
  ∀ t, o = .next t → ∃ t', o' = .next t' ∧ agreeButUnspecified t t'

theorem agreeNext_next {t t' : State} (h : agreeButUnspecified t t') : agreeNext (.next t) (.next t') := by
  rintro _ ⟨⟩; exact ⟨t', rfl, h⟩

theorem exec_agree {s s' : State} (i : Instr) (h : agreeButUnspecified s s') : agreeNext (exec i s) (exec i s') := by
  have hdec : ∀ words, agreeButUnspecified (internalOnly (decomposeOp Config.params words) s)
      (internalOnly (decomposeOp Config.params words) s') := fun words =>
    internalOnly_agree (decomposeOp_agree Config.params words h) h
  cases i with
  | crcCompute words =>
    refine agreeNext_next (internalOnly_agree ?_ h)
    unfold crcComputeOp
    split
    · exact respond_agree _ h
    · exact raiseFault_agree _ h
  | crcVerify words expected =>
    refine agreeNext_next (internalOnly_agree ?_ h)
    unfold crcVerifyOp
    split
    · exact respond_agree _ h
    · exact raiseFault_agree _ h
  | compose cmd madd ra reg length values =>
    refine agreeNext_next (internalOnly_agree ?_ h)
    unfold composeOp
    split
    · exact respond_agree _ h
    · exact raiseFault_agree _ h
  | ctrExpected ra =>
    refine agreeNext_next (internalOnly_agree ?_ h)
    rw [agree_ctRead h]; exact respond_agree _ h
  | ctrAdvance ra => exact agreeNext_next (internalOnly_agree (respond_agree _ (ctrAdvance_agree ra h)) h)
  | ctrReset ra stringId =>
    refine agreeNext_next ?_
    have hstr : s'.string = s.string := agree_reads State.string (fun _ _ => rfl) h
    unfold ctrResetOp
    rw [hstr]
    split
    · exact respond_agree _ (ctrReset_agree ra h)
    · exact raiseFault_agree _ h
  | write ra reg value => exact agreeNext_next (writeBegin_agree _ _ _ _ _ (accept_agree _ h))
  | read ra reg => exact agreeNext_next (readBegin_agree _ _ _ _ _ _ (quiet_entry rfl) (accept_agree _ h))
  | readMultiple ra n ipf reg =>
    exact agreeNext_next (readBegin_agree _ _ _ _ _ _ (quiet_entry rfl) (accept_agree _ h))
  | enumerate => exact agreeNext_next (enumerateBegin_agree _ (accept_agree _ h))
  | decompose words => exact agreeNext_next (hdec _)
  | msgNop madd ra cnt dl body => exact agreeNext_next (hdec _)
  | msgRead madd ra cnt dl body => exact agreeNext_next (hdec _)
  | msgWrite madd ra cnt dl body => exact agreeNext_next (hdec _)
  | msgResponse madd ra cnt dl body => exact agreeNext_next (hdec _)
  | _ => exact agreeNext_next (raiseFault_agree _ h)

theorem runRequest_agree {s s' : State} (r : Request) (h : agreeButUnspecified s s') :
    agreeNext (runRequest r s) (runRequest r s') := by
  unfold runRequest
  split
  · exact exec_agree _ (takeRequest_agree r h)
  · exact agreeNext_next (raiseFault_agree _ (takeRequest_agree r h))

end Sys2Proof.Proofs

namespace Sys2Proof.Proofs

open Machine

/-! ## Transfers and waits -/

/-- A started transfer reports the staged words, which are shared (R142, R212). -/
theorem startTransfer_agree {s s' : State} (P : Params) {op : Instr} {c : Channel} {n : Nat} (a : StartAnswer)
    (ho : s.opState = .running op (.start c n)) (h : agreeButUnspecified s s') :
    agreeButUnspecified (startTransfer P op c n a s) (startTransfer P op c n a s') := by
  cases a with
  | busy => exact raiseFault_agree _ h
  | accepted =>
    obtain ⟨v, rfl, hv⟩ := agree_iff.1 h
    have htx : v.txBuf = s.txBuf := hv.staged (by simp [beforeStart, ho])
    have heq : startTransfer P op c n .accepted (overlay v s) = overlay v (startTransfer P op c n .accepted s) := by
      show emit (.transfer c v.txBuf n (waitTimeout P c)) _ = _
      rw [htx]; rfl
    rw [heq]
    refine Fits.agree ?_
    cases c with
    | tx => exact fits_of_quiet (quiet_waiting_tx rfl) hv.note
    | rx => exact fits_of_latch nofun (hv.latch (by simp [readLive, ho])) rfl hv.note

/-- Received words land on the same places of buffers that may differ elsewhere (R146). -/
theorem sameReceived_writeList (n : Nat) (ws : List Word) {rx rx' : Table Word}
    (h : sameReceived n rx rx' ∨ n ≤ ws.length) :
    sameReceived n (tableWriteList 0 0 ws rx) (tableWriteList 0 0 ws rx') := by
  intro i hi
  by_cases hw : i < ws.length
  · have inside : ∀ t : Table Word, tableRead 0 i (tableWriteList 0 0 ws t) = ws.getD i 0 := fun t => by
      simpa using tableRead_writeList_inside 0 ws 0 i t hw
    rw [inside, inside]
  · have outside : ∀ t : Table Word, tableRead 0 i (tableWriteList 0 0 ws t) = tableRead 0 i t := fun t =>
      tableRead_writeList_outside 0 ws 0 i t (.inr (by omega))
    rw [outside, outside]
    rcases h with h | h
    · exact h i hi
    · omega

theorem completion_agree {s s' : State} (t : Transfer) (ws : List Word) (h : agreeButUnspecified s s') :
    agreeButUnspecified (completion t ws s) (completion t ws s') := by
  obtain ⟨v, rfl, hv⟩ := agree_iff.1 h
  rw [completion_eq, completion_eq]
  cases t.kind with
  | tx => exact agree_iff.2 ⟨v, rfl, { hv with }⟩
  | rx =>
    refine agree_iff.2 ⟨{ v with rxBuf := tableWriteList 0 0 ws v.rxBuf }, rfl, { hv with walk := ?_, note := ?_ }⟩
    · intro hw
      obtain ⟨hrd, hrx⟩ := hv.walk hw
      exact ⟨hrd, sameReceived_writeList _ ws (.inl hrx)⟩
    · rintro r ⟨⟩
      exact sameReceived_writeList _ ws (.inr (Nat.le_refl _))

/-- A receive timeout sets the status that ends the walk, over operands that are shared (R170). -/
theorem waitTimedOut_agree {s s' : State} (P : Params) {op : Instr} {c : Channel} (ho : s.opState = .waiting op c)
    (h : agreeButUnspecified s s') : agreeButUnspecified (waitTimedOut P op c s) (waitTimedOut P op c s') := by
  obtain ⟨v, rfl, hv⟩ := agree_iff.1 h
  cases c with
  | tx => exact agree_iff.2 ⟨v, rfl, fits_of_quiet (quiet_written rfl) hv.note⟩
  | rx =>
    have hl : sameLatch s.rd v.rd := hv.latch (by simp [readLive, ho])
    exact agree_iff.2 ⟨{ v with rd := readTimedOut v.rd }, rfl, nofun, fun _ => hl, fun _ => ⟨rfl, rfl⟩, nofun, hv.note⟩

/-- The registers at the start of a walk are those latched and those set there: none is left unwritten (R160). -/
theorem beginWalk_eq_of_sameLatch {rd rd' : ReadRegs} (r : Nat) (h : sameLatch rd rd') :
    beginWalk r rd' = beginWalk r rd := by
  obtain ⟨h1, h2, h3, h4, h5⟩ := h
  simp [beginWalk, h1, h2, h3, h4, h5]

/-- The walk begins with the words that were notified, which are shared (R144, R160). -/
theorem waitDone_agree {s s' : State} {op : Instr} {c : Channel} {r : Nat} (ho : s.opState = .waiting op c)
    (hn : noteRead c s = some r) (h : agreeButUnspecified s s') :
    agreeButUnspecified (waitDone op c r s) (waitDone op c r s') := by
  obtain ⟨v, rfl, hv⟩ := agree_iff.1 h
  cases c with
  | tx => exact agree_iff.2 ⟨v, rfl, fits_of_quiet (quiet_written rfl) hv.note⟩
  | rx =>
    have hl : sameLatch s.rd v.rd := hv.latch (by simp [readLive, ho])
    exact agree_iff.2 ⟨{ v with rd := beginWalk r v.rd }, rfl,
      fits_of_frames (op := op) rfl (beginWalk_eq_of_sameLatch r hl) (hv.note r hn) nofun⟩

/-! ## Phases and returns -/

theorem phaseStep_agree {s s' : State} (P : Params) {op : Instr} (ho : s.opState = .running op .phase)
    (h : agreeButUnspecified s s') : agreeButUnspecified (phaseStep P op s) (phaseStep P op s') := by
  have hq : quiet s := quiet_phase ho
  have hpos := agree_pos h
  cases hph : s.phase <;> rw [phaseStep_eq P op hph, phaseStep_eq P op ((agree_phase h).trans hph)] <;> dsimp only <;>
    try rw [hpos]
  case idle => exact h
  case sleep => exact writeBegin_agree _ _ _ _ _ h
  case assign => exact writeBegin_agree _ _ _ _ _ h
  case config => exact writeBegin_agree _ _ _ _ _ h
  case probe1 => exact readBegin_agree _ _ _ _ _ _ hq h
  case probe2 => exact readBegin_agree _ _ _ _ _ _ hq h
  case verify => exact readBegin_agree _ _ _ _ _ _ hq h
  case uid => exact readBegin_agree _ _ _ _ _ _ hq h
  case wake => exact toPhase_agree _ _ (emit_agree _ h)
  case done => exact enumerateReturn_agree P h

/-- What a known phase does after its write returned (R182, R185, R187). -/
theorem phaseWritten_eq {ph : Phase} (P : Params) (op : Instr) {s : State} :
    s.phase = ph → phaseWritten P op s =
      match ph with
      | .sleep => { s with opState := .running op .settle }
      | .assign => toPhase op .verify (ctrReset (positionAddr P s.pos) s)
      | .config => toPhase op .uid s
      | _ => s := by
  rintro rfl
  unfold phaseWritten
  cases s.phase <;> rfl

/-- What a known phase does with its read (R183, R184, R186, R187). -/
theorem phaseRead_eq {ph : Phase} (P : Params) (op : Instr) (acc : List Word) (st : Status) {s : State} :
    s.phase = ph → phaseRead P op acc st s =
      match ph with
      | .probe1 => if st = .ok then probeOk P op s else toPhase op .wake s
      | .probe2 => if st = .ok then probeOk P op s else toPhase op .assign s
      | .verify => toPhase op .config (addressedWrite s.pos (st == .ok) s)
      | .uid => nextPosition P op (uidStore s.pos acc s)
      | _ => s := by
  rintro rfl
  unfold phaseRead
  cases s.phase <;> rfl

theorem phaseWritten_agree {s s' : State} (P : Params) (op : Instr) (h : agreeButUnspecified s s') :
    agreeButUnspecified (phaseWritten P op s) (phaseWritten P op s') := by
  have hpos := agree_pos h
  cases hph : s.phase <;> rw [phaseWritten_eq P op hph, phaseWritten_eq P op ((agree_phase h).trans hph)]
  case sleep =>
    exact agree_map (fun s => { s with opState := .running op .settle }) (fun _ _ => rfl)
      (fun _ hv => fits_of_quiet (quiet_settle rfl) hv.note) h
  case assign => rw [hpos]; exact toPhase_agree _ _ (ctrReset_agree _ h)
  case config => exact toPhase_agree _ _ h
  all_goals exact h

theorem writeReturns_agree {s s' : State} (P : Params) (op : Instr) (h : agreeButUnspecified s s') :
    agreeButUnspecified (writeReturns P op s) (writeReturns P op s') := by
  cases op with
  | write ra reg value => exact respond_agree _ h
  | enumerate => exact phaseWritten_agree P _ h
  | _ => exact h

theorem settleStep_agree {s s' : State} (P : Params) (op : Instr) (h : agreeButUnspecified s s') :
    agreeButUnspecified (settleStep P op s) (settleStep P op s') :=
  toPhase_agree _ _ (emit_agree _ h)

theorem probeOk_agree {s s' : State} (P : Params) (op : Instr) (h : agreeButUnspecified s s') :
    agreeButUnspecified (probeOk P op s) (probeOk P op s') := by
  unfold probeOk
  rw [agree_pos h]
  exact toPhase_agree _ _ (addressedWrite_agree _ _ (ctrReset_agree _ h))

theorem nextPosition_agree {s s' : State} (P : Params) (op : Instr) (h : agreeButUnspecified s s') :
    agreeButUnspecified (nextPosition P op s) (nextPosition P op s') := by
  have hpos := agree_pos h
  by_cases hlt : s.pos < P.deviceCount
  · rw [nextPosition, nextPosition, if_pos hlt, if_pos (hpos ▸ hlt)]
    exact toPhase_agree _ _
      (agree_map (fun s => { s with pos := s.pos + 1 }) (fun _ _ => rfl) (fun _ hv => { hv with }) h)
  · rw [nextPosition, nextPosition, if_neg hlt, if_neg (hpos ▸ hlt)]
    exact toPhase_agree _ _ h

/-- An identifier's words are stored over words that may differ (R187). -/
theorem uidStore_agree {s s' : State} (p : Nat) (acc : List Word) (h : agreeButUnspecified s s') :
    agreeButUnspecified (uidStore p acc s) (uidStore p acc s') := by
  obtain ⟨v, rfl, hv⟩ := agree_iff.1 h
  exact agree_iff.2 ⟨{ v with uid := tableWriteList 0 (uidIndex p 0) acc v.uid }, rfl, { hv with }⟩

theorem phaseRead_agree {s s' : State} (P : Params) (op : Instr) (acc : List Word) (st : Status)
    (h : agreeButUnspecified s s') : agreeButUnspecified (phaseRead P op acc st s) (phaseRead P op acc st s') := by
  have hpos := agree_pos h
  cases hph : s.phase <;> rw [phaseRead_eq P op acc st hph, phaseRead_eq P op acc st ((agree_phase h).trans hph)]
  case probe1 =>
    dsimp only
    split
    · exact probeOk_agree P op h
    · exact toPhase_agree _ _ h
  case probe2 =>
    dsimp only
    split
    · exact probeOk_agree P op h
    · exact toPhase_agree _ _ h
  case verify => rw [hpos]; exact toPhase_agree _ _ (addressedWrite_agree _ _ h)
  case uid => rw [hpos]; exact nextPosition_agree P op (uidStore_agree _ acc h)
  all_goals exact h

/-- A phase that reads sets the control point itself, whatever it was. -/
theorem phaseRead_opState (P : Params) (op : Instr) (acc : List Word) (st : Status) {s : State} (o : OpState)
    (h : phaseTransfers s.phase .rx = true) :
    phaseRead P op acc st { s with opState := o } = phaseRead P op acc st s := by
  unfold phaseRead
  dsimp only
  cases hph : s.phase <;> rw [hph] at h <;> cases h <;> rfl

/-- At a quiet point the read-engine registers are not live, and the free values that replace them are the same, since as
many have been drawn (R30, entry 7). -/
theorem forgetReadRegs_agree {s s' : State} (hq : quiet s) (h : agreeButUnspecified s s') :
    agreeButUnspecified (forgetReadRegs s) (forgetReadRegs s') := by
  obtain ⟨v, rfl, hv⟩ := agree_iff.1 h
  exact agree_iff.2 ⟨{ v with rd := Config.freeReadRegs s.draws }, rfl, fits_of_quiet hq hv.note⟩

/-- A read returns the items and the status, which are shared, and goes on to a quiet point (R163, R171, R205). -/
theorem readReturns_agree {s s' : State} (P : Params) {op : Instr} (ho : s.opState = .running op .frames)
    (hfits : channelFits op .rx s.phase = true) (h : agreeButUnspecified s s') :
    agreeButUnspecified (readReturns P op s) (readReturns P op s') := by
  obtain ⟨hacc, hst⟩ := agree_result h (by simp [readEnded, ho])
  have hready : agreeButUnspecified { s with opState := .ready } { s' with opState := .ready } :=
    agree_map (fun s => { s with opState := .ready }) (fun _ _ => rfl)
      (fun _ hv => fits_of_quiet (quiet_ready rfl) hv.note) h
  have hforget := forgetReadRegs_agree (quiet_ready rfl) hready
  cases op with
  | read ra reg =>
    show agreeButUnspecified (respond (.value (readValue s.draws s.rd.acc s.rd.st) s.rd.st) _)
      (respond (.value (readValue s'.draws s'.rd.acc s'.rd.st) s'.rd.st) _)
    rw [hacc, hst, agree_draws h]
    exact (respond_agree _ hforget :)
  | readMultiple ra n ipf reg =>
    show agreeButUnspecified (respond (.values s.rd.acc s.rd.st) _) (respond (.values s'.rd.acc s'.rd.st) _)
    rw [hacc, hst]
    exact (respond_agree _ hforget :)
  | enumerate =>
    show agreeButUnspecified (phaseRead P .enumerate s.rd.acc s.rd.st (forgetReadRegs s))
      (phaseRead P .enumerate s'.rd.acc s'.rd.st (forgetReadRegs s'))
    rw [hacc, hst]
    have hph : phaseTransfers s.phase .rx = true := (channelFits_enumerate ..).symm.trans hfits
    have hph' : phaseTransfers s'.phase .rx = true := (agree_phase h).symm ▸ hph
    rw [← phaseRead_opState P .enumerate s.rd.acc s.rd.st (s := forgetReadRegs s) OpState.ready hph,
      ← phaseRead_opState P .enumerate s.rd.acc s.rd.st (s := forgetReadRegs s') OpState.ready hph']
    exact phaseRead_agree P _ _ _ hforget
  | _ => exact h

/-! ## Answer frames -/

/-- The words of a frame are received words, so they are shared during the walk (R160, R165). -/
theorem frameWords_agree {s s' : State} (hw : walkLive s = true) (h : agreeButUnspecified s s') :
    frameWords s' = frameWords s := by
  obtain ⟨hrd, hrx⟩ := agree_walk h hw
  unfold frameWords rxSlice
  rw [hrd]
  refine List.map_congr_left fun i hi => hrx _ ?_
  have hlt : i < frameLength s.rd.ipf s.rd.k s.rd.received := List.mem_range.1 hi
  unfold frameLength at hlt
  omega

/-- Setting the registers of a walk to the same values, with as many words received as before. -/
theorem setWalk_agree {s s' : State} {op : Instr} {rd : ReadRegs} (ho : s.opState = .running op .frames)
    (hrx : sameReceived rd.received s.rxBuf s'.rxBuf) (h : agreeButUnspecified s s') :
    agreeButUnspecified { s with rd := rd } { s' with rd := rd } := by
  obtain ⟨v, rfl, hv⟩ := agree_iff.1 h
  exact agree_iff.2 ⟨{ v with rd := rd }, rfl, fits_of_frames (op := op) ho rfl hrx hv.note⟩

/-- A frame is decoded and checked alike during the walk (R160, R169). -/
theorem frameStep_agree {s s' : State} (P : Params) {op : Instr} (ho : s.opState = .running op .frames)
    (hok : s.rd.st = .ok) (h : agreeButUnspecified s s') :
    agreeButUnspecified (frameStep P s) (frameStep P s') := by
  have hw : walkLive s = true := by simp [walkLive, readEnded, ho, hok]
  have hfw := frameWords_agree hw h
  rcases decodeWords_agree P (frameWords s) h with ⟨f, e, e'⟩ | ⟨t, t', sd, e, e', ht, hd⟩
  · simp only [frameStep, hfw, e, e']
    exact raiseFault_agree f h
  · obtain ⟨hrd, hrx⟩ := agree_walk h hw
    have hto : t.opState = .running op .frames := by rw [decodeWords_changes e]; exact ho
    have htw : walkLive t = true := by rw [decodeWords_changes e]; exact hw
    have htrd : t.rd = s.rd := by rw [decodeWords_changes e]
    have htrx : sameReceived s.rd.received t.rxBuf t'.rxBuf := htrd ▸ (agree_walk ht htw).2
    have hcopy : copyItems t'.d.payload s'.rd = copyItems t.d.payload s.rd := by rw [hd, hrd]
    rw [← hfw] at e'
    by_cases ha : answerStatus sd t.d s.rd.ra (expectedReg s.rd.reg s.rd.k s.rd.ipf) = .ok
    · rw [frameStep_passes e ha, frameStep_passes e' (by rw [hd, hrd]; exact ha), hcopy]
      exact setWalk_agree hto htrx ht
    · rw [frameStep_fails e rfl ha, frameStep_fails e' (by rw [hd, hrd]) ha, hrd]
      exact setWalk_agree hto htrx ht

/-- Whether the walk is over is decided by what is shared (R160). -/
theorem walkOver_agree {s s' : State} {op : Instr} (ho : s.opState = .running op .frames)
    (h : agreeButUnspecified s s') : walkOver s'.rd = walkOver s.rd := by
  by_cases hok : s.rd.st = .ok
  · rw [(agree_walk h (by simp [walkLive, readEnded, ho, hok])).1]
  · have hst := (agree_result h (by simp [readEnded, ho])).2
    have hne : (s.rd.st != .ok) = true := by simpa using hok
    simp [walkOver, hst, hne]

/-! ## Whole steps -/

/-- The engine's step inside an operation; the control point is legal, so that the return of a read is one its operation
makes. -/
theorem engineStep_agree {s s' : State} (P : Params) (hc : controlWf s = true) (h : agreeButUnspecified s s') :
    Option.Rel agreeButUnspecified (engineStep P s) (engineStep P s') := by
  have ho' := agree_opState h
  cases ho : s.opState with
  | ready => simp only [engineStep, ho', ho]; exact .none
  | waiting op c =>
    cases hn : noteRead c s with
    | none => simp only [engineStep, ho', ho, agree_noteRead h, hn]; exact .none
    | some r =>
      simp only [engineStep, ho', ho, agree_noteRead h, hn]
      exact .some (waitDone_agree ho hn h)
  | running op pt =>
    cases pt with
    | entry => simp only [engineStep, ho', ho]; exact .none
    | start c n => simp only [engineStep, ho', ho]; exact .none
    | phase => simp only [engineStep, ho', ho]; exact .some (phaseStep_agree P ho h)
    | written => simp only [engineStep, ho', ho]; exact .some (writeReturns_agree P op h)
    | settle => simp only [engineStep, ho', ho]; exact .some (settleStep_agree P op h)
    | frames =>
      have hfits : channelFits op .rx s.phase = true := by simpa [controlWf, ho] using hc
      simp only [engineStep, ho', ho, walkOver_agree ho h]
      split
      · exact .some (readReturns_agree P ho hfits h)
      · next hgo => exact .some (frameStep_agree P ho (walkOver_eq_false.1 (by simpa using hgo)).1 h)

/-- A move of another agent is enabled in both or in neither (R35). -/
theorem agentMove_agree {s s' : State} (P : Params) (m : Move) (h : agreeButUnspecified s s') :
    Option.Rel agreeButUnspecified (agentMove P m s) (agentMove P m s') := by
  have ho' := agree_opState h
  cases m with
  | engine => exact .none
  | reset => exact .none
  | request r =>
    cases hp : s.port with
    | none =>
      simp only [agentMove, agree_port h, hp]
      exact .some (agree_map (fun s => { s with port := some r }) (fun _ _ => rfl) (fun _ hv => { hv with }) h)
    | some q => simp only [agentMove, agree_port h, hp]; exact .none
  | answer a =>
    cases ho : s.opState with
    | ready => simp only [agentMove, ho', ho]; exact .none
    | waiting op c => simp only [agentMove, ho', ho]; exact .none
    | running op pt =>
      cases pt with
      | start c n => simp only [agentMove, ho', ho]; exact .some (startTransfer_agree P a ho h)
      | _ => simp only [agentMove, ho', ho]; exact .none
  | complete t ws =>
    have hen : completionEnabled t ws s' = completionEnabled t ws s :=
      agree_reads (completionEnabled t ws) (fun _ _ => rfl) h
    simp only [agentMove, hen]
    split
    · exact .some (completion_agree t ws h)
    · exact .none
  | timeout c =>
    cases ho : s.opState with
    | ready => simp only [agentMove, ho', ho]; exact .none
    | running op pt => simp only [agentMove, ho', ho]; exact .none
    | waiting op c' =>
      simp only [agentMove, ho', ho, agree_noteRead h]
      split
      · next hcc => obtain ⟨rfl, -⟩ := hcc; exact .some (waitTimedOut_agree P ho h)
      · exact .none

theorem next_agree {o o' : Option State} (h : Option.Rel agreeButUnspecified o o') :
    Option.Rel agreeNext (o.map .next) (o'.map .next) := by
  cases h with
  | none => exact .none
  | some h => exact .some (agreeNext_next h)

/-- The engine's turn: the same request is taken, or the operation goes on in both (R90). -/
theorem engineTurn_agree {s s' : State} (hc : controlWf s = true) (h : agreeButUnspecified s s') :
    Option.Rel agreeNext (engineTurn s) (engineTurn s') := by
  have hgo := next_agree (engineStep_agree Config.params hc h)
  unfold engineTurn
  rw [agree_opState h, agree_port h]
  split
  · exact .none
  · exact .some (runRequest_agree _ h)
  · exact hgo

/-- Holding, or another state, in place of the engine's turn. -/
theorem getD_agree {o o' : Option (Host.Outcome State Fault Refusal)} {t t' : State}
    (h : Option.Rel agreeNext o o') (ht : agreeButUnspecified t t') :
    agreeNext (o.getD (.next t)) (o'.getD (.next t')) := by
  cases h with
  | none => exact agreeNext_next ht
  | some h => exact h

theorem engineOrHold_agree {s s' : State} (hc : controlWf s = true) (h : agreeButUnspecified s s') :
    agreeNext (engineOrHold s) (engineOrHold s') :=
  getD_agree (engineTurn_agree hc h) h

/-- A step with the next move at hand: an enabled move happens in both, any other waits or is dropped in both (entry 1). -/
theorem moveStep_agree {s s' : State} (m : Move) (rest : List Move) (hc : controlWf s = true)
    (h : agreeButUnspecified s s') : agreeNext (moveStep m rest s) (moveStep m rest s') := by
  have hm := moves_agree rest h
  unfold moveStep
  split
  · exact engineOrHold_agree (s := { s with moves := rest }) hc hm
  · have ha := agentMove_agree Config.params m hm
    generalize agentMove Config.params m { s with moves := rest } = o,
      agentMove Config.params m { s' with moves := rest } = o' at ha ⊢
    cases ha with
    | none => exact getD_agree (engineTurn_agree hc h) hm
    | some ht => exact agreeNext_next ht

theorem restart_agree {s s' : State} (ms : List Move) (h : agreeButUnspecified s s') :
    agreeButUnspecified (restart ms s) (restart ms s') := by
  rw [agree_reads (restart ms) (fun _ _ => rfl) h]
  exact agree_refl _

theorem liveStep_agree {s s' : State} (hc : controlWf s = true) (h : agreeButUnspecified s s') :
    agreeNext (liveStep s) (liveStep s') := by
  unfold liveStep
  rw [agree_moves h]
  split
  · exact engineOrHold_agree hc h
  · exact moveStep_agree _ _ hc h

theorem step_agree {s s' : State} (hc : controlWf s = true) (h : agreeButUnspecified s s') :
    agreeNext (step s) (step s') := by
  unfold step
  rw [agree_moves h, agree_fault h]
  split
  · exact agreeNext_next (restart_agree _ h)
  · intro t ht; cases ht
  · exact liveStep_agree hc h

/-- Settles O54: a step from agreeing states reads only what they share. -/
theorem unspecifiedValuesAreNotRead : Obligations.UnspecifiedValuesAreNotRead :=
  fun _ _ t hc h hstep => step_agree hc h t hstep

end Sys2Proof.Proofs

namespace Sys2Proof.Proofs

open Machine

/-! ## The header word -/

theorem code_commandOfCode (c : BitVec 2) : (commandOfCode c).code = c := by
  revert c; decide

/-- The code of a header's command is its two top bits (R72, R74). -/
theorem headerCommand_code (h : Word) : (headerCommand h).code = h.extractLsb' 14 2 :=
  code_commandOfCode _

theorem headerCommand_code_toNat (h : Word) : (headerCommand h).code.toNat = h.toNat / 2 ^ 14 := by
  have := h.isLt
  rw [headerCommand_code, BitVec.extractLsb'_toNat, Nat.shiftRight_eq_div_pow]
  omega

theorem headerMaster_toNat (h : Word) : (headerMaster h).toNat = h.toNat / 2 ^ 13 % 2 := by
  rw [headerMaster, BitVec.extractLsb'_toNat, Nat.shiftRight_eq_div_pow]

theorem headerAddr_toNat (h : Word) : (headerAddr h).toNat = h.toNat / 2 ^ 6 % 2 ^ 7 := by
  rw [headerAddr, BitVec.extractLsb'_toNat, Nat.shiftRight_eq_div_pow]

theorem headerCounter_toNat (h : Word) : (headerCounter h).toNat = h.toNat / 2 ^ 2 % 2 ^ 4 := by
  rw [headerCounter, BitVec.extractLsb'_toNat, Nat.shiftRight_eq_div_pow]

theorem headerDataLength_toNat (h : Word) : (headerDataLength h).toNat = h.toNat % 2 ^ 2 := by
  rw [headerDataLength, BitVec.extractLsb'_toNat, Nat.shiftRight_zero]

/-- A header word is the sum of its fields at their places (R72). -/
theorem header_toNat (h : Word) :
    h.toNat = (headerCommand h).code.toNat * 2 ^ 14 + (headerMaster h).toNat * 2 ^ 13 +
      ((headerAddr h).toNat / 64) * 2 ^ 12 + ((headerAddr h).toNat % 64) * 2 ^ 6 +
      (headerCounter h).toNat * 2 ^ 2 + (headerDataLength h).toNat := by
  rw [headerCommand_code_toNat, headerMaster_toNat, headerAddr_toNat, headerCounter_toNat, headerDataLength_toNat]
  omega

section Fields

variable (cmd : Command) (madd : BitVec 1) (ra : Addr) (cnt : Counter) (dl : BitVec 2)

@[simp] theorem headerCommand_pack : headerCommand (pack cmd madd ra cnt dl) = cmd := by
  have hcode : (pack cmd madd ra cnt dl).extractLsb' 14 2 = cmd.code := by
    unfold pack
    ext i hi
    interval_cases i <;> simp
  rw [headerCommand, hcode, commandOfCode_code]

@[simp] theorem headerMaster_pack : headerMaster (pack cmd madd ra cnt dl) = madd := by
  unfold headerMaster pack
  ext i hi
  interval_cases i; simp

@[simp] theorem headerAddr_pack : headerAddr (pack cmd madd ra cnt dl) = ra := by
  unfold headerAddr pack
  ext i hi
  interval_cases i <;> simp

@[simp] theorem headerCounter_pack : headerCounter (pack cmd madd ra cnt dl) = cnt := by
  unfold headerCounter pack
  ext i hi
  interval_cases i <;> simp

@[simp] theorem headerDataLength_pack : headerDataLength (pack cmd madd ra cnt dl) = dl := by
  unfold headerDataLength pack
  ext i hi
  interval_cases i <;> simp

theorem pack_toNat :
    (pack cmd madd ra cnt dl).toNat =
      cmd.code.toNat * 2 ^ 14 + madd.toNat * 2 ^ 13 + (ra.toNat / 64) * 2 ^ 12 + (ra.toNat % 64) * 2 ^ 6 +
        cnt.toNat * 2 ^ 2 + dl.toNat := by
  simpa using header_toNat (pack cmd madd ra cnt dl)

end Fields

/-- Every word is a header: packing its fields gives it back (R72). -/
theorem pack_fields (h : Word) :
    pack (headerCommand h) (headerMaster h) (headerAddr h) (headerCounter h) (headerDataLength h) = h :=
  BitVec.eq_of_toNat_eq ((pack_toNat ..).trans (header_toNat h).symm)

/-- Settles O1: a word is the sum of its fields, and the fields of a packed word are those it was packed from. -/
theorem headerLayout : Obligations.HeaderLayout :=
  ⟨fun cmd madd ra cnt dl =>
    ⟨pack_toNat cmd madd ra cnt dl, headerCommand_pack .., headerMaster_pack .., headerAddr_pack ..,
      headerCounter_pack .., headerDataLength_pack ..⟩,
    fun h =>
    ⟨headerCommand_code_toNat h, headerMaster_toNat h, headerAddr_toNat h, headerCounter_toNat h,
      headerDataLength_toNat h, pack_fields h⟩⟩

end Sys2Proof.Proofs

namespace Sys2Proof.Proofs

open Machine

/-! ## Opcode words and operand words -/

theorem opcode_toNat (q : Word) : (q.extractLsb' 12 4).toNat = q.toNat / 4096 := by
  have := q.isLt
  rw [BitVec.extractLsb'_toNat, Nat.shiftRight_eq_div_pow]
  omega

theorem lowBits_toNat (q : Word) : (q.extractLsb' 0 12).toNat = q.toNat % 4096 := by
  rw [BitVec.extractLsb'_toNat, Nat.shiftRight_zero]

@[simp] theorem reservedWord_opcode (c : BitVec 4) (low : BitVec 12) : (reservedWord c low).extractLsb' 12 4 = c := by
  unfold reservedWord opcodeWord
  ext i hi
  interval_cases i <;> simp

@[simp] theorem reservedWord_low (c : BitVec 4) (low : BitVec 12) : (reservedWord c low).extractLsb' 0 12 = low := by
  unfold reservedWord opcodeWord
  ext i hi
  interval_cases i <;> simp

/-- An opcode word of R90 is one whose low bits are 0. -/
theorem opcodeWord_eq (c : BitVec 4) : opcodeWord c = reservedWord c 0 := by
  simp [reservedWord]

theorem reservedWord_toNat (c : BitVec 4) (low : BitVec 12) :
    (reservedWord c low).toNat = c.toNat * 4096 + low.toNat := by
  have hc := opcode_toNat (reservedWord c low)
  have hl := lowBits_toNat (reservedWord c low)
  rw [reservedWord_opcode] at hc
  rw [reservedWord_low] at hl
  omega

theorem opcodeWord_toNat (c : BitVec 4) : (opcodeWord c).toNat = c.toNat * 4096 := by
  simp [opcodeWord_eq, reservedWord_toNat]

/-- Every word is an opcode with low bits. -/
theorem word_eq_reservedWord (q : Word) : q = reservedWord (q.extractLsb' 12 4) (q.extractLsb' 0 12) := by
  apply BitVec.eq_of_toNat_eq
  rw [reservedWord_toNat, opcode_toNat, lowBits_toNat]
  omega

/-- An operand of `n` bits decodes from the word that has it in its low bits, its high bits 0 (R91). -/
theorem narrow_eq_ok_iff {n : Nat} (hn : n ≤ 16) {w : Word} {x : BitVec n} :
    narrow n w = .ok x ↔ w = x.setWidth 16 := by
  unfold narrow
  split
  · next h =>
    rw [Except.ok.injEq, eq_comm, BitVec.toNat_eq, BitVec.toNat_eq, BitVec.toNat_setWidth, Nat.mod_eq_of_lt h,
      BitVec.toNat_setWidth_of_le hn, eq_comm]
  · next h =>
    simp only [reduceCtorEq, false_iff]
    rintro rfl
    rw [BitVec.toNat_setWidth_of_le hn] at h
    exact h x.isLt

theorem countWord_toNat {n : Nat} (h : n < 65536) : (countWord n).toNat = n :=
  (BitVec.toNat_ofNat n 16).trans (Nat.mod_eq_of_lt h)

theorem takeWords_eq_ok_iff {n : Nat} {ops words : List Word} :
    takeWords n ops = .ok words ↔ words.length = n ∧ ∃ rest, ops = words ++ rest := by
  unfold takeWords
  constructor
  · intro h
    split at h
    · next hn =>
      cases h
      exact ⟨List.length_take_of_le hn, ops.drop n, (List.take_append_drop n ops).symm⟩
    · cases h
  · rintro ⟨rfl, rest, rfl⟩
    simp

/-- A word list behind its count, the count bounded: one list, its length in the count word (R102, R103, R113). -/
theorem takeWords_counted_iff {bound : Nat} (hb : bound < 65536) {k : Word} {ops words : List Word} :
    (k.toNat ≤ bound ∧ takeWords k.toNat ops = .ok words) ↔
      words.length ≤ bound ∧ k = countWord words.length ∧ ∃ rest, ops = words ++ rest := by
  rw [takeWords_eq_ok_iff]
  constructor
  · rintro ⟨hk, hlen, hrest⟩
    exact ⟨hlen ▸ hk, by rw [hlen]; exact (BitVec.ofNat_toNat 16 k).symm, hrest⟩
  · rintro ⟨hlen, rfl, hrest⟩
    rw [countWord_toNat (by omega)]
    exact ⟨hlen, rfl, hrest⟩

end Sys2Proof.Proofs

namespace Sys2Proof.Proofs

open Machine

/-! ## The operands of each code -/

theorem wf_iff_check {i : Instr} : i.wf = true ↔ i.check = none := by
  simp [Instr.wf]

theorem checkChecksumWords_none {words : List Word} : checkChecksumWords words = none ↔ words.length ≤ 6 := by
  simp [checkChecksumWords]

theorem checkMessageLength_none {n : Nat} : checkMessageLength n = none ↔ n ≤ 7 := by
  simp [checkMessageLength]

theorem wf_crcCompute {words : List Word} : (Instr.crcCompute words).wf = true ↔ words.length ≤ 6 :=
  wf_iff_check.trans checkChecksumWords_none

theorem wf_crcVerify {words : List Word} {expected : Word} :
    (Instr.crcVerify words expected).wf = true ↔ words.length ≤ 6 :=
  wf_iff_check.trans checkChecksumWords_none

theorem wf_decompose {words : List Word} : (Instr.decompose words).wf = true ↔ words.length ≤ 7 :=
  wf_iff_check.trans checkMessageLength_none

/-- The shape of the two decoders whose operands are a bounded word list alone, `CRC_COMPUTE` and `DECOMPOSE`. -/
def decodeCounted (bound : Nat) (build : List Word → Instr) : List Word → Except DecodeError Instr
  | k :: ops => if k.toNat ≤ bound then (takeWords k.toNat ops).map build else .error .operandRange
  | [] => .error .missingOperand

theorem decodeCrcCompute_eq_counted : ∀ ops, decodeCrcCompute ops = decodeCounted 6 .crcCompute ops
  | [] => rfl
  | k :: ops => by
    rw [decodeCrcCompute, decodeCounted]
    cases takeWords k.toNat ops <;> rfl

theorem decodeDecompose_eq_counted : ∀ ops, decodeDecompose ops = decodeCounted 7 .decompose ops
  | [] => rfl
  | k :: ops => by
    rw [decodeDecompose, decodeCounted]
    cases takeWords k.toNat ops <;> rfl

theorem decodeCounted_eq_ok_iff {bound : Nat} (hb : bound < 65536) {build : List Word → Instr} {ops : List Word}
    {i : Instr} :
    decodeCounted bound build ops = .ok i ↔ ∃ words rest, words.length ≤ bound ∧
      ops = countWord words.length :: (words ++ rest) ∧ i = build words := by
  constructor
  · intro h
    unfold decodeCounted at h
    split at h
    · next k ops =>
      split at h
      · next hk =>
        cases hw : takeWords k.toNat ops with
        | error e => rw [hw] at h; cases h
        | ok words =>
          rw [hw] at h
          cases h
          obtain ⟨hlen, rfl, rest, rfl⟩ := (takeWords_counted_iff hb).1 ⟨hk, hw⟩
          exact ⟨words, rest, hlen, rfl, rfl⟩
      · cases h
    · cases h
  · rintro ⟨words, rest, hlen, rfl, rfl⟩
    obtain ⟨hk, hw⟩ := (takeWords_counted_iff hb).2 ⟨hlen, rfl, rest, rfl⟩
    simp only [decodeCounted, if_pos hk, hw, Except.map]

theorem decodeCrcCompute_eq_ok_iff {ops : List Word} {i : Instr} :
    decodeCrcCompute ops = .ok i ↔ ∃ words rest, words.length ≤ 6 ∧
      ops = countWord words.length :: (words ++ rest) ∧ i = .crcCompute words := by
  rw [decodeCrcCompute_eq_counted]; exact decodeCounted_eq_ok_iff (by omega)

theorem decodeDecompose_eq_ok_iff {ops : List Word} {i : Instr} :
    decodeDecompose ops = .ok i ↔ ∃ words rest, words.length ≤ 7 ∧
      ops = countWord words.length :: (words ++ rest) ∧ i = .decompose words := by
  rw [decodeDecompose_eq_counted]; exact decodeCounted_eq_ok_iff (by omega)

theorem decodeCrcVerify_eq_ok_iff {ops : List Word} {i : Instr} :
    decodeCrcVerify ops = .ok i ↔ ∃ words expected rest, words.length ≤ 6 ∧
      ops = countWord words.length :: (words ++ expected :: rest) ∧ i = .crcVerify words expected := by
  constructor
  · intro h
    unfold decodeCrcVerify at h
    split at h
    · next k ops =>
      split at h
      · next hk =>
        split at h
        · next words expected rest hw hdrop =>
          cases h
          obtain ⟨hlen, rfl, rest', rfl⟩ := (takeWords_counted_iff (by omega)).1 ⟨hk, hw⟩
          rw [countWord_toNat (by omega), List.drop_left] at hdrop
          exact ⟨words, expected, rest, hlen, by rw [hdrop], rfl⟩
        · cases h
        · cases h
      · cases h
    · cases h
  · rintro ⟨words, expected, rest, hlen, rfl, rfl⟩
    obtain ⟨hk, hw⟩ := (takeWords_counted_iff (bound := 6) (by omega)).2 ⟨hlen, rfl, expected :: rest, rfl⟩
    have hdrop : (words ++ expected :: rest).drop (countWord words.length).toNat = expected :: rest := by
      rw [countWord_toNat (by omega), List.drop_left]
    simp only [decodeCrcVerify, if_pos hk, hw, hdrop]

/-- Every word list with the nine operands of `COMPOSE` in their widths decodes, and no other (R91, R110). -/
theorem decodeCompose_eq_ok_iff {ops : List Word} {i : Instr} :
    decodeCompose ops = .ok i ↔
      ∃ (cmd : Command) (madd : BitVec 1) (ra : Addr) (reg : Word) (length : BitVec 2) (values : Quad)
        (rest : List Word),
        ops = cmd.code.setWidth 16 :: madd.setWidth 16 :: ra.setWidth 16 :: reg :: length.setWidth 16 ::
          values.w0 :: values.w1 :: values.w2 :: values.w3 :: rest ∧
        i = .compose cmd madd ra reg length values := by
  constructor
  · intro h
    unfold decodeCompose at h
    split at h
    · next cmdW maddW raW reg lengthW v0 v1 v2 v3 rest =>
      split at h
      · next cmd madd ra length hcmd hmadd hra hlength =>
        cases h
        rw [narrow_eq_ok_iff (by omega)] at hcmd hmadd hra hlength
        exact ⟨commandOfCode cmd, madd, ra, reg, length, ⟨v0, v1, v2, v3⟩, rest,
          by rw [code_commandOfCode, hcmd, hmadd, hra, hlength], rfl⟩
      · cases h
    · cases h
  · rintro ⟨cmd, madd, ra, reg, length, values, rest, rfl, rfl⟩
    have hn : ∀ {n : Nat} (x : BitVec n), n ≤ 16 → narrow n (x.setWidth 16) = .ok x :=
      fun x hx => (narrow_eq_ok_iff hx).2 rfl
    simp only [decodeCompose, hn cmd.code (by omega), hn madd (by omega), hn ra (by omega), hn length (by omega),
      commandOfCode_code]

theorem withAddr_eq_ok_iff {w : Word} {build : Addr → Instr} {i : Instr} :
    withAddr w build = .ok i ↔ ∃ ra : Addr, w = ra.setWidth 16 ∧ i = build ra := by
  unfold withAddr
  constructor
  · intro h
    split at h
    · next ra hra =>
      cases h
      exact ⟨ra, (narrow_eq_ok_iff (by omega)).1 hra, rfl⟩
    · cases h
  · rintro ⟨ra, rfl, rfl⟩
    rw [(narrow_eq_ok_iff (by omega)).2 rfl]

end Sys2Proof.Proofs

namespace Sys2Proof.Proofs

open Machine

/-! ## Requests -/

/-- The reserved codes, each beside its instruction (R92). -/
def reservedRows : List (BitVec 4 × (BitVec 12 → Instr)) :=
  [(0, .reserved0), (12, .reservedC), (13, .reservedD), (14, .reservedE), (15, .reservedF)]

/-- A property of every reserved row, row by row. -/
theorem forall_reservedRows {p : BitVec 4 → (BitVec 12 → Instr) → Prop} :
    (∀ row ∈ reservedRows, p row.1 row.2) ↔
      p 0 .reserved0 ∧ p 12 .reservedC ∧ p 13 .reservedD ∧ p 14 .reservedE ∧ p 15 .reservedF := by
  simp [reservedRows]

/-- A reserved code decodes to its instruction, whatever the low bits and the words after it (R92). -/
theorem decodeRequest_reserved (low : BitVec 12) (ops : List Word) :
    ∀ row ∈ reservedRows, decodeRequest (reservedWord row.1 low :: ops) = .ok (row.2 low) := by
  rw [forall_reservedRows (p := fun c build => decodeRequest (reservedWord c low :: ops) = .ok (build low))]
  simp [decodeRequest]

theorem encode_reserved (low : BitVec 12) : ∀ row ∈ reservedRows, encode (row.2 low) = [reservedWord row.1 low] :=
  forall_reservedRows (p := fun c build => encode (build low) = [reservedWord c low]) |>.2 ⟨rfl, rfl, rfl, rfl, rfl⟩

theorem reserved_wf_format (low : BitVec 12) :
    ∀ row ∈ reservedRows, (row.2 low).wf = true ∧ (row.2 low).format = .req :=
  forall_reservedRows (p := fun _ build => (build low).wf = true ∧ (build low).format = .req) |>.2
    ⟨⟨rfl, rfl⟩, ⟨rfl, rfl⟩, ⟨rfl, rfl⟩, ⟨rfl, rfl⟩, ⟨rfl, rfl⟩⟩

/-- The code of any other first word decides between `Q[11:0] ≠ 0` and the operands (R90). -/
theorem decodeRequest_operation {q : Word} (ops : List Word) (h1 : 1 ≤ q.toNat / 4096) (h11 : q.toNat / 4096 ≤ 11) :
    decodeRequest (q :: ops) =
      if q.extractLsb' 0 12 = 0 then decodeOperands (q.toNat / 4096) ops else .error .opcodeLowBits := by
  rw [decodeRequest, opcode_toNat]
  generalize q.toNat / 4096 = n at *
  split
  all_goals first | omega | rfl

/-- A word with a reserved code (R92). -/
theorem reservedWord_of_code {q : Word} (h : q.toNat / 4096 = 0 ∨ 12 ≤ q.toNat / 4096) :
    ∃ row ∈ reservedRows, q = reservedWord row.1 (q.extractLsb' 0 12) := by
  have hcode : ∀ c : BitVec 4, c.toNat = 0 ∨ 12 ≤ c.toNat → ∃ row ∈ reservedRows, row.1 = c := by decide
  rw [← opcode_toNat] at h
  obtain ⟨row, hrow, hc⟩ := hcode _ h
  exact ⟨row, hrow, by rw [hc]; exact word_eq_reservedWord q⟩

theorem decodeRequest_opcodeWord {n : Nat} (h1 : 1 ≤ n) (h11 : n ≤ 11) (ops : List Word) :
    decodeRequest (opcodeWord (BitVec.ofNat 4 n) :: ops) = decodeOperands n ops := by
  have hn : (opcodeWord (BitVec.ofNat 4 n)).toNat / 4096 = n := by
    rw [opcodeWord_toNat, BitVec.toNat_ofNat]; omega
  rw [decodeRequest_operation ops (by omega) (by omega), hn, opcodeWord_eq, reservedWord_low, if_pos rfl]

/-- What decodes as a request has a reserved code, or one of the codes 0x1 to 0xB with low bits 0 and its operands. -/
theorem decodeRequest_cases {words : List Word} {i : Instr} (h : decodeRequest words = .ok i) :
    (∃ row ∈ reservedRows, ∃ low ops, words = reservedWord row.1 low :: ops ∧ i = row.2 low) ∨
    (∃ n ops, 1 ≤ n ∧ n ≤ 11 ∧ words = opcodeWord (BitVec.ofNat 4 n) :: ops ∧ decodeOperands n ops = .ok i) := by
  cases words with
  | nil => cases h
  | cons q ops =>
    by_cases hq : 1 ≤ q.toNat / 4096 ∧ q.toNat / 4096 ≤ 11
    · obtain ⟨h1, h11⟩ := hq
      rw [decodeRequest_operation ops h1 h11] at h
      split at h
      · next hlow =>
        refine .inr ⟨_, ops, h1, h11, ?_, h⟩
        rw [← opcode_toNat, BitVec.ofNat_toNat, BitVec.setWidth_eq, opcodeWord_eq, ← hlow, ← word_eq_reservedWord q]
      · cases h
    · obtain ⟨row, hrow, e⟩ := reservedWord_of_code (q := q) (by omega)
      rw [e, decodeRequest_reserved _ _ row hrow] at h
      cases h
      exact .inl ⟨row, hrow, _, ops, congrArg (· :: ops) e, rfl⟩

/-- The words after the opcode word start with the operands of the instruction they decode to, in their ranges. -/
theorem decodeOperands_ok {n : Nat} {ops : List Word} {i : Instr} (h : decodeOperands n ops = .ok i) :
    encode i <+: opcodeWord (BitVec.ofNat 4 n) :: ops ∧ i.wf = true ∧ i.format = .req := by
  unfold decodeOperands at h
  split at h
  · obtain ⟨words, rest, hlen, rfl, rfl⟩ := decodeCrcCompute_eq_ok_iff.1 h
    exact ⟨⟨rest, rfl⟩, wf_crcCompute.2 hlen, rfl⟩
  · obtain ⟨words, expected, rest, hlen, rfl, rfl⟩ := decodeCrcVerify_eq_ok_iff.1 h
    exact ⟨⟨rest, by simp [encode]⟩, wf_crcVerify.2 hlen, rfl⟩
  · obtain ⟨cmd, madd, ra, reg, length, values, rest, rfl, rfl⟩ := decodeCompose_eq_ok_iff.1 h
    exact ⟨⟨rest, rfl⟩, rfl, rfl⟩
  · obtain ⟨words, rest, hlen, rfl, rfl⟩ := decodeDecompose_eq_ok_iff.1 h
    exact ⟨⟨rest, rfl⟩, wf_decompose.2 hlen, rfl⟩
  case h_11 => cases h; exact ⟨⟨_, rfl⟩, rfl, rfl⟩
  case h_12 => cases h
  all_goals
    obtain ⟨ra, rfl, rfl⟩ := withAddr_eq_ok_iff.1 h
    exact ⟨⟨_, rfl⟩, rfl, rfl⟩

/-- The encoding of a well-formed request, with any words after it, decodes to it (R90 to R92). -/
theorem decodeRequest_encode_append {i : Instr} (hwf : i.wf = true) (hf : i.format = .req) (rest : List Word) :
    decodeRequest (encode i ++ rest) = .ok i := by
  have haddr : ∀ (ra : Addr) build, withAddr (ra.setWidth 16) build = .ok (build ra) :=
    fun ra build => withAddr_eq_ok_iff.2 ⟨ra, rfl, rfl⟩
  have hop : ∀ {n ops}, 1 ≤ n → n ≤ 11 → decodeOperands n ops = .ok i →
      decodeRequest (opcodeWord (BitVec.ofNat 4 n) :: ops) = .ok i :=
    fun h1 h11 h => (decodeRequest_opcodeWord h1 h11 _).trans h
  cases i with
  | crcCompute words =>
    exact hop (n := 1) (by omega) (by omega)
      (decodeCrcCompute_eq_ok_iff.2 ⟨words, rest, wf_crcCompute.1 hwf, rfl, rfl⟩)
  | crcVerify words expected =>
    have hwords : words ++ [expected] ++ rest = words ++ expected :: rest := List.append_assoc ..
    exact hop (n := 2) (by omega) (by omega)
      (decodeCrcVerify_eq_ok_iff.2 ⟨words, expected, rest, wf_crcVerify.1 hwf, congrArg (_ :: ·) hwords, rfl⟩)
  | compose cmd madd ra reg length values =>
    exact hop (n := 3) (by omega) (by omega)
      (decodeCompose_eq_ok_iff.2 ⟨cmd, madd, ra, reg, length, values, rest, rfl, rfl⟩)
  | decompose words =>
    exact hop (n := 4) (by omega) (by omega)
      (decodeDecompose_eq_ok_iff.2 ⟨words, rest, wf_decompose.1 hwf, rfl, rfl⟩)
  | ctrExpected ra => exact hop (n := 5) (by omega) (by omega) (haddr ra .ctrExpected)
  | ctrAdvance ra => exact hop (n := 6) (by omega) (by omega) (haddr ra .ctrAdvance)
  | ctrReset ra stringId => exact hop (n := 7) (by omega) (by omega) (haddr ra (.ctrReset · stringId))
  | write ra reg value => exact hop (n := 8) (by omega) (by omega) (haddr ra (.write · reg value))
  | read ra reg => exact hop (n := 9) (by omega) (by omega) (haddr ra (.read · reg))
  | readMultiple ra itemCount ipf reg =>
    exact hop (n := 10) (by omega) (by omega) (haddr ra (.readMultiple · itemCount ipf reg))
  | enumerate => exact hop (n := 11) (by omega) (by omega) rfl
  | reserved0 low => exact decodeRequest_reserved low rest (0, .reserved0) (by simp [reservedRows])
  | reservedC low => exact decodeRequest_reserved low rest (12, .reservedC) (by simp [reservedRows])
  | reservedD low => exact decodeRequest_reserved low rest (13, .reservedD) (by simp [reservedRows])
  | reservedE low => exact decodeRequest_reserved low rest (14, .reservedE) (by simp [reservedRows])
  | reservedF low => exact decodeRequest_reserved low rest (15, .reservedF) (by simp [reservedRows])
  | _ => cases hf

/-- The decoder of requests accepts exactly the encodings of well-formed requests, with any words after them (R90 to R92, and
entry 9 for the words that are not read). -/
theorem decodeRequest_eq_ok_iff {words : List Word} {i : Instr} :
    decodeRequest words = .ok i ↔ encode i <+: words ∧ i.wf = true ∧ i.format = .req := by
  constructor
  · intro h
    rcases decodeRequest_cases h with ⟨row, hrow, low, ops, rfl, rfl⟩ | ⟨n, ops, -, -, rfl, hops⟩
    · obtain ⟨hwf, hf⟩ := reserved_wf_format low row hrow
      exact ⟨⟨ops, by rw [encode_reserved low row hrow]; rfl⟩, hwf, hf⟩
    · exact decodeOperands_ok hops
  · rintro ⟨⟨rest, rfl⟩, hwf, hf⟩
    exact decodeRequest_encode_append hwf hf rest

/-! ## Received messages -/

/-- The decoder of received messages accepts exactly the encodings of the message rows (R70 to R74). -/
theorem decodeReceived_eq_ok_iff {words : List Word} {i : Instr} :
    decodeReceived words = .ok i ↔ encode i = words ∧ i.format = .msgHdr := by
  constructor
  · intro h
    cases words with
    | nil => cases h
    | cons w body =>
      have hw := pack_fields w
      rw [decodeReceived] at h
      cases hc : headerCommand w <;> rw [hc] at h hw <;> cases h <;> exact ⟨congrArg (· :: body) hw, rfl⟩
  · rintro ⟨rfl, hf⟩
    cases i with
    | msgNop madd ra cnt dl body => simp [encode, decodeReceived]
    | msgRead madd ra cnt dl body => simp [encode, decodeReceived]
    | msgWrite madd ra cnt dl body => simp [encode, decodeReceived]
    | msgResponse madd ra cnt dl body => simp [encode, decodeReceived]
    | _ => cases hf

/-- Settles O2: each decoder accepts the encodings of its own format. -/
theorem decodeEncodeAgree : Obligations.DecodeEncodeAgree := by
  intro i hwf
  cases hf : i.format with
  | req => exact decodeRequest_eq_ok_iff.2 ⟨⟨[], List.append_nil _⟩, hwf, hf⟩
  | msgHdr => exact decodeReceived_eq_ok_iff.2 ⟨rfl, hf⟩

/-- Settles O3: each decoder accepts nothing else. -/
theorem encodingUnique : Obligations.EncodingUnique :=
  ⟨fun _ _ h => decodeRequest_eq_ok_iff.1 h, fun _ _ h => decodeReceived_eq_ok_iff.1 h⟩

/-- Settles O4: the decoder is evaluated on each word list. -/
theorem sampleWordsDecode : Obligations.SampleWordsDecode := by
  unfold Obligations.SampleWordsDecode
  decide

end Sys2Proof.Proofs

namespace Sys2Proof.Proofs

open Machine

/-! ## Requests taken and refused -/

/-- With no other agent moving in Ready, a request that decodes is run as its instruction. -/
theorem step_of_decode_ok {s : State} {r : Request} {i : Instr} (hf : s.fault = none) (hm : s.moves = [])
    (ho : s.opState = .ready) (hp : s.port = some r) (hd : decode r.format r.words = .ok i) :
    step s = exec i (takeRequest r s) := by
  rw [step_request hm hf ho hp]
  rcases runRequest_cases r s with ⟨i', hi, e⟩ | ⟨err, he, -⟩
  · cases hd.symm.trans hi; exact e
  · cases hd.symm.trans he

/-- With no other agent moving in Ready, a request that does not decode is refused. -/
theorem step_of_decode_error {s : State} {r : Request} {err : DecodeError} (hf : s.fault = none) (hm : s.moves = [])
    (ho : s.opState = .ready) (hp : s.port = some r) (hd : decode r.format r.words = .error err) :
    step s = .next (raiseFault .illegalOperation (takeRequest r s)) := by
  rw [step_request hm hf ho hp]
  rcases runRequest_cases r s with ⟨i, hi, -⟩ | ⟨-, -, e⟩
  · cases hd.symm.trans hi
  · exact e

/-- Settles O5: taking the request off the port is the written-out update. -/
theorem stepRunsTheDecodedInstruction : Obligations.StepRunsTheDecodedInstruction :=
  fun _ _ _ hf hm ho hp hd => step_of_decode_ok hf hm ho hp hd

/-- A reserved instruction raises the fault and does nothing else (R92). -/
theorem exec_reserved (low : BitVec 12) (s : State) :
    ∀ row ∈ reservedRows, exec (row.2 low) s = .next (raiseFault .illegalOperation s) :=
  forall_reservedRows (p := fun _ build => exec (build low) s = .next (raiseFault .illegalOperation s)) |>.2
    ⟨rfl, rfl, rfl, rfl, rfl⟩

/-- Settles O6: a reserved code decodes to its reserved instruction, which only raises the fault. -/
theorem reservedCodesRefused : Obligations.ReservedCodesRefused := by
  refine ⟨fun s o q ops hf hm ho hp hq => ?_, fun s low => ?_⟩
  · obtain ⟨row, hrow, e⟩ := reservedWord_of_code hq
    have hd : decodeRequest (q :: ops) = .ok (row.2 (q.extractLsb' 0 12)) := by
      conv_lhs => rw [e]
      exact decodeRequest_reserved _ ops row hrow
    exact (step_of_decode_ok hf hm ho hp hd).trans (exec_reserved _ _ row hrow)
  · exact (forall_reservedRows (p := fun _ build => exec (build low) s = .next (raiseFault .illegalOperation s))).1
      (exec_reserved low s)

/-- An internal operation from a caller is refused (R93). -/
theorem exec_internal_caller {i : Instr} {s : State} (hi : internalOp i = true) (ho : s.origin = .caller) :
    exec i s = .next (raiseFault .illegalOperation s) := by
  cases i with
  | crcCompute | crcVerify | compose | decompose | ctrExpected | ctrAdvance =>
    exact congrArg Host.Outcome.next (internalOnly_caller _ ho)
  | _ => cases hi

/-- A counter reset for a foreign string is refused (R93, R132). -/
theorem exec_ctrReset_foreign {s : State} (ra : Addr) {stringId : Word} (h : stringId.toNat ≠ s.string) :
    exec (.ctrReset ra stringId) s = .next (raiseFault .illegalOperation s) :=
  congrArg Host.Outcome.next (if_neg h)

/-- Settles O8: the six internal operations share the check of R93; the string id is the check of R132. -/
theorem forbiddenRequestsRefused : Obligations.ForbiddenRequestsRefused :=
  ⟨fun _ _ hi ho => exec_internal_caller hi ho, fun _ ra _ h => exec_ctrReset_foreign ra h⟩

/-! ## Operand ranges -/

/-- An operand of `n` bits in its word is below `2 ^ n` (R91). -/
theorem operand_lt {n : Nat} (hn : n ≤ 16) (x : BitVec n) : (x.setWidth 16).toNat < 2 ^ n := by
  rw [BitVec.toNat_setWidth_of_le hn]; exact x.isLt

/-- Operand words that break a range of code `n`: the word count of a list, or the width of a narrow operand (R91, R102,
R103). -/
def operandsBroken (n : Nat) (ops : List Word) : Prop :=
  (n ≤ 2 ∧ 6 < (ops.getD 0 0).toNat) ∨
    (n = 3 ∧ (3 < (ops.getD 0 0).toNat ∨ 1 < (ops.getD 1 0).toNat ∨ 127 < (ops.getD 2 0).toNat ∨
      3 < (ops.getD 4 0).toNat)) ∨
    (n = 4 ∧ 7 < (ops.getD 0 0).toNat) ∨
    (5 ≤ n ∧ n ≤ 10 ∧ 127 < (ops.getD 0 0).toNat)

/-- What decodes has its operands in their ranges. -/
theorem not_operandsBroken_of_decodeOperands {n : Nat} {ops : List Word} {i : Instr}
    (h : decodeOperands n ops = .ok i) : ¬operandsBroken n ops := by
  unfold decodeOperands at h
  split at h
  · obtain ⟨words, rest, hlen, rfl, -⟩ := decodeCrcCompute_eq_ok_iff.1 h
    have := countWord_toNat (n := words.length) (by omega)
    simp [operandsBroken]; omega
  · obtain ⟨words, expected, rest, hlen, rfl, -⟩ := decodeCrcVerify_eq_ok_iff.1 h
    have := countWord_toNat (n := words.length) (by omega)
    simp [operandsBroken]; omega
  · obtain ⟨cmd, madd, ra, reg, length, values, rest, rfl, -⟩ := decodeCompose_eq_ok_iff.1 h
    have hcmd := operand_lt (by omega) cmd.code
    have hmadd := operand_lt (by omega) madd
    have hra := operand_lt (by omega) ra
    have hlength := operand_lt (by omega) length
    simp [operandsBroken] at *; omega
  · obtain ⟨words, rest, hlen, rfl, -⟩ := decodeDecompose_eq_ok_iff.1 h
    have := countWord_toNat (n := words.length) (by omega)
    simp [operandsBroken]; omega
  case h_11 => simp [operandsBroken]
  case h_12 => cases h
  all_goals
    obtain ⟨ra, rfl, -⟩ := withAddr_eq_ok_iff.1 h
    have := operand_lt (by omega) ra
    simp [operandsBroken] at *; omega

/-- Low bits of the opcode word, or operands out of their ranges, do not decode (R90, R91). -/
theorem decodeRequest_error {q : Word} {ops : List Word} (h1 : 1 ≤ q.toNat / 4096) (h11 : q.toNat / 4096 ≤ 11)
    (h : q.toNat % 4096 ≠ 0 ∨ operandsBroken (q.toNat / 4096) ops) : ∃ e, decodeRequest (q :: ops) = .error e := by
  rw [decodeRequest_operation ops h1 h11]
  split
  · next hlow =>
    have hq : q.toNat % 4096 = 0 := by rw [← lowBits_toNat, hlow]; rfl
    have hbroken := h.resolve_left (not_not_intro hq)
    cases hd : decodeOperands (q.toNat / 4096) ops with
    | error e => exact ⟨e, rfl⟩
    | ok i => exact absurd hbroken (not_operandsBroken_of_decodeOperands hd)
  · exact ⟨_, rfl⟩

/-- Settles O7: what does not decode is refused, and operands out of their ranges do not decode. -/
theorem malformedRequestsRefused : Obligations.MalformedRequestsRefused :=
  ⟨fun _ _ _ hf hm ho hp hd => step_of_decode_error hf hm ho hp hd,
    fun _ _ h1 h11 h => decodeRequest_error h1 h11 h⟩

/-! ## The port -/

/-- A move of another agent puts a request on a free port alone (R90). -/
theorem agentMove_port {P : Params} {m : Move} {s t : State} {r : Request} (h : agentMove P m s = some t)
    (hp : s.port = some r) : t.port = some r := by
  rcases agentMove_cases h with ⟨r', -, hfree, -⟩ | ⟨a, op, c, n, -, -, rfl⟩ | ⟨tr, ws, -, -, rfl⟩ |
    ⟨op, c, -, -, -, rfl⟩
  · cases hp.symm.trans hfree
  · cases a <;> exact hp
  · rw [completion_eq]
    cases tr.kind <;> exact hp
  · cases c <;> exact hp

/-- Settles O9: only a request taken in Ready, or a reset, writes a port that holds a request. -/
theorem portHoldsTheRequest : Obligations.PortHoldsTheRequest := by
  intro s s' r hready hp hreset h
  rcases step_cases h with ⟨rest, hm, -⟩ | ⟨-, ms, -, rfl | ⟨r', ho, -, -⟩ | he | ⟨m, -, ha⟩⟩
  · exact absurd hm (hreset rest)
  · exact hp
  · exact absurd ho hready
  · obtain ⟨-, hport, -⟩ := engineStep_keeps he
    exact hport.trans hp
  · exact agentMove_port ha hp

end Sys2Proof.Proofs

namespace Sys2Proof.Proofs

open Machine

/-! ## Checksum operations -/

/-- `CRC_COMPUTE` for a test harness (R102). -/
theorem exec_crcCompute_harness {s : State} (words : List Word) (ho : s.origin = .harness) :
    exec (.crcCompute words) s = .next (if words.length ≤ 6 then respond (.checksum (Config.params.crc words)) s
      else raiseFault .illegalOperation s) :=
  congrArg Host.Outcome.next (internalOnly_harness _ ho)

/-- `CRC_VERIFY` for a test harness (R103). -/
theorem exec_crcVerify_harness {s : State} (words : List Word) (expected : Word) (ho : s.origin = .harness) :
    exec (.crcVerify words expected) s =
      .next (if words.length ≤ 6 then respond (.verified (Config.params.crc words == expected)) s
        else raiseFault .illegalOperation s) :=
  congrArg Host.Outcome.next (internalOnly_harness _ ho)

/-- Settles O10: each operation branches on the word count alone, and the comparison is equality of the words. -/
theorem checksumOperations : Obligations.ChecksumOperations := by
  intro s words expected ho
  rw [exec_crcCompute_harness words ho, exec_crcVerify_harness words expected ho]
  refine ⟨fun hfit => ?_, fun hlong => ?_⟩
  · simp only [if_pos hfit]
    exact ⟨rfl, _, beq_iff_eq, rfl⟩
  · simp only [if_neg (Nat.not_le.2 hlong)]
    exact ⟨rfl, rfl⟩

end Sys2Proof.Proofs

namespace Sys2Proof.Proofs

open Machine

/-! ## The words of a composed message -/

section Composed

variable (P : Params) (cmd : Command) (madd : BitVec 1) (ra : Addr) (reg : Word) (length : BitVec 2) (values : Quad)

theorem composePayload_length : (composePayload length.toNat values).length = length.toNat + 1 := by
  have := length.isLt
  simp [composePayload, quadWords]; omega

/-- The payload words sent are the first `length + 1` values (R110). -/
theorem composePayload_getElem? {i : Nat} (hi : i ≤ length.toNat) :
    (composePayload length.toNat values)[i]? = (quadWords values)[i]? :=
  List.getElem?_take_of_lt (by omega)

theorem composeBody_length : (composeBody cmd madd ra reg length values).length = length.toNat + 3 := by
  simp [composeBody, composePayload_length]

/-- A composed message is header, sub-header, payload and checksum (R71, R110). -/
theorem composeWords_eq :
    composeWords P cmd madd ra reg length values =
      pack cmd madd ra 0 length :: reg ::
        (composePayload length.toNat values ++ [P.crc (composeBody cmd madd ra reg length values)]) := rfl

theorem composeWords_length : (composeWords P cmd madd ra reg length values).length = length.toNat + 4 := by
  simp [composeWords_eq, composePayload_length]

theorem composeWords_header :
    (composeWords P cmd madd ra reg length values)[0]? = some (pack cmd madd ra 0 length) := rfl

theorem composeWords_reg : (composeWords P cmd madd ra reg length values)[1]? = some reg := rfl

theorem composeWords_payload {i : Nat} (hi : i ≤ length.toNat) :
    (composeWords P cmd madd ra reg length values)[i + 2]? = (quadWords values)[i]? := by
  have hlt : i < (composePayload length.toNat values).length := by rw [composePayload_length]; omega
  rw [composeWords_eq, List.getElem?_cons_succ, List.getElem?_cons_succ, List.getElem?_append_left hlt,
    composePayload_getElem? length values hi]

/-- The words before the checksum are those it covers (R79, R104). -/
theorem composeWords_take :
    (composeWords P cmd madd ra reg length values).take (length.toNat + 3) =
      composeBody cmd madd ra reg length values :=
  List.take_left' (composeBody_length ..)

theorem composeWords_checksum :
    (composeWords P cmd madd ra reg length values)[length.toNat + 3]? =
      some (P.crc (composeBody cmd madd ra reg length values)) := by
  rw [← composeBody_length cmd madd ra reg length values]
  exact List.getElem?_concat_length

/-- `COMPOSE` for a test harness: operands of the fields' own widths always give a message (R110). -/
theorem exec_compose_harness {s : State} (ho : s.origin = .harness) :
    exec (.compose cmd madd ra reg length values) s =
      .next (respond (.message (composeWords Config.params cmd madd ra reg length values)) s) := by
  refine congrArg Host.Outcome.next ((internalOnly_harness _ ho).trans ?_)
  rw [composeOp, compose_fields]

end Composed

/-- Settles O11: the words are read off the form of a composed message. -/
theorem composedMessage : Obligations.ComposedMessage := by
  intro s cmd madd ra reg length values ho
  refine ⟨composeWords Config.params cmd madd ra reg length values, exec_compose_harness _ _ _ _ _ _ ho,
    composeWords_length .., composeWords_header .., composeWords_reg ..,
    fun _ hi => composeWords_payload _ _ _ _ _ _ _ hi, ?_⟩
  rw [composeWords_take]
  exact composeWords_checksum ..

/-- Settles O12: a message that compose gives begins with a header packed with counter 0. -/
theorem composedCounterIsZero : Obligations.ComposedCounterIsZero := by
  intro P cmd madd ra reg length values m h
  obtain ⟨-, -, -, -, -, rfl⟩ := compose_ok h
  exact headerCounter_pack ..

/-! ## Operands that do not fit -/

/-- Compose refuses exactly the operands that do not fit their fields (R111). -/
theorem compose_error_iff {P : Params} {cmd madd ra reg length : Nat} {values : Quad} :
    compose P cmd madd ra reg length values = .error .programmingError ↔
      3 < length ∨ 127 < ra ∨ 1 < madd ∨ 3 < cmd ∨ 0xFFFF < reg := by
  unfold compose
  split
  · next hfit => simp only [reduceCtorEq, false_iff]; omega
  · next hbroken => simp only [true_iff]; omega

/-- A `COMPOSE` request with an operand word outside its range does not decode (R91). -/
theorem decodeRequest_compose_error {cmd madd ra reg length : Word} {rest : List Word}
    (h : 3 < length.toNat ∨ 127 < ra.toNat ∨ 1 < madd.toNat ∨ 3 < cmd.toNat) :
    ∃ e, decodeRequest (0x3000 :: cmd :: madd :: ra :: reg :: length :: rest) = .error e := by
  have hcode : (0x3000 : Word).toNat / 4096 = 3 := by decide
  refine decodeRequest_error (by omega) (by omega) (.inr (.inr (.inl ⟨hcode, ?_⟩)))
  simp only [List.getD_cons_zero, List.getD_cons_succ]
  omega

/-- Settles O13: the check of R111 is one condition, and the port's decoder checks the operand words before it. -/
theorem composeOperandChecks : Obligations.ComposeOperandChecks := by
  refine ⟨fun P cmd madd ra reg length values => ⟨compose_error_iff.2, compose_error_iff.1⟩, ?_,
    fun P cmd madd ra reg length values => ⟨_, compose_fields P cmd madd ra reg length values⟩⟩
  intro s o cmd madd ra reg length v0 v1 v2 v3 rest hbroken r hf hm ho hp
  obtain ⟨e, he⟩ := decodeRequest_compose_error (reg := reg) (rest := v0 :: v1 :: v2 :: v3 :: rest) hbroken
  exact step_of_decode_error hf hm ho hp he

end Sys2Proof.Proofs

namespace Sys2Proof.Proofs

open Machine

/-! ## The fields of a framed message -/

section Fields

variable (words : List Word)

@[simp] theorem fieldsOf_cmd : (fieldsOf words).cmd = headerCommand (words.getD 0 0) := rfl
@[simp] theorem fieldsOf_madd : (fieldsOf words).madd = headerMaster (words.getD 0 0) := rfl
@[simp] theorem fieldsOf_ra : (fieldsOf words).ra = headerAddr (words.getD 0 0) := rfl
@[simp] theorem fieldsOf_cnt : (fieldsOf words).cnt = headerCounter (words.getD 0 0) := rfl
@[simp] theorem fieldsOf_dl : (fieldsOf words).dl = headerDataLength (words.getD 0 0) := rfl
@[simp] theorem fieldsOf_reg : (fieldsOf words).reg = words.getD 1 0 := rfl

theorem payloadCount_val (dl : BitVec 2) (n : Nat) : (payloadCount dl n).val = min (dl.toNat + 1) (n - 3) := by
  have := dl.isLt
  exact Nat.mod_eq_of_lt (by omega)

/-- The number of payload words extracted (R75, R115). -/
theorem fieldsOf_n :
    (fieldsOf words).n.val = min ((headerDataLength (words.getD 0 0)).toNat + 1) (words.length - 3) :=
  payloadCount_val ..

/-- A quad made from a list holds its first four words, and 0 where the list has none. -/
theorem quadWords_quadOf_getElem? {i : Nat} (hi : i < 4) : (quadWords (quadOf words))[i]? = some (words.getD i 0) := by
  interval_cases i <;> rfl

/-- The payload slots: the words after the sub-header up to the count, then 0 (R115). -/
theorem fieldsOf_payload {i : Nat} (hi : i < 4) :
    (quadWords (fieldsOf words).payload)[i]? =
      some (if i < (fieldsOf words).n.val then words.getD (i + 2) 0 else 0) := by
  have hpay : (fieldsOf words).payload = quadOf ((words.drop 2).take (fieldsOf words).n.val) := rfl
  rw [hpay, quadWords_quadOf_getElem? _ hi]
  split
  · next hlt => simp [List.getD_eq_getElem?_getD, List.getElem?_take_of_lt hlt, Nat.add_comm 2 i]
  · next hge => simp [List.getD_eq_getElem?_getD, hge]

theorem checksumOk_iff (P : Params) : checksumOk P words = true ↔ P.crc words.dropLast = words.getLastD 0 :=
  beq_iff_eq

end Fields

/-! ## What a decode does, by the length of its message -/

theorem decodeWords_empty {P : Params} {words : List Word} (s : State) (h : words.length = 0) :
    decodeWords P words s = .ok (forgetDecoded s, .timeout) := by
  rcases decodeWords_cases P words s with ⟨h', -⟩ | ⟨-, e⟩ | ⟨h', -, -⟩ | ⟨h', -, -⟩
  case inr.inl => exact e
  all_goals omega

theorem decodeWords_short {P : Params} {words : List Word} (s : State) (h0 : 0 < words.length) (h : words.length < 4) :
    decodeWords P words s = .ok (forgetDecoded s, .shortMessage) := by
  rcases decodeWords_cases P words s with ⟨h', -⟩ | ⟨h', -⟩ | ⟨-, -, e⟩ | ⟨h', -, -⟩
  case inr.inr.inl => exact e
  all_goals omega

/-- A message of 4 to 7 words: the fields, one advance, and the status against the entry before it (R113 to R116). -/
theorem decodeWords_framed {P : Params} {words : List Word} (s : State) (h4 : 4 ≤ words.length)
    (h7 : words.length ≤ 7) :
    decodeWords P words s =
      .ok (ctrAdvance (fieldsOf words).ra { s with d := fieldsOf words },
        framedStatus P (checksumOk P words) (ctRead (fieldsOf words).ra s) (fieldsOf words)) := by
  rw [← decodeFramed_eq]
  rcases decodeWords_cases P words s with ⟨h', -⟩ | ⟨h', -⟩ | ⟨-, h', -⟩ | ⟨-, -, e⟩
  case inr.inr.inr => exact e
  all_goals omega

theorem decodeWords_overlong {P : Params} {words : List Word} (s : State) (h : 7 < words.length) :
    decodeWords P words s = .error .programmingError := by
  rcases decodeWords_cases P words s with ⟨-, e⟩ | ⟨h', -⟩ | ⟨-, h', -⟩ | ⟨-, h', -⟩
  case inl => exact e
  all_goals omega

/-- A decode that answers a state had at most 7 words (R117). -/
theorem decodeWords_ok_length {P : Params} {words : List Word} {s : State} {r : State × Status}
    (h : decodeWords P words s = .ok r) : words.length ≤ 7 := by
  by_contra hlong
  rw [decodeWords_overlong s (by omega)] at h
  cases h

/-- A framed decode that answers a state answers the fields and one advance. -/
theorem decodeWords_ok_framed {P : Params} {words : List Word} {s t : State} {st : Status} (h4 : 4 ≤ words.length)
    (h : decodeWords P words s = .ok (t, st)) :
    t = ctrAdvance (fieldsOf words).ra { s with d := fieldsOf words } := by
  rw [decodeWords_framed s h4 (decodeWords_ok_length h)] at h
  cases h; rfl

/-! ## The status of a decode -/

/-- Each status of a framed decode with the condition that the order of R114 gives it. -/
theorem framedStatus_iff (P : Params) (crcOk : Bool) (expected : Counter) (d : Decoded) :
    let st := framedStatus P crcOk expected d
    (st = .wrongCrc ↔ ¬crcOk = true) ∧
      (st = .wrongMessageCount ↔ crcOk = true ∧ ¬d.cnt = expected) ∧
      (st = .noAccess ↔ crcOk = true ∧ d.cnt = expected ∧ d.reg = P.errorRegAddr) ∧
      (st = .noResponse ↔ crcOk = true ∧ d.cnt = expected ∧ ¬d.reg = P.errorRegAddr ∧ ¬d.cmd = .response) ∧
      (st = .ok ↔ crcOk = true ∧ d.cnt = expected ∧ ¬d.reg = P.errorRegAddr ∧ d.cmd = .response) := by
  unfold framedStatus
  by_cases hcrc : crcOk = true
  · by_cases hcnt : d.cnt = expected
    · by_cases hreg : d.reg = P.errorRegAddr
      · simp [hcrc, hcnt, hreg]
      · by_cases hcmd : d.cmd = .response <;> simp [hcrc, hcnt, hreg, hcmd]
    · simp [hcrc, hcnt]
  · simp [hcrc]

/-- A framed decode reports neither of the statuses of a shorter message (R114). -/
theorem framedStatus_ne (P : Params) (crcOk : Bool) (expected : Counter) (d : Decoded) :
    framedStatus P crcOk expected d ≠ .timeout ∧ framedStatus P crcOk expected d ≠ .shortMessage := by
  unfold framedStatus
  split_ifs <;> exact ⟨nofun, nofun⟩

/-- Settles O14: by the length of the message, a framed one by the order of its checks. -/
theorem decodeStatusPriority : Obligations.DecodeStatusPriority := by
  intro P words s h7
  by_cases h0 : words.length = 0
  · exact ⟨_, _, decodeWords_empty s h0, iff_of_true rfl h0, iff_of_false nofun fun h => by omega,
      fun h4 => by omega⟩
  by_cases hshort : words.length < 4
  · exact ⟨_, _, decodeWords_short s (by omega) hshort, iff_of_false nofun h0,
      iff_of_true rfl ⟨by omega, hshort⟩, fun h4 => by omega⟩
  obtain ⟨hnt, hns⟩ := framedStatus_ne P (checksumOk P words) (ctRead (fieldsOf words).ra s) (fieldsOf words)
  obtain ⟨hcrc, hcnt, hacc, hresp, hok⟩ :=
    framedStatus_iff P (checksumOk P words) (ctRead (fieldsOf words).ra s) (fieldsOf words)
  rw [checksumOk_iff] at hcrc hcnt hacc hresp hok
  exact ⟨_, _, decodeWords_framed s (by omega) h7, iff_of_false hnt h0, iff_of_false hns fun h => hshort h.2,
    fun _ => ⟨hcrc, hcnt, hacc, hresp, hok, fun _ => ctRead_ctrAdvance_same ..⟩⟩

/-- A frame whose decode is not `Ok` adds no item (R115, R169). -/
theorem frameStep_acc_of_not_ok {P : Params} {s t : State} {st : Status}
    (hd : decodeWords P (frameWords s) s = .ok (t, st)) (hst : st ≠ .ok) : (frameStep P s).rd.acc = s.rd.acc := by
  have ha : answerStatus st t.d s.rd.ra (expectedReg s.rd.reg s.rd.k s.rd.ipf) = st := if_pos hst
  rw [frameStep_fails hd ha hst]

/-- Settles O15: the decoder registers hold the fields of the words, and a frame that fails adds no item. -/
theorem fieldExtraction : Obligations.FieldExtraction := by
  refine ⟨fun P words s t st h4 h => ?_, fun P s t st hd hst => frameStep_acc_of_not_ok hd hst⟩
  have hd : t.d = fieldsOf words := by rw [decodeWords_ok_framed h4 h]; rfl
  rw [hd]
  exact ⟨rfl, rfl, rfl, rfl, rfl, rfl, fieldsOf_n words, fun _ hi => fieldsOf_payload words hi⟩

/-- Settles O16: a framed decode is one advance, a shorter one draws free values. -/
theorem decodeSideEffect : Obligations.DecodeSideEffect := by
  refine fun P words s t st h => ⟨fun h4 => ?_, fun hshort => ?_⟩
  · rw [decodeWords_ok_framed h4 h]
    exact ⟨rfl, ctRead_ctrAdvance_same .., fun a ha => ctRead_ctrAdvance_other ha _⟩
  · by_cases h0 : words.length = 0
    · rw [decodeWords_empty s h0] at h; cases h; rfl
    · rw [decodeWords_short s (by omega) hshort] at h; cases h; rfl

/-! ## Overlong messages -/

/-- An answer frame has at most the width of a frame (R77, R165). -/
theorem frameWords_length_le (s : State) : (frameWords s).length ≤ 3 + s.rd.ipf := by
  simp only [frameWords, rxSlice, List.length_map, List.length_range]
  exact Nat.min_le_left ..

/-- `DECOMPOSE` for a test harness (R113). -/
theorem exec_decompose_harness {s : State} (words : List Word) (ho : s.origin = .harness) :
    exec (.decompose words) s = .next (decomposeOp Config.params words s) :=
  congrArg Host.Outcome.next (internalOnly_harness _ ho)

theorem decomposeOp_overlong {P : Params} {words : List Word} (s : State) (h : 7 < words.length) :
    decomposeOp P words s = raiseFault .programmingError s := by
  rw [decomposeOp, decodeWords_overlong s h]

/-- What `DECOMPOSE` answers is the result of the decode (R113). -/
theorem decomposeOp_of_decode {P : Params} {words : List Word} {s t : State} {st : Status}
    (h : decodeWords P words s = .ok (t, st)) :
    decomposeOp P words s = respond (.decoded (if words.length < 4 then none else some t.d) st) t := by
  rw [decomposeOp, h]; rfl

/-- Settles O17: the first check of a decode, and the width of a frame. -/
theorem overlongMessageFaults : Obligations.OverlongMessageFaults := by
  refine ⟨fun P words s h => decodeWords_overlong s h, fun words s h ho => ?_, fun s hipf => ?_⟩
  · rw [exec_decompose_harness words ho, decomposeOp_overlong s h]; rfl
  · have := frameWords_length_le s
    omega

/-! ## Composing and decoding -/

section RoundTrip

variable (P : Params) (cmd : Command) (madd : BitVec 1) (ra : Addr) (reg : Word) (length : BitVec 2) (values : Quad)

/-- The checksum of a composed message matches (R118). -/
theorem checksumOk_composeWords : checksumOk P (composeWords P cmd madd ra reg length values) = true := by
  simp [checksumOk_iff, composeWords, withChecksum]

/-- The fields of a composed message are those it was composed from, with counter 0 (R112, R118). -/
theorem fieldsOf_composeWords :
    let d := fieldsOf (composeWords P cmd madd ra reg length values)
    d.cmd = cmd ∧ d.madd = madd ∧ d.ra = ra ∧ d.cnt = 0 ∧ d.dl = length ∧ d.reg = reg ∧
      d.n.val = length.toNat + 1 := by
  have hh : (composeWords P cmd madd ra reg length values).getD 0 0 = pack cmd madd ra 0 length := rfl
  simp only [fieldsOf_cmd, fieldsOf_madd, fieldsOf_ra, fieldsOf_cnt, fieldsOf_dl, fieldsOf_n, hh, headerCommand_pack,
    headerMaster_pack, headerAddr_pack, headerCounter_pack, headerDataLength_pack, composeWords_length, true_and]
  exact ⟨rfl, by omega⟩

theorem fieldsOf_composeWords_payload {i : Nat} (hi : i ≤ length.toNat) :
    (quadWords (fieldsOf (composeWords P cmd madd ra reg length values)).payload)[i]? = (quadWords values)[i]? := by
  obtain ⟨-, -, -, -, -, -, hn⟩ := fieldsOf_composeWords P cmd madd ra reg length values
  have hi4 : i < (quadWords values).length := by
    have := length.isLt
    show i < 4
    omega
  rw [fieldsOf_payload _ hi4, if_pos (by omega), List.getD_eq_getElem?_getD,
    composeWords_payload P cmd madd ra reg length values hi, List.getElem?_eq_getElem hi4, Option.getD_some]

/-- The status of decoding a composed message: its checksum is good and its counter 0 (R118). -/
theorem framedStatus_composeWords (expected : Counter) :
    framedStatus P true expected (fieldsOf (composeWords P cmd madd ra reg length values)) =
      if expected ≠ 0 then .wrongMessageCount
      else if reg = P.errorRegAddr then .noAccess
      else if cmd ≠ .response then .noResponse
      else .ok := by
  obtain ⟨hcmd, -, -, hcnt, -, hreg, -⟩ := fieldsOf_composeWords P cmd madd ra reg length values
  rw [framedStatus, hcmd, hcnt, hreg, if_neg (by decide)]
  simp only [ne_comm (a := 0) (b := expected)]

end RoundTrip

/-- Settles O18: the decode of a composed message is framed and reads back its fields. -/
theorem codecRoundTrip : Obligations.CodecRoundTrip := by
  intro P s cmd madd ra reg length values
  have hlen := composeWords_length P cmd madd ra reg length values
  have hlt := length.isLt
  have hdec := decodeWords_framed (P := P) (words := composeWords P cmd madd ra reg length values) s (by omega)
    (by omega)
  obtain ⟨hcmd, hmadd, hra, hcnt, hdl, hreg, hn⟩ := fieldsOf_composeWords P cmd madd ra reg length values
  have hcrc := checksumOk_composeWords P cmd madd ra reg length values
  rw [hcrc, hra] at hdec
  exact ⟨_, _, _, compose_fields P cmd madd ra reg length values, hdec, hcmd, hmadd, hra, hcnt, hdl, hreg, hn,
    fun _ hi => fieldsOf_composeWords_payload P cmd madd ra reg length values hi, hcrc,
    framedStatus_composeWords P cmd madd ra reg length values (ctRead ra s)⟩

/-! ## `DECOMPOSE` and the received messages -/

/-- Settles O19: `DECOMPOSE` is the decode and the return of its result. -/
theorem decomposeCompletes : Obligations.DecomposeCompletes := by
  intro s words ho h7
  rcases decomposeOp_cases Config.params words s with ⟨hlong, -⟩ | ⟨-, t, st, hd, e⟩
  · omega
  · refine ⟨t, _, st, hd, (exec_decompose_harness words ho).trans (congrArg _ e), rfl, ?_⟩
    rw [decodeWords_changes hd]; rfl

/-- A received message of any of the four rows, for a test harness, is the decode of its words (R113, R120 to R123). -/
theorem exec_message_harness {s : State} (madd : BitVec 1) (ra : Addr) (cnt : Counter) (dl : BitVec 2)
    (body : List Word) (ho : s.origin = .harness) :
    ∀ row ∈ messageRows, exec (row.2 madd ra cnt dl body) s =
      .next (decomposeOp Config.params (pack row.1 madd ra cnt dl :: body) s) := by
  have hrun := fun run => congrArg (Host.Outcome.next (φ := Fault) (ρ := Refusal)) (internalOnly_harness run ho)
  simp only [messageRows, List.forall_mem_cons]
  exact ⟨hrun _, hrun _, hrun _, hrun _, nofun⟩

section Received

variable (cmd : Command) (madd : BitVec 1) (ra : Addr) (cnt : Counter) (dl : BitVec 2) (body : List Word)

/-- The fields of a received message are those of its header and of the words after it (R70 to R72, R115). -/
theorem fieldsOf_received :
    let d := fieldsOf (pack cmd madd ra cnt dl :: body)
    d.cmd = cmd ∧ d.madd = madd ∧ d.ra = ra ∧ d.cnt = cnt ∧ d.dl = dl ∧ d.reg = body.getD 0 0 ∧
      d.n.val = min (dl.toNat + 1) (body.length - 2) := by
  simp [fieldsOf_n]

/-- The payload of a received message: the words after its sub-header (R115). -/
theorem fieldsOf_received_payload {i : Nat} (hi : i < 4) :
    let d := fieldsOf (pack cmd madd ra cnt dl :: body)
    (quadWords d.payload)[i]? = some (if i < d.n.val then body.getD (i + 1) 0 else 0) :=
  fieldsOf_payload (pack cmd madd ra cnt dl :: body) hi

/-- The status of a received message: the first condition that holds, in the order of R114. -/
theorem framedStatus_received (P : Params) (expected : Counter) (hbody : body ≠ []) :
    framedStatus P (checksumOk P (pack cmd madd ra cnt dl :: body)) expected
        (fieldsOf (pack cmd madd ra cnt dl :: body)) =
      if P.crc (pack cmd madd ra cnt dl :: body).dropLast ≠ body.getLastD 0 then .wrongCrc
      else if cnt ≠ expected then .wrongMessageCount
      else if body.getD 0 0 = P.errorRegAddr then .noAccess
      else if cmd ≠ .response then .noResponse
      else .ok := by
  obtain ⟨hcmd, -, -, hcnt, -, hreg, -⟩ := fieldsOf_received cmd madd ra cnt dl body
  have hlast : (pack cmd madd ra cnt dl :: body).getLastD 0 = body.getLastD 0 := by
    cases body with
    | nil => exact absurd rfl hbody
    | cons w body => rfl
  rw [framedStatus, hcmd, hcnt, hreg, ← hlast]
  simp only [← checksumOk_iff, ne_eq, Bool.not_eq_true]

end Received

/-- Settles O20: each row is the decode of its words, by their number. -/
theorem receivedMessages : Obligations.ReceivedMessages := by
  intro row hrow s madd ra cnt dl body ho
  rw [exec_message_harness madd ra cnt dl body ho row hrow]
  refine ⟨fun h3 h6 => ?_, fun hshort => ?_, fun hlong => ?_⟩
  · have h4 : 4 ≤ (pack row.1 madd ra cnt dl :: body).length := Nat.succ_le_succ h3
    have hbody : body ≠ [] := List.length_pos_iff.1 (by omega)
    have hd := decodeWords_framed (P := Config.params) s h4 (Nat.succ_le_succ h6)
    obtain ⟨hcmd, hmadd, hra, hcnt, hdl, hreg, hn⟩ := fieldsOf_received row.1 madd ra cnt dl body
    have hst := framedStatus_received row.1 madd ra cnt dl body Config.params (ctRead ra s) hbody
    obtain ⟨-, -, -, -, hok⟩ := framedStatus_iff Config.params
      (checksumOk Config.params (pack row.1 madd ra cnt dl :: body)) (ctRead ra s)
      (fieldsOf (pack row.1 madd ra cnt dl :: body))
    rw [hra] at hd
    rw [decomposeOp_of_decode hd, if_neg (Nat.not_lt.2 h4)]
    refine ⟨_, _, _, hd, rfl, rfl, hcmd, hmadd, hra, hcnt, hdl, hreg, hn,
      fun _ hi => fieldsOf_received_payload row.1 madd ra cnt dl body hi, ctRead_ctrAdvance_same ra _,
      fun a ha => ctRead_ctrAdvance_other ha _, fun h => ?_, hst⟩
    obtain ⟨-, -, -, hresp⟩ := hok.1 h
    exact hcmd.symm.trans hresp
  · have h4 : (pack row.1 madd ra cnt dl :: body).length < 4 := Nat.succ_lt_succ hshort
    have hd := decodeWords_short (P := Config.params) s (by simp) h4
    rw [decomposeOp_of_decode hd, if_pos h4]
    rfl
  · have h7 : 7 < (pack row.1 madd ra cnt dl :: body).length := Nat.succ_lt_succ hlong
    rw [decomposeOp_overlong s h7]; rfl

end Sys2Proof.Proofs

namespace Sys2Proof.Proofs

open Machine

/-! ## The fault of an operation under way -/

/-- The fault that a part of an operation under way may raise is that of a busy bus (R141). -/
def raisesOnlyBusBusy (s t : State) : Prop :=
  t.fault = s.fault ∨ t.fault = some .busBusy

theorem gateClaim_fault (op : Instr) (c : Channel) (n : Nat) (m : List Word) (s : State) :
    raisesOnlyBusBusy s (gateClaim op c n m s) := by
  rcases gateClaim_cases op c n m s with ⟨-, e⟩ | ⟨-, e⟩ <;> rw [e]
  · exact .inl rfl
  · exact .inr rfl

theorem writeBegin_fault (P : Params) (op : Instr) (ra : Addr) (reg value : Word) (s : State) :
    raisesOnlyBusBusy s (writeBegin P op ra reg value s) := by
  rw [writeBegin_eq]; exact gateClaim_fault ..

/-- A read inside the caps is not refused by the check (R161). -/
theorem readBegin_fault {P : Params} {n ipf : Nat} (hc : readCheck P n ipf = none) (op : Instr) (ra : Addr) (reg : Word)
    (s : State) : raisesOnlyBusBusy s (readBegin P op ra n ipf reg s) := by
  rw [readBegin_eq, hc]
  exact gateClaim_fault _ _ _ _ { s with rd := readLatch ra n ipf reg s.rd }

/-- The reads that enumeration issues are inside the caps (R161, R181). -/
theorem phaseStep_fault (op : Instr) (s : State) : raisesOnlyBusBusy s (phaseStep Config.params op s) := by
  cases hph : s.phase <;> rw [phaseStep_eq Config.params op hph]
  case idle => exact .inl rfl
  case sleep => exact writeBegin_fault ..
  case assign => exact writeBegin_fault ..
  case config => exact writeBegin_fault ..
  case probe1 => exact readBegin_fault readCheck_single ..
  case probe2 => exact readBegin_fault readCheck_single ..
  case verify => exact readBegin_fault readCheck_single ..
  case uid => exact readBegin_fault readCheck_uid ..
  case wake => exact .inl rfl
  case done => exact .inl rfl

theorem waitDone_fault (op : Instr) (c : Channel) (r : Nat) (s : State) : (waitDone op c r s).fault = s.fault := by
  cases c <;> rfl

theorem writeReturns_fault (P : Params) (op : Instr) (s : State) : (writeReturns P op s).fault = s.fault := by
  rcases writeReturns_cases P op s with ⟨-, e⟩ | ⟨-, e⟩ | ⟨-, e⟩ <;> rw [e]
  · rfl
  · rcases phaseWritten_cases P .enumerate s with ⟨-, e⟩ | ⟨-, e⟩ | ⟨-, e⟩ | ⟨-, e⟩ <;> rw [e] <;> rfl

theorem readReturns_fault (P : Params) (op : Instr) (s : State) : (readReturns P op s).fault = s.fault := by
  rcases readReturns_cases P op s with ⟨-, e⟩ | ⟨-, e⟩ | ⟨-, e⟩ | ⟨-, e⟩ <;> rw [e]
  · rfl
  · rfl
  · rw [phaseRead_changes]; rfl

/-- No answer frame of a read inside the caps is too long to decode (R117). -/
theorem frameStep_fault {P : Params} {s : State} (hipf : s.rd.ipf ≤ 4) : (frameStep P s).fault = s.fault := by
  rcases frameStep_cases P s with ⟨hlong, -⟩ | ⟨t, sd, hd, ⟨-, e⟩ | ⟨st, -, -, e⟩⟩
  · have := frameWords_length_le s
    omega
  all_goals rw [e, decodeWords_changes hd]

/-- The engine inside an operation whose read is inside the caps raises no fault but that of a busy bus. -/
theorem engineStep_fault {s t : State} (hr : readRegsWf Config.params s = true)
    (h : engineStep Config.params s = some t) : raisesOnlyBusBusy s t := by
  rcases engineStep_cases h with ⟨op, c, r, -, -, rfl⟩ | ⟨op, -, rfl⟩ | ⟨op, -, rfl⟩ | ⟨op, -, rfl⟩ |
    ⟨op, -, -, rfl⟩ | ⟨op, ho, -, rfl⟩
  · exact .inl (waitDone_fault ..)
  · exact phaseStep_fault op s
  · exact .inl (writeReturns_fault ..)
  · exact .inl rfl
  · exact .inl (readReturns_fault ..)
  · obtain ⟨hlatch, -⟩ := (readRegsWf_frames ho).1 hr
    obtain ⟨-, hipf, -⟩ := readCheck_none.1 (latchWf_iff.1 hlatch).1
    exact .inl (frameStep_fault hipf)

/-- The fault that another agent's move may raise is that of a rejected transfer (R142). -/
theorem agentMove_fault {P : Params} {m : Move} {s t : State} (h : agentMove P m s = some t) :
    t.fault = s.fault ∨ t.fault = some .transferRejected := by
  rcases agentMove_cases h with ⟨r, -, -, rfl⟩ | ⟨a, op, c, n, -, -, rfl⟩ | ⟨tr, ws, -, -, rfl⟩ |
    ⟨op, c, -, -, -, rfl⟩
  · exact .inl rfl
  · cases a
    · exact .inl rfl
    · exact .inr rfl
  · rw [completion_eq]
    cases tr.kind <;> exact .inl rfl
  · cases c <;> exact .inl rfl

/-- Settles O59: the engine and the other agents raise other faults alone, so the step took a request. -/
theorem programmingErrorOnlyFromRequests : Obligations.ProgrammingErrorOnlyFromRequests := by
  intro s s' _ _ hr hf h hfault
  rcases step_cases h with ⟨rest, -, rfl⟩ | ⟨-, ms, -, rfl | ⟨r, ho, -, -⟩ | he | ⟨m, -, ha⟩⟩
  · cases hfault
  · cases hf.symm.trans hfault
  · exact ho
  · have hr' : readRegsWf Config.params { s with moves := ms } = true := hr
    rcases engineStep_fault hr' he with e | e
    · cases hf.symm.trans (e.symm.trans hfault)
    · cases e.symm.trans hfault
  · rcases agentMove_fault ha with e | e
    · cases hf.symm.trans (e.symm.trans hfault)
    · cases e.symm.trans hfault

end Sys2Proof.Proofs

namespace Sys2Proof.Proofs

open Machine

/-! ## The requests of the counter table -/

/-- `CTR_EXPECTED` for a test harness (R130). -/
theorem exec_ctrExpected_harness {s : State} (ra : Addr) (ho : s.origin = .harness) :
    exec (.ctrExpected ra) s = .next (respond (.counter (ctRead ra s)) s) :=
  congrArg Host.Outcome.next (internalOnly_harness _ ho)

/-- `CTR_ADVANCE` for a test harness (R131). -/
theorem exec_ctrAdvance_harness {s : State} (ra : Addr) (ho : s.origin = .harness) :
    exec (.ctrAdvance ra) s = .next (respond .done (ctrAdvance ra s)) :=
  congrArg Host.Outcome.next (internalOnly_harness _ ho)

/-- `CTR_RESET` for the instance's own string, whoever asks (R132). -/
theorem exec_ctrReset_own {s : State} (ra : Addr) {stringId : Word} (h : stringId.toNat = s.string) :
    exec (.ctrReset ra stringId) s = .next (respond .done (ctrReset ra s)) :=
  congrArg Host.Outcome.next (if_pos h)

/-- Settles O21: each request is one operation on the table and the return of its result. -/
theorem counterOperations : Obligations.CounterOperations := by
  refine ⟨fun s ra ho => exec_ctrExpected_harness ra ho,
    fun s ra ho => ⟨_, exec_ctrAdvance_harness ra ho, rfl, ?_, fun _ ha => ctRead_ctrAdvance_other ha s⟩,
    fun s ra _ h => ⟨_, exec_ctrReset_own ra h, rfl, ctRead_ctrReset_same ra s,
      fun _ ha => ctRead_ctrReset_other ha s⟩⟩
  calc (ctRead ra (ctrAdvance ra s)).toNat
    _ = (ctRead ra s + 1).toNat := congrArg _ (ctRead_ctrAdvance_same ra s)
    _ = ((ctRead ra s).toNat + 1) % 16 := BitVec.toNat_add ..

/-! ## Sequences of decodes -/

/-- A message whose decode is framed and keyed on `a` (R113, R133). -/
def framedOn (a : Addr) (m : List Word) : Bool :=
  decide (4 ≤ m.length) && decide (m.length ≤ 7) && headerAddr (m.getD 0 0) == a

theorem framedOn_iff {a : Addr} {m : List Word} :
    framedOn a m = true ↔ 4 ≤ m.length ∧ m.length ≤ 7 ∧ (fieldsOf m).ra = a := by
  simp [framedOn, and_assoc]

theorem decodeAll_cons (P : Params) (m : List Word) (ms : List (List Word)) (s : State) :
    decodeAll P (m :: ms) s = decodeAll P ms (decodeAll P [m] s) := rfl

theorem decodeAll_single_ok {P : Params} {m : List Word} {s t : State} {st : Status}
    (h : decodeWords P m s = .ok (t, st)) : decodeAll P [m] s = t := by
  simp only [decodeAll, List.foldl_cons, List.foldl_nil, h]

theorem decodeAll_single_error {P : Params} {m : List Word} {s : State} {f : Fault}
    (h : decodeWords P m s = .error f) : decodeAll P [m] s = s := by
  simp only [decodeAll, List.foldl_cons, List.foldl_nil, h]

/-- One decode moves an entry up by one if it is framed and keyed on it, and leaves it otherwise (R116, R133). -/
theorem ctRead_decodeAll_single (P : Params) (m : List Word) (s : State) (a : Addr) :
    ctRead a (decodeAll P [m] s) = if framedOn a m = true then ctRead a s + 1 else ctRead a s := by
  simp only [framedOn_iff]
  rcases decodeWords_cases P m s with ⟨hlong, e⟩ | ⟨h0, e⟩ | ⟨-, hshort, e⟩ | ⟨h4, h7, -⟩
  · rw [decodeAll_single_error e, if_neg (by omega)]
  · rw [decodeAll_single_ok e, if_neg (by omega)]; rfl
  · rw [decodeAll_single_ok e, if_neg (by omega)]; rfl
  · rw [decodeAll_single_ok (decodeWords_framed s h4 h7)]
    by_cases ha : (fieldsOf m).ra = a
    · rw [if_pos ⟨h4, h7, ha⟩, ha]; exact ctRead_ctrAdvance_same ..
    · rw [if_neg fun ⟨_, _, hra⟩ => ha hra]; exact ctRead_ctrAdvance_other (Ne.symm ha) _

/-- The entry after a sequence of decodes, counted in its four bits (R134). -/
theorem ctRead_decodeAll (P : Params) (a : Addr) (ms : List (List Word)) (s : State) :
    ctRead a (decodeAll P ms s) = ctRead a s + BitVec.ofNat 4 (ms.filter (framedOn a)).length := by
  induction ms generalizing s with
  | nil => exact (BitVec.add_zero _).symm
  | cons m ms ih =>
    rw [decodeAll_cons, ih, ctRead_decodeAll_single]
    by_cases hm : framedOn a m = true
    · rw [if_pos hm, List.filter_cons_of_pos hm, List.length_cons, BitVec.ofNat_add, BitVec.add_assoc,
        BitVec.add_comm 1]
      rfl
    · rw [if_neg hm, List.filter_cons_of_neg hm]

/-- Settles O22: a sum of four-bit counters is the sum of the numbers modulo 16. -/
theorem counterMonotonicity : Obligations.CounterMonotonicity := by
  intro P messages s a
  calc (ctRead a (decodeAll P messages s)).toNat
    _ = (ctRead a s + BitVec.ofNat 4 (messages.filter (framedOn a)).length).toNat :=
        congrArg _ (ctRead_decodeAll P a messages s)
    _ = ((ctRead a s).toNat + (messages.filter (framedOn a)).length) % 16 := by
        rw [BitVec.toNat_add, BitVec.toNat_ofNat, Nat.add_mod_mod]

end Sys2Proof.Proofs

namespace Sys2Proof.Proofs

open Machine

/-! ## What the engine does at the gate -/

/-- What a piece of the engine's work does to the bus: it claims an idle bus and stands before the transfer start; it finds the
bus busy, which is the fault; or it stays away from the gate (R140, R141). -/
def gateMoved (s t : State) : Prop :=
  (s.busy = .idle ∧ beforeStart t = true ∧ t.fault = s.fault) ∨
  (s.busy = .busy ∧ t.fault = some .busBusy) ∨
  (t.busy = s.busy ∧ (t.fault = some .busBusy → s.fault = some .busBusy))

theorem gateMoved_away {s t : State} (hbusy : t.busy = s.busy) (hfault : t.fault = s.fault) : gateMoved s t :=
  .inr (.inr ⟨hbusy, fun h => hfault ▸ h⟩)

theorem gateMoved_raiseFault {s : State} {f : Fault} (h : f ≠ .busBusy) : gateMoved s (raiseFault f s) :=
  .inr (.inr ⟨rfl, fun e => absurd (Option.some.inj e) h⟩)

theorem gateMoved_gateClaim (op : Instr) (c : Channel) (n : Nat) (m : List Word) (s : State) :
    gateMoved s (gateClaim op c n m s) := by
  rcases gateClaim_cases op c n m s with ⟨hidle, e⟩ | ⟨hbusy, e⟩ <;> rw [e]
  · exact .inl ⟨hidle, rfl, rfl⟩
  · exact .inr (.inl ⟨hbusy, rfl⟩)

theorem gateMoved_writeBegin (P : Params) (op : Instr) (ra : Addr) (reg value : Word) (s : State) :
    gateMoved s (writeBegin P op ra reg value s) := by
  rw [writeBegin_eq]; exact gateMoved_gateClaim ..

theorem gateMoved_readBegin (P : Params) (op : Instr) (ra : Addr) (n ipf : Nat) (reg : Word) (s : State) :
    gateMoved s (readBegin P op ra n ipf reg s) := by
  rw [readBegin_eq]
  cases hc : readCheck P n ipf with
  | some f => exact gateMoved_raiseFault (by rw [readCheck_some hc]; nofun)
  | none => exact gateMoved_gateClaim _ _ _ _ { s with rd := readLatch ra n ipf reg s.rd }

theorem gateMoved_phaseStep (P : Params) (op : Instr) (s : State) : gateMoved s (phaseStep P op s) := by
  cases hph : s.phase <;> rw [phaseStep_eq P op hph]
  case sleep => exact gateMoved_writeBegin ..
  case assign => exact gateMoved_writeBegin ..
  case config => exact gateMoved_writeBegin ..
  case probe1 => exact gateMoved_readBegin ..
  case probe2 => exact gateMoved_readBegin ..
  case verify => exact gateMoved_readBegin ..
  case uid => exact gateMoved_readBegin ..
  case idle => exact gateMoved_away rfl rfl
  case wake => exact gateMoved_away rfl rfl
  case done => exact gateMoved_away rfl rfl

/-! ## What leaves the bus flag alone -/

theorem waitDone_busy (op : Instr) (c : Channel) (r : Nat) (s : State) : (waitDone op c r s).busy = s.busy := by
  cases c <;> rfl

theorem writeReturns_busy (P : Params) (op : Instr) (s : State) : (writeReturns P op s).busy = s.busy := by
  rcases writeReturns_cases P op s with ⟨-, e⟩ | ⟨-, e⟩ | ⟨-, e⟩ <;> rw [e]
  · rfl
  · rcases phaseWritten_cases P .enumerate s with ⟨-, e⟩ | ⟨-, e⟩ | ⟨-, e⟩ | ⟨-, e⟩ <;> rw [e] <;> rfl

theorem readReturns_busy (P : Params) (op : Instr) (s : State) : (readReturns P op s).busy = s.busy := by
  rcases readReturns_cases P op s with ⟨-, e⟩ | ⟨-, e⟩ | ⟨-, e⟩ | ⟨-, e⟩ <;> rw [e]
  · rfl
  · rfl
  · rw [phaseRead_changes]; rfl

theorem decodeWords_gate {P : Params} {words : List Word} {s t : State} {st : Status}
    (h : decodeWords P words s = .ok (t, st)) : t.busy = s.busy ∧ t.fault = s.fault := by
  rw [decodeWords_changes h]; exact ⟨rfl, rfl⟩

/-- An answer frame stays away from the gate; too long a one is another fault (R117). -/
theorem gateMoved_frameStep (P : Params) (s : State) : gateMoved s (frameStep P s) := by
  rcases frameStep_cases P s with ⟨-, e⟩ | ⟨t, sd, hd, ⟨-, e⟩ | ⟨st, -, -, e⟩⟩ <;> rw [e]
  · exact gateMoved_raiseFault nofun
  all_goals
    obtain ⟨hbusy, hfault⟩ := decodeWords_gate hd
    exact gateMoved_away hbusy hfault

/-! ## The gate in the engine's turn -/

theorem gateMoved_engineStep {P : Params} {s t : State} (h : engineStep P s = some t) : gateMoved s t := by
  rcases engineStep_cases h with ⟨op, c, r, -, -, rfl⟩ | ⟨op, -, rfl⟩ | ⟨op, -, rfl⟩ | ⟨op, -, rfl⟩ |
    ⟨op, -, -, rfl⟩ | ⟨op, -, -, rfl⟩
  · exact gateMoved_away (waitDone_busy ..) (waitDone_fault ..)
  · exact gateMoved_phaseStep ..
  · exact gateMoved_away (writeReturns_busy ..) (writeReturns_fault ..)
  · exact gateMoved_away rfl rfl
  · exact gateMoved_away (readReturns_busy ..) (readReturns_fault ..)
  · exact gateMoved_frameStep ..

theorem gateMoved_exec {i : Instr} {s t : State} (h : exec i s = .next t) : gateMoved s t := by
  rcases exec_cases h with ⟨f, rfl, hf⟩ | ⟨r, s1, rfl, rfl | ⟨ws, st, hd⟩ | ⟨ra, rfl⟩ | ⟨ra, rfl⟩⟩ |
    ⟨ra, reg, value, -, rfl⟩ | ⟨ra, n, ipf, reg, -, rfl⟩ | ⟨-, rfl⟩
  · exact gateMoved_raiseFault (by rcases hf with rfl | rfl <;> nofun)
  · exact gateMoved_away rfl rfl
  · obtain ⟨hbusy, hfault⟩ := decodeWords_gate hd
    exact gateMoved_away hbusy hfault
  · exact gateMoved_away rfl rfl
  · exact gateMoved_away rfl rfl
  · exact (gateMoved_writeBegin _ _ _ _ _ (accept i s) :)
  · exact (gateMoved_readBegin _ _ _ _ _ _ (accept i s) :)
  · exact gateMoved_away rfl rfl

theorem gateMoved_runRequest {r : Request} {s t : State} (h : runRequest r s = .next t) : gateMoved s t := by
  rcases runRequest_cases r s with ⟨i, -, e⟩ | ⟨err, -, e⟩ <;> rw [e] at h
  · exact (gateMoved_exec h :)
  · cases h; exact (gateMoved_raiseFault (s := takeRequest r s) (f := .illegalOperation) nofun :)

/-- A request's first step leaves the records in flight alone (R149). -/
theorem runRequest_inflight {r : Request} {s t : State} (h : runRequest r s = .next t) : t.inflight = s.inflight := by
  rcases runRequest_cases r s with ⟨i, -, e⟩ | ⟨err, -, e⟩ <;> rw [e] at h
  · rw [exec_changes h]; rfl
  · cases h; rfl

/-- The engine has no step of its own at the transfer start: that is the environment's to answer (R142). -/
theorem engineStep_not_beforeStart {P : Params} {s t : State} (h : engineStep P s = some t) : beforeStart s = false := by
  rcases engineStep_cases h with ⟨op, c, r, ho, -⟩ | ⟨op, ho, -⟩ | ⟨op, ho, -⟩ | ⟨op, ho, -⟩ | ⟨op, ho, -⟩ | ⟨op, ho, -⟩ <;>
    simp [beforeStart, ho]

/-! ## A claimed bus is accounted for -/

theorem busAccounted_iff (s : State) :
    busAccounted s = true ↔ s.busy = .idle ∨ s.fault.isSome = true ∨ s.inflight ≠ [] ∨ beforeStart s = true := by
  simp [busAccounted, or_assoc]

theorem busAccounted_of_idle {s : State} (h : s.busy = .idle) : busAccounted s = true :=
  (busAccounted_iff s).2 (.inl h)

theorem busAccounted_of_fault {s : State} {f : Fault} (h : s.fault = some f) : busAccounted s = true :=
  (busAccounted_iff s).2 (.inr (.inl (by rw [h]; rfl)))

/-- Where the engine can go on without a fault, a busy bus means a record in flight (R141). -/
theorem idle_or_inflight {s : State} (h : busAccounted s = true) (hf : s.fault = none) (hb : beforeStart s = false) :
    s.busy = .idle ∨ s.inflight ≠ [] := by
  simpa [busAccounted_iff, hf, hb] using h

/-- The engine's work keeps the bus accounted for, since it takes no record out of flight (R149). -/
theorem busAccounted_of_gateMoved {s t : State} (hs : busAccounted s = true) (hf : s.fault = none)
    (hb : beforeStart s = false) (hin : t.inflight = s.inflight) (h : gateMoved s t) : busAccounted t = true := by
  rcases h with ⟨-, hstart, -⟩ | ⟨-, hfault⟩ | ⟨hbusy, -⟩
  · exact (busAccounted_iff t).2 (.inr (.inr (.inr hstart)))
  · exact busAccounted_of_fault hfault
  · rcases idle_or_inflight hs hf hb with h | h
    · exact busAccounted_of_idle (hbusy.trans h)
    · exact (busAccounted_iff t).2 (.inr (.inr (.inl (hin ▸ h))))

theorem completion_busy (t : Transfer) (ws : List Word) (s : State) : (completion t ws s).busy = .idle := by
  rw [completion_eq]; cases t.kind <;> rfl

theorem waitTimedOut_busy (P : Params) (op : Instr) (c : Channel) (s : State) : (waitTimedOut P op c s).busy = .idle := by
  cases c <;> rfl

/-- An accepted transfer is in flight, a rejected one is a fault; completion and timeout release the bus (R142, R145, R146). -/
theorem agentMove_busAccounted {P : Params} {m : Move} {s t : State} (hs : busAccounted s = true)
    (h : agentMove P m s = some t) : busAccounted t = true := by
  rcases agentMove_cases h with ⟨r, -, -, rfl⟩ | ⟨a, op, c, n, -, -, rfl⟩ | ⟨tr, ws, -, -, rfl⟩ | ⟨op, c, -, -, -, rfl⟩
  · exact hs
  · cases a with
    | accepted => exact (busAccounted_iff _).2 (.inr (.inr (.inl (List.cons_ne_nil ⟨c, n⟩ s.inflight :))))
    | busy => exact busAccounted_of_fault rfl
  · exact busAccounted_of_idle (completion_busy ..)
  · exact busAccounted_of_idle (waitTimedOut_busy ..)

/-- Settles O56: the engine claims the bus only to stand before the transfer start, and every other agent leaves it idle, with
a record in flight, or faulted. -/
theorem busStaysAccounted : Obligations.BusStaysAccounted := by
  intro s s' hs h
  exact step_preserves (fun s => busAccounted s = true) (moves := fun _ _ hs => hs) (reset := fun _ _ => rfl)
    (request := fun _ _ _ hs hf ho _ hr =>
      busAccounted_of_gateMoved hs hf (quiet_ready ho).1 (runRequest_inflight hr) (gateMoved_runRequest hr))
    (engine := fun _ _ hs hf he =>
      have ⟨_, _, hin, _⟩ := engineStep_keeps he
      busAccounted_of_gateMoved hs hf (engineStep_not_beforeStart he) hin (gateMoved_engineStep he))
    (agent := fun _ _ _ hs _ ha => agentMove_busAccounted hs ha) hs h

/-- The engine's work sets the fault `BusBusy` only at a busy bus (R141). -/
theorem busy_of_gateMoved {s t : State} (h : gateMoved s t) (hf : s.fault = none) (ht : t.fault = some .busBusy) :
    s.busy = .busy := by
  rcases h with ⟨-, -, hfault⟩ | ⟨hbusy, -⟩ | ⟨-, hfault⟩
  · cases hf.symm.trans (hfault.symm.trans ht)
  · exact hbusy
  · cases hf.symm.trans (hfault ht)

/-- A busy bus where the engine can go on without a fault has a record in flight (R141, R147). -/
theorem busBusy_inflight {s t : State} (hs : busAccounted s = true) (hf : s.fault = none) (hb : beforeStart s = false)
    (h : gateMoved s t) (ht : t.fault = some .busBusy) : s.busy = .busy ∧ s.inflight ≠ [] := by
  have hbusy : s.busy = .busy := busy_of_gateMoved h hf ht
  refine ⟨hbusy, (idle_or_inflight hs hf hb).resolve_left fun hidle => ?_⟩
  cases hbusy.symm.trans hidle

/-- Settles O30: the fault comes from the engine's turn alone, and there a busy bus has a record in flight. -/
theorem busBusyNeedsATransferInFlight : Obligations.BusBusyNeedsATransferInFlight := by
  intro s s' hs hf h ht
  rcases step_cases h with ⟨rest, -, rfl⟩ | ⟨-, ms, -, rfl | ⟨r, ho, -, hr⟩ | he | ⟨m, -, ha⟩⟩
  · cases ht
  · cases hf.symm.trans ht
  · exact busBusy_inflight (s := { s with moves := ms }) hs hf (quiet_ready ho).1 (gateMoved_runRequest hr) ht
  · exact busBusy_inflight (s := { s with moves := ms }) hs hf (engineStep_not_beforeStart he)
      (gateMoved_engineStep he) ht
  · rcases agentMove_fault ha with e | e
    · cases hf.symm.trans (e.symm.trans ht)
    · cases e.symm.trans ht

end Sys2Proof.Proofs

namespace Sys2Proof.Proofs

open Machine

/-! ## The steps of a transfer -/

/-- `WRITE` is accepted and begins (R143). -/
theorem exec_write (ra : Addr) (reg value : Word) (s : State) :
    exec (.write ra reg value) s =
      .next (writeBegin Config.params (.write ra reg value) ra reg value (accept (.write ra reg value) s)) := rfl

/-- A write on a busy bus claims and stages nothing (R141). -/
theorem writeBegin_busBusy {P : Params} {op : Instr} {ra : Addr} {reg value : Word} {s : State} (h : s.busy = .busy) :
    writeBegin P op ra reg value s = raiseFault .busBusy s := by
  rw [writeBegin_eq]
  rcases gateClaim_cases op .tx 0
    [pack .write 0 ra 0 0, reg, value, P.crc [pack .write 0 ra 0 0, reg, value]] s with ⟨hidle, -⟩ | ⟨-, e⟩
  · cases h.symm.trans hidle
  · exact e

/-- Settles O24: a write is one claim of the bus. -/
theorem writeClaimsTheBus : Obligations.WriteClaimsTheBus := by
  intro s ra reg value
  rw [exec_write]
  constructor
  · intro hidle
    rw [writeBegin_idle (s := accept (.write ra reg value) s) hidle]; rfl
  · intro hbusy
    rw [writeBegin_busBusy (s := accept (.write ra reg value) s) hbusy]; rfl

/-- The environment's answer at the transfer start (R142). -/
theorem step_answer {s : State} {op : Instr} {c : Channel} {n : Nat} {a : StartAnswer} {rest : List Move}
    (hf : s.fault = none) (ho : s.opState = .running op (.start c n)) (hm : s.moves = .answer a :: rest) :
    step s = .next (startTransfer Config.params op c n a { s with moves := rest }) :=
  step_agent hm hf (by simp only [agentMove, ho])

/-- Settles O25: either answer is taken as the transfer start gives it. -/
theorem transferStart : Obligations.TransferStart := by
  intro s op c n rest hf ho
  refine ⟨fun hm => ⟨waitTimeout Config.params c, step_answer hf ho hm, ?_⟩, fun hm => step_answer hf ho hm⟩
  cases c <;> rfl

/-! ## The end of a wait -/

/-- A waiting operation goes on as soon as its notification is pending (R144). -/
theorem engineStep_waiting_some {P : Params} {s : State} {op : Instr} {c : Channel} {r : Nat}
    (ho : s.opState = .waiting op c) (hn : noteRead c s = some r) : engineStep P s = some (waitDone op c r s) := by
  simp only [engineStep, ho, hn]

theorem engineStep_waiting_none {P : Params} {s : State} {op : Instr} {c : Channel}
    (ho : s.opState = .waiting op c) (hn : noteRead c s = none) : engineStep P s = none := by
  simp only [engineStep, ho, hn]

/-- The coming moves are no part of a notification. -/
@[simp] theorem noteRead_moves (c : Channel) (ms : List Move) (s : State) :
    noteRead c { s with moves := ms } = noteRead c s := by
  cases c <;> rfl

/-- No timeout is taken in a wait whose notification is pending (R144). -/
theorem agentMove_timeout_notified {P : Params} {s : State} {op : Instr} {c : Channel} {r : Nat}
    (ho : s.opState = .waiting op c) (hn : noteRead c s = some r) (c' : Channel) :
    agentMove P (.timeout c') s = none := by
  have hno : ¬(c' = c ∧ noteRead c' s = none) := by
    rintro ⟨rfl, hnone⟩
    cases hn.symm.trans hnone
  simp only [agentMove, ho, if_neg hno]

/-- A timeout is taken in a wait without a pending notification (R144). -/
theorem agentMove_timeout_pending {P : Params} {s : State} {op : Instr} {c : Channel}
    (ho : s.opState = .waiting op c) (hn : noteRead c s = none) :
    agentMove P (.timeout c) s = some (waitTimedOut P op c s) := by
  simp only [agentMove, ho, hn, and_self, if_true]

/-- A pending notification ends the wait, even when a timeout is delivered (R144). -/
theorem step_notified {s : State} {op : Instr} {c : Channel} {r : Nat} (hf : s.fault = none)
    (ho : s.opState = .waiting op c) (hn : noteRead c s = some r)
    (hm : s.moves = [] ∨ ∃ c rest, s.moves = .timeout c :: rest) : step s = .next (waitDone op c r s) := by
  have he : engineStep Config.params s = some (waitDone op c r s) := engineStep_waiting_some ho hn
  rcases hm with hm | ⟨c', rest, hm⟩
  · exact step_engine hm hf he
  · exact step_engine_before hm hf nofun nofun
      (agentMove_timeout_notified (s := { s with moves := rest }) ho ((noteRead_moves ..).trans hn) c') he

/-- A timeout ends a wait without a pending notification (R144, R145). -/
theorem step_timeout {s : State} {op : Instr} {c : Channel} {rest : List Move} (hf : s.fault = none)
    (ho : s.opState = .waiting op c) (hn : noteRead c s = none) (hm : s.moves = .timeout c :: rest) :
    step s = .next (waitTimedOut Config.params op c { s with moves := rest }) :=
  step_agent hm hf (agentMove_timeout_pending (s := { s with moves := rest }) ho ((noteRead_moves ..).trans hn))

/-- Without a notification and without a move the wait holds (R144). -/
theorem step_holds {s : State} {op : Instr} {c : Channel} (hf : s.fault = none) (ho : s.opState = .waiting op c)
    (hn : noteRead c s = none) (hm : s.moves = []) : step s = .next s := by
  rw [step_noMoves hm hf]
  simp only [engineOrHold, engineTurn, ho, engineStep_waiting_none ho hn, Option.map_none, Option.getD_none]

/-- Settles O26: the wait's step in each case, channel by channel. -/
theorem waitEnds : Obligations.WaitEnds := by
  intro s op hf
  refine ⟨?_, ?_, ?_, ?_, ?_⟩
  · exact fun ho r hn hm => (step_notified hf ho hn hm).trans (congrArg _ (waitDone_tx op r s))
  · exact fun ho r hn hm => (step_notified hf ho hn hm).trans (congrArg _ (waitDone_rx op r s))
  · exact fun ho hn rest hm =>
      (step_timeout hf ho hn hm).trans (congrArg _ (waitTimedOut_tx _ op { s with moves := rest }))
  · exact fun ho hn rest hm =>
      (step_timeout hf ho hn hm).trans (congrArg _ (waitTimedOut_rx _ op { s with moves := rest }))
  · exact fun c ho hn hm => step_holds hf ho hn hm

/-! ## The completion agent -/

theorem completion_inflight (t : Transfer) (ws : List Word) (s : State) :
    (completion t ws s).inflight = s.inflight.erase t := by
  rw [completion_eq]; cases t.kind <;> rfl

/-- Only the notification of the record's own channel is written (R146). -/
theorem noteRead_completion {c : Channel} {n : Nat} {ws : List Word} (hw : c = .tx → ws = []) (s : State) :
    noteRead c (completion ⟨c, n⟩ ws s) = some ws.length := by
  cases c with
  | tx => cases hw rfl; rfl
  | rx => rfl

theorem noteRead_completion_other {c c' : Channel} (h : c' ≠ c) (n : Nat) (ws : List Word) (s : State) :
    noteRead c' (completion ⟨c, n⟩ ws s) = noteRead c' s := by
  cases c with
  | tx =>
    cases c' with
    | tx => exact absurd rfl h
    | rx => rfl
  | rx =>
    cases c' with
    | tx => rfl
    | rx => exact absurd rfl h

/-- The received words fill the receive buffer from index 0, and no other word is written (R146). -/
theorem rxRead_completion {c : Channel} {n : Nat} {ws : List Word} (hw : c = .tx → ws = []) (s : State) (i : Nat) :
    rxRead i (completion ⟨c, n⟩ ws s) = if i < ws.length then ws.getD i 0 else rxRead i s := by
  cases c with
  | tx => cases hw rfl; rfl
  | rx =>
    show tableRead 0 i (tableWriteList 0 0 ws s.rxBuf) = _
    split
    · next hi => simpa using tableRead_writeList_inside 0 ws 0 i s.rxBuf hi
    · next hi => exact tableRead_writeList_outside 0 ws 0 i s.rxBuf (.inr (by omega))

/-- What a completion may change (R146). -/
theorem completion_changes {c : Channel} {n : Nat} {ws : List Word} (hw : c = .tx → ws = []) (s : State) :
    completion ⟨c, n⟩ ws s = { s with
      inflight := (completion ⟨c, n⟩ ws s).inflight, busy := .idle, noteTx := (completion ⟨c, n⟩ ws s).noteTx
      noteRx := (completion ⟨c, n⟩ ws s).noteRx, rxBuf := (completion ⟨c, n⟩ ws s).rxBuf
      history := .notification c ws.length :: s.history } := by
  cases c with
  | tx => cases hw rfl; rfl
  | rx => rfl

theorem completionEnabled_of_mem {c : Channel} {n : Nat} {ws : List Word} {s : State} (hin : ⟨c, n⟩ ∈ s.inflight)
    (hlen : ws.length ≤ n) (hw : c = .tx → ws = []) : completionEnabled ⟨c, n⟩ ws s = true := by
  have hkind : (c == .rx || ws.isEmpty) = true := by
    cases c with
    | tx => cases hw rfl; rfl
    | rx => rfl
  simp [completionEnabled, hin, hlen, hkind]

/-- A record in flight may complete at any point of the engine's work (R146). -/
theorem step_complete {s : State} {c : Channel} {n : Nat} {ws : List Word} {rest : List Move} (hf : s.fault = none)
    (hm : s.moves = .complete ⟨c, n⟩ ws :: rest) (hin : ⟨c, n⟩ ∈ s.inflight) (hlen : ws.length ≤ n)
    (hw : c = .tx → ws = []) : step s = .next (completion ⟨c, n⟩ ws { s with moves := rest }) :=
  step_agent hm hf (if_pos (completionEnabled_of_mem (s := { s with moves := rest }) hin hlen hw))

/-- Settles O27: the step is the completion, element by element. -/
theorem completionStep : Obligations.CompletionStep := by
  intro s c n ws rest hf hm hin hlen hw
  refine ⟨_, step_complete hf hm hin hlen hw, completion_changes hw _, ?_, noteRead_completion hw _, ?_,
    rxRead_completion hw _⟩
  · rw [completion_inflight]
    exact (List.perm_cons_erase hin).symm
  · intro c' hc
    rw [noteRead_completion_other hc, noteRead_moves]

/-! ## The records in flight -/

/-- Another agent's move that lowers the count of a record is its completion: a transfer start adds one, and the rest leave
the records alone (R142, R145, R149). -/
theorem agentMove_inflight {P : Params} {m : Move} {s s' : State} (h : agentMove P m s = some s') (t : Transfer) :
    s.inflight.count t ≤ s'.inflight.count t ∨ ∃ ws, m = .complete t ws := by
  rcases agentMove_cases h with ⟨r, -, -, rfl⟩ | ⟨a, op, c, n, -, -, rfl⟩ | ⟨t', ws, rfl, -, rfl⟩ | ⟨op, c, -, -, -, rfl⟩
  · exact .inl (Nat.le_refl _)
  · cases a with
    | accepted => exact .inl List.count_le_count_cons
    | busy => exact .inl (Nat.le_refl _)
  · by_cases ht : t = t'
    · exact .inr ⟨ws, by rw [ht]⟩
    · rw [completion_inflight, List.count_erase_of_ne ht]
      exact .inl (Nat.le_refl _)
  · cases c <;> exact .inl (Nat.le_refl _)

/-- Settles O28: whoever else moves, no record's count goes down. -/
theorem recordsLeaveOnlyByCompletion : Obligations.RecordsLeaveOnlyByCompletion := by
  intro s s' t h hlt
  have kept : s'.inflight ≠ s.inflight := fun e => absurd hlt (by rw [e]; exact Nat.lt_irrefl _)
  rcases step_cases h with ⟨rest, hm, -⟩ | ⟨-, ms, -, rfl | ⟨r, -, -, hr⟩ | he | ⟨m, hm, ha⟩⟩
  · exact .inr ⟨rest, hm⟩
  · exact absurd rfl kept
  · exact absurd (runRequest_inflight hr) kept
  · obtain ⟨-, -, hin, -⟩ := engineStep_keeps he
    exact absurd hin kept
  · rcases agentMove_inflight ha t with hle | ⟨ws, rfl⟩
    · exact absurd hlt (Nat.not_lt.2 hle)
    · exact .inl ⟨ws, ms, hm⟩

/-! ## A write from the port to its return -/

/-- `s` when the transfer of the write on its port is accepted and the wait begins (R142, R143). -/
def writeWaiting (o : Origin) (ra : Addr) (reg value : Word) (rest : List Move) (s : State) : State :=
  { s with
    busy := .busy, txBuf := writeMessage Config.params ra reg value, inflight := ⟨.tx, 0⟩ :: s.inflight
    opState := .waiting (.write ra reg value) .tx, port := none, origin := o, moves := rest
    history := .transfer .tx (writeMessage Config.params ra reg value) 0 Config.params.txTimeout ::
      .request ⟨.req, o, encode (.write ra reg value)⟩ :: s.history }

/-- A write's request is taken while the answer to its transfer start still waits for that start (R90, R143). -/
theorem step_write_taken {s : State} {o : Origin} {ra : Addr} {reg value : Word} {a : StartAnswer} {rest : List Move}
    (hf : s.fault = none) (ho : s.opState = .ready) (hp : s.port = some ⟨.req, o, encode (.write ra reg value)⟩)
    (hm : s.moves = .answer a :: rest) :
    step s = exec (.write ra reg value) (takeRequest ⟨.req, o, encode (.write ra reg value)⟩ s) := by
  have hd : decode .req (encode (.write ra reg value)) = .ok (.write ra reg value) :=
    decodeEncodeAgree (.write ra reg value) rfl
  rw [step_request_before hm hf ho hp nofun nofun (by simp only [agentMove, ho]), runRequest, hd]

/-- A write on the port in Ready, with an idle bus, reaches its wait in two steps (R142, R143). -/
theorem write_reaches_wait {s : State} {o : Origin} {ra : Addr} {reg value : Word} {rest : List Move}
    (hf : s.fault = none) (ho : s.opState = .ready) (hb : s.busy = .idle)
    (hp : s.port = some ⟨.req, o, encode (.write ra reg value)⟩) (hm : s.moves = .answer .accepted :: rest) :
    stepsTo 2 s (writeWaiting o ra reg value rest s) := by
  have htaken := (step_write_taken hf ho hp hm).trans ((writeClaimsTheBus _ ra reg value).1 hb)
  exact stepsTo_succ htaken (stepsTo_succ (step_answer hf rfl hm) (stepsTo_zero _))

/-- The point after a write's wait (R143, R205). -/
theorem engineStep_written {P : Params} {s : State} {op : Instr} (ho : s.opState = .running op .written) :
    engineStep P s = some (writeReturns P op s) := by
  simp only [engineStep, ho]

/-- A write whose wait ended returns `done` (R143). -/
theorem step_write_returns {s : State} {ra : Addr} {reg value : Word} (hm : s.moves = []) (hf : s.fault = none)
    (ho : s.opState = .running (.write ra reg value) .written) : step s = .next (respond .done s) :=
  step_engine hm hf (engineStep_written ho)

/-- Settles O29: after the common start the wait ends either way, and the write returns. -/
theorem writeReturnsOnBothPaths : Obligations.WriteReturnsOnBothPaths := by
  intro s o ra reg value hf ho hb hp
  constructor
  · intro hm
    let w := writeWaiting o ra reg value [.complete ⟨.tx, 0⟩ []] s
    have hcomplete : step w = .next (completion ⟨.tx, 0⟩ [] { w with moves := [] }) :=
      step_complete hf rfl (List.mem_cons_self ..) (Nat.le_refl 0) (fun _ => rfl)
    have hnotified := step_notified (s := completion ⟨.tx, 0⟩ [] { w with moves := [] }) hf rfl rfl (.inl rfl)
    have run := stepsTo_add (write_reaches_wait hf ho hb hp hm)
      (stepsTo_succ hcomplete (stepsTo_succ hnotified (stepsTo_succ (step_write_returns rfl hf rfl) (stepsTo_zero _))))
    have hrecords : (⟨.tx, 0⟩ :: s.inflight).erase ⟨.tx, 0⟩ = s.inflight := List.erase_cons_head ..
    simpa [w, writeWaiting, completion_eq, waitDone_tx, respond, emit, hrecords, ho, hb] using run
  · intro hn hm
    let w := writeWaiting o ra reg value [.timeout .tx] s
    have htimeout : step w = .next (waitTimedOut Config.params (.write ra reg value) .tx { w with moves := [] }) :=
      step_timeout hf rfl hn rfl
    have run := stepsTo_add (write_reaches_wait hf ho hb hp hm)
      (stepsTo_succ htimeout (stepsTo_succ (step_write_returns rfl hf rfl) (stepsTo_zero _)))
    simpa [w, writeWaiting, waitTimedOut_tx, respond, emit, ho, hb] using run

end Sys2Proof.Proofs

namespace Sys2Proof.Proofs

open Machine

/-! ## The caps of a read -/

/-- Enough frames are asked for to hold every item (R160). -/
theorem le_frameCount_mul {n ipf : Nat} (h : 1 ≤ ipf) : n ≤ frameCount n ipf * ipf := by
  show n ≤ (n + ipf - 1) / ipf * ipf
  have hsplit := Nat.div_add_mod (n + ipf - 1) ipf
  have hmod := Nat.mod_lt (n + ipf - 1) h
  rw [Nat.mul_comm] at hsplit
  omega

/-- No more frames are asked for than items (R160). -/
theorem frameCount_le {n ipf : Nat} (hn : 1 ≤ n) (h1 : 1 ≤ ipf) (h4 : ipf ≤ 4) : frameCount n ipf ≤ n := by
  show (n + ipf - 1) / ipf ≤ n
  interval_cases ipf <;> omega

/-- Outside the caps the check refuses (R161). -/
theorem readCheck_refuses {P : Params} {n ipf : Nat}
    (h : ¬(1 ≤ ipf ∧ ipf ≤ 4 ∧ 1 ≤ n ∧ frameCount n ipf ≤ P.maxFrames)) :
    readCheck P n ipf = some .programmingError := by
  cases hc : readCheck P n ipf with
  | none => exact absurd (readCheck_none.1 hc) h
  | some f => rw [readCheck_some hc]

/-- A read inside the caps asks for at most 256 items, since there are at most 64 frames of 4 (R7, R161). -/
theorem itemCount_le_of_readCheck {n ipf : Nat} (h : readCheck Config.params n ipf = none) : n ≤ 256 := by
  obtain ⟨h1, h4, -, hfc⟩ := readCheck_none.1 h
  obtain ⟨-, -, -, -, hmax, -⟩ := valid_ranges params_valid
  calc n ≤ frameCount n ipf * ipf := le_frameCount_mul h1
    _ ≤ 64 * 4 := Nat.mul_le_mul (hfc.trans hmax) h4

/-! ## Requests for a read -/

/-- A request that runs a bulk read with these operands (R160, R171). -/
structure RequestsRead (op : Instr) (ra : Addr) (n ipf : Nat) (reg : Word) : Prop where
  decodes : decode .req (encode op) = .ok op
  runs : ∀ s, exec op s = .next (readBegin Config.params op ra n ipf reg (accept op s))

theorem requestsRead_readMultiple (ra : Addr) (itemCount ipf reg : Word) :
    RequestsRead (.readMultiple ra itemCount ipf reg) ra itemCount.toNat ipf.toNat reg :=
  ⟨decodeEncodeAgree (.readMultiple ra itemCount ipf reg) rfl, fun _ => rfl⟩

/-- `READ` is a bulk read of one item in one frame (R171). -/
theorem requestsRead_read (ra : Addr) (reg : Word) : RequestsRead (.read ra reg) ra 1 1 reg :=
  ⟨decodeEncodeAgree (.read ra reg) rfl, fun _ => rfl⟩

/-- A read inside the caps on a busy bus latches its operands and claims nothing (R141, R160). -/
theorem readBegin_busBusy {P : Params} {op : Instr} {ra : Addr} {n ipf : Nat} {reg : Word} {s : State}
    (hc : readCheck P n ipf = none) (h : s.busy = .busy) :
    readBegin P op ra n ipf reg s = raiseFault .busBusy { s with rd := readLatch ra n ipf reg s.rd } := by
  rw [readBegin_eq, hc]
  rcases gateClaim_cases op .rx (rxLength n ipf)
    [pack .read 0 ra 0 0, reg, paramWord ipf n, P.crc [pack .read 0 ra 0 0, reg, paramWord ipf n]]
    { s with rd := readLatch ra n ipf reg s.rd } with ⟨hidle, -⟩ | ⟨-, e⟩
  · cases h.symm.trans hidle
  · exact e

section Requests

variable {op : Instr} {ra : Addr} {n ipf : Nat} {reg : Word} {s : State}

/-- A request for a read outside the caps claims nothing (R161). -/
theorem RequestsRead.exec_refused (hr : RequestsRead op ra n ipf reg) {f : Fault}
    (hc : readCheck Config.params n ipf = some f) : exec op s = .next (raiseFault f (accept op s)) := by
  rw [hr.runs, readBegin_eq, hc]

/-- A request for a read inside the caps on an idle bus claims it and stages the request message (R141, R160, R162). -/
theorem RequestsRead.exec_idle (hr : RequestsRead op ra n ipf reg) (hc : readCheck Config.params n ipf = none)
    (hb : s.busy = .idle) :
    exec op s = .next { s with
      rd := readLatch ra n ipf reg s.rd, busy := .busy, txBuf := readMessage Config.params ra n ipf reg
      opState := .running op (.start .rx (rxLength n ipf)) } := by
  rw [hr.runs, readBegin_idle (s := accept op s) hc hb]; rfl

/-- A request for a read inside the caps on a busy bus is a fault (R141). -/
theorem RequestsRead.exec_busy (hr : RequestsRead op ra n ipf reg) (hc : readCheck Config.params n ipf = none)
    (hb : s.busy = .busy) :
    exec op s = .next { s with
      rd := readLatch ra n ipf reg s.rd, opState := .running op .entry, fault := some .busBusy } := by
  rw [hr.runs, readBegin_busBusy (s := accept op s) hc hb]; rfl

end Requests

/-- Settles O31: the check is the caps, and what passes it is bounded by the 64 frames of at most 4 items. -/
theorem readCaps : Obligations.ReadCaps := by
  intro s ra itemCount ipf reg
  have hr := requestsRead_readMultiple ra itemCount ipf reg
  constructor
  · intro hout
    refine hr.exec_refused (readCheck_refuses fun ⟨h1, h4, hn, hfc⟩ => ?_)
    have hfc' : (itemCount.toNat + ipf.toNat - 1) / ipf.toNat ≤ Config.params.maxFrames := hfc
    omega
  · intro h1 h4 hn hfc
    have hc : readCheck Config.params itemCount.toNat ipf.toNat = none := readCheck_none.2 ⟨h1, h4, hn, hfc⟩
    obtain ⟨hfits, -⟩ := transferFits_read hc
    have h256 := itemCount_le_of_readCheck hc
    refine ⟨fun t hf ht => ?_, hfits, by omega⟩
    rw [hr.runs] at ht
    cases ht
    rcases readBegin_fault hc (.readMultiple ra itemCount ipf reg) ra reg (accept (.readMultiple ra itemCount ipf reg) s)
      with e | e
    · rw [e, accept_fault, hf]; nofun
    · rw [e]; nofun

/-- Settles O32: both requests claim the bus as the bulk read that they run. -/
theorem readClaimsTheBus : Obligations.ReadClaimsTheBus := by
  constructor
  · intro s ra itemCount ipf reg h1 h4 hn hfc
    have hr := requestsRead_readMultiple ra itemCount ipf reg
    have hc : readCheck Config.params itemCount.toNat ipf.toNat = none := readCheck_none.2 ⟨h1, h4, hn, hfc⟩
    exact ⟨hr.exec_idle hc, hr.exec_busy hc⟩
  · intro s ra reg
    have hr := requestsRead_read ra reg
    exact ⟨hr.exec_idle readCheck_single, hr.exec_busy readCheck_single⟩

/-! ## The request message -/

/-- The parameter word as a number: its three fields do not overlap (R76). -/
theorem paramWord_toNat {n ipf : Nat} (h1 : 1 ≤ ipf) (h4 : ipf ≤ 4) (hn : n - 1 ≤ 255) :
    (paramWord ipf n).toNat = 0x8000 + (ipf - 1) * 0x1000 + (n - 1) := by
  have hlow : (BitVec.ofNat 16 (n - 1)).toNat = n - 1 := Nat.mod_eq_of_lt (by omega)
  have hhigh : (0x8000 ||| (BitVec.ofNat 16 (ipf - 1) <<< 12) : Word).toNat = 2 ^ 12 * (8 + (ipf - 1)) := by
    interval_cases ipf <;> rfl
  rw [paramWord, BitVec.toNat_or, hlow, hhigh, ← Nat.two_pow_add_eq_or_of_lt (by omega)]
  omega

/-- Settles O33: the staged words are the request message, and its parameter word is the sum of its fields. -/
theorem readRequestMessage : Obligations.ReadRequestMessage := by
  intro s t ra itemCount ipf reg h1 h4 hn hfc hb ht
  have hc : readCheck Config.params itemCount.toNat ipf.toNat = none := readCheck_none.2 ⟨h1, h4, hn, hfc⟩
  have h256 := itemCount_le_of_readCheck hc
  rw [(requestsRead_readMultiple ra itemCount ipf reg).exec_idle hc hb] at ht
  cases ht
  exact ⟨compose_single .., rfl, rfl, paramWord_toNat h1 h4 (by omega), rfl⟩

end Sys2Proof.Proofs

namespace Sys2Proof.Proofs

open Machine

/-! ## The words of an answer frame -/

/-- The length a frame is decoded with (R165). -/
theorem frameWords_length (s : State) :
    (frameWords s).length = min (3 + s.rd.ipf) (s.rd.received - (4 + s.rd.k * (3 + s.rd.ipf))) := by
  rw [frameWords, rxSlice, List.length_map, List.length_range]; rfl

/-- The words a frame is decoded from: those of the receive buffer from the frame's offset on (R160, R164). -/
theorem frameWords_getElem? (s : State) (i : Nat) :
    (frameWords s)[i]? =
      if i < (frameWords s).length then some (rxRead (4 + s.rd.k * (3 + s.rd.ipf) + i) s) else none := by
  split
  · next hi =>
    rw [frameWords, rxSlice, List.length_map, List.length_range] at hi
    rw [frameWords, rxSlice, List.getElem?_map, List.getElem?_range hi]; rfl
  · next hi => exact List.getElem?_eq_none (Nat.not_lt.1 hi)

/-! ## The status of an answer frame -/

/-- A decode that is not `Ok` gives the frame its status (R169). -/
theorem answerStatus_of_not_ok {sd : Status} (h : sd ≠ .ok) (d : Decoded) (ra : Addr) (expected : Word) :
    answerStatus sd d ra expected = sd :=
  if_pos h

/-- A good decode that echoes both addresses (R169). -/
theorem answerStatus_echoed {d : Decoded} {ra : Addr} {expected : Word} (hra : d.ra = ra) (hreg : d.reg = expected) :
    answerStatus .ok d ra expected = .ok := by
  simp only [answerStatus, hra, hreg, ne_eq, not_true_eq_false, if_false]

/-- A frame whose decode is not `Ok` ends the walk with the decode's status (R169). -/
theorem frameStep_of_decode_not_ok {P : Params} {s t : State} {sd : Status}
    (hd : decodeWords P (frameWords s) s = .ok (t, sd)) (h : sd ≠ .ok) :
    frameStep P s = { t with rd := { s.rd with st := sd } } :=
  frameStep_fails hd (answerStatus_of_not_ok h ..) h

/-- Settles O34: a frame is as long as what arrived of it, and a short or broken one ends the walk with its decode's
status. -/
protected theorem frameLength : Obligations.FrameLength := by
  intro P s
  refine ⟨frameWords_length s, frameWords_getElem? s, ?_, ?_, ?_, ?_⟩
  · intro hipf hwhole
    rw [Nat.add_mul] at hwhole
    rw [frameWords_length]
    omega
  · exact fun h => frameStep_of_decode_not_ok (decodeWords_empty s h) nofun
  · exact fun h0 h => frameStep_of_decode_not_ok (decodeWords_short s h0 h) nofun
  · intro h4 h7 hcrc
    have hbad : ¬checksumOk P (frameWords s) = true := by
      rwa [checksumOk_iff, List.dropLast_eq_take, List.getLastD_eq_getLast?, List.getLast?_eq_getElem?,
        ← List.getD_eq_getElem?_getD]
    obtain ⟨hwrong, -⟩ := framedStatus_iff P (checksumOk P (frameWords s))
      (ctRead (fieldsOf (frameWords s)).ra s) (fieldsOf (frameWords s))
    have hd := decodeWords_framed (P := P) s h4 h7
    rw [hwrong.2 hbad] at hd
    rw [frameStep_of_decode_not_ok hd nofun]

/-! ## The walk over the frames -/

/-- The walk is over as soon as an error was met or no frame is left (R160, R169). -/
theorem walkOver_eq_true {rd : ReadRegs} : walkOver rd = true ↔ rd.st ≠ .ok ∨ rd.fc ≤ rd.k := by
  simp [walkOver]

/-- What a decode leaves alone and the step after it reads (R116). -/
theorem decodeWords_keeps {P : Params} {words : List Word} {s t : State} {st : Status}
    (h : decodeWords P words s = .ok (t, st)) :
    t.fault = s.fault ∧ t.moves = s.moves ∧ t.opState = s.opState ∧ t.history = s.history := by
  rw [decodeWords_changes h]
  exact ⟨rfl, rfl, rfl, rfl⟩

section Walk

variable {s : State} {op : Instr}

/-- While the walk goes on the engine's step is the next frame (R160). -/
theorem step_frame (hf : s.fault = none) (hm : s.moves = []) (ho : s.opState = .running op .frames)
    (hst : s.rd.st = .ok) (hk : s.rd.k < s.rd.fc) : step s = .next (frameStep Config.params s) := by
  have hgo : walkOver s.rd = false := walkOver_eq_false.2 ⟨hst, hk⟩
  exact step_engine hm hf (by simp only [engineStep, ho, hgo, Bool.false_eq_true, if_false])

/-- Once the walk is over the engine's step is the return of the read (R163, R169). -/
theorem step_read_returns (hf : s.fault = none) (hm : s.moves = []) (ho : s.opState = .running op .frames)
    (hover : s.rd.st ≠ .ok ∨ s.rd.fc ≤ s.rd.k) : step s = .next (readReturns Config.params op s) := by
  have hover' : walkOver s.rd = true := walkOver_eq_true.2 hover
  exact step_engine hm hf (by simp only [engineStep, ho, hover', if_true])

/-- A failing frame is followed by the return (R169). -/
theorem stepsTo_two_of_frame_fails {t : State} {sd st : Status} (hf : s.fault = none) (hm : s.moves = [])
    (ho : s.opState = .running op .frames) (hok : s.rd.st = .ok) (hk : s.rd.k < s.rd.fc)
    (hd : decodeWords Config.params (frameWords s) s = .ok (t, sd))
    (hst : answerStatus sd t.d s.rd.ra (expectedReg s.rd.reg s.rd.k s.rd.ipf) = st) (hne : st ≠ .ok) :
    stepsTo 2 s (readReturns Config.params op { t with rd := { s.rd with st := st } }) := by
  obtain ⟨hf', hm', ho', -⟩ := decodeWords_keeps hd
  have hframe := step_frame hf hm ho hok hk
  rw [frameStep_fails hd hst hne] at hframe
  have hreturn := step_read_returns (s := { t with rd := { s.rd with st := st } }) (hf'.trans hf) (hm'.trans hm)
    (ho'.trans ho) (.inl hne)
  exact stepsTo_succ hframe (stepsTo_succ hreturn (stepsTo_zero _))

end Walk

/-- Settles O35: the frame's status is `answerStatus`, and any but `Ok` is the last thing the walk sees. -/
theorem frameOutcomeOrder : Obligations.FrameOutcomeOrder := by
  intro s t sd op hf hm ho hok hk hd st
  have hst : answerStatus sd t.d s.rd.ra (expectedReg s.rd.reg s.rd.k s.rd.ipf) = st := rfl
  have hframe := step_frame hf hm ho hok hk
  obtain ⟨-, -, -, hhist⟩ := decodeWords_keeps hd
  refine ⟨fun hne => ⟨?_, ?_⟩, fun hne => ?_, fun hgood => ?_⟩
  · rw [hframe, frameStep_fails hd hst hne]
  · rintro ra itemCount ipf reg rfl
    rw [← hhist]
    exact stepsTo_two_of_frame_fails hf hm ho hok hk hd hst hne
  · rintro ra reg rfl
    rw [← hhist]
    exact ⟨readValue t.draws s.rd.acc st, stepsTo_two_of_frame_fails hf hm ho hok hk hd hst hne⟩
  · rw [frameStep_passes hd (hst.trans hgood)] at hframe
    exact ⟨_, hframe, rfl, hok, rfl⟩

/-! ## The items of a frame -/

/-- A frame that passes every check: its fields are decoded, its entry advances, its items are copied (R160, R168). -/
theorem frameStep_good {P : Params} {s : State} {words : List Word} (hw : frameWords s = words) (h4 : 4 ≤ words.length)
    (h7 : words.length ≤ 7)
    (hst : framedStatus P (checksumOk P words) (ctRead (fieldsOf words).ra s) (fieldsOf words) = .ok)
    (hra : (fieldsOf words).ra = s.rd.ra) (hreg : (fieldsOf words).reg = expectedReg s.rd.reg s.rd.k s.rd.ipf) :
    frameStep P s =
      { ctrAdvance s.rd.ra { s with d := fieldsOf words } with rd := copyItems (fieldsOf words).payload s.rd } := by
  subst hw
  have hd := decodeWords_framed (P := P) s h4 h7
  rw [hst] at hd
  rw [frameStep_passes hd (answerStatus_echoed hra hreg), hra]; rfl

/-- Settles O36: the items are the payload slots up to the smaller of `ipf` and the outstanding count. -/
theorem frameItemsCopied : Obligations.FrameItemsCopied := by
  intro P s words hw h4 h7 hipf hst hra hreg
  let items := (quadWords (fieldsOf words).payload).take (min s.rd.ipf s.rd.remaining)
  have hlen : items.length = min s.rd.ipf s.rd.remaining := by
    rw [List.length_take]
    show min _ 4 = _
    omega
  refine ⟨items, hlen, fun i hi => ?_, ?_⟩
  · rw [hlen] at hi
    rw [List.getElem?_take_of_lt hi, fieldsOf_payload words (by omega), fieldsOf_n]
  · rw [hlen, frameStep_good hw h4 h7 hst hra hreg]; rfl

end Sys2Proof.Proofs

namespace Sys2Proof.Proofs

open Machine

/-! ## A read whose wait times out -/

/-- A receive timeout and the return of the read, with no frame between them (R144, R170). -/
theorem stepsTo_two_of_timeout {s : State} {op : Instr} (hf : s.fault = none) (ho : s.opState = .waiting op .rx)
    (hn : s.noteRx = none) (hm : s.moves = [.timeout .rx]) :
    stepsTo 2 s (readReturns Config.params op (waitTimedOut Config.params op .rx { s with moves := [] })) :=
  stepsTo_succ (step_timeout hf ho hn hm) (stepsTo_succ (step_read_returns hf rfl rfl (.inl nofun)) (stepsTo_zero _))

/-- Settles O37: the timeout leaves no items and the walk over. -/
theorem receiveTimeout : Obligations.ReceiveTimeout :=
  fun _ _ _ _ _ hf ho hn hm => stepsTo_two_of_timeout hf ho hn hm

/-! ## A read from the port to its received words -/

/-- `s` when the transfer of the read on its port is accepted and the wait begins (R142, R160). -/
def readWaiting (o : Origin) (op : Instr) (ra : Addr) (n ipf : Nat) (reg : Word) (rest : List Move) (s : State) : State :=
  { s with
    busy := .busy, txBuf := readMessage Config.params ra n ipf reg, inflight := ⟨.rx, rxLength n ipf⟩ :: s.inflight
    rd := readLatch ra n ipf reg s.rd, opState := .waiting op .rx, port := none, origin := o, moves := rest
    history := .transfer .rx (readMessage Config.params ra n ipf reg) (rxLength n ipf) Config.params.rxTimeout ::
      .request ⟨.req, o, encode op⟩ :: s.history }

/-- `s` when the words answering the read on its port have arrived and the walk over the frames begins (R144, R146). -/
def readArrived (o : Origin) (op : Instr) (ra : Addr) (n ipf : Nat) (reg : Word) (received : List Word) (s : State) :
    State :=
  { s with
    busy := .idle, noteRx := none, txBuf := readMessage Config.params ra n ipf reg
    rxBuf := tableWriteList 0 0 received s.rxBuf, rd := beginWalk received.length (readLatch ra n ipf reg s.rd)
    opState := .running op .frames, port := none, origin := o, moves := []
    history := .notification .rx received.length ::
      .transfer .rx (readMessage Config.params ra n ipf reg) (rxLength n ipf) Config.params.rxTimeout ::
      .request ⟨.req, o, encode op⟩ :: s.history }

/-- A request is taken while the answer to its transfer start still waits for that start (R90). -/
theorem step_request_taken {s : State} {o : Origin} {op : Instr} {a : StartAnswer} {rest : List Move}
    (hd : decode .req (encode op) = .ok op) (hf : s.fault = none) (ho : s.opState = .ready)
    (hp : s.port = some ⟨.req, o, encode op⟩) (hm : s.moves = .answer a :: rest) :
    step s = exec op (takeRequest ⟨.req, o, encode op⟩ s) := by
  rw [step_request_before hm hf ho hp nofun nofun (by simp only [agentMove, ho]), runRequest, hd]

section Arrival

variable {s : State} {o : Origin} {op : Instr} {ra : Addr} {n ipf : Nat} {reg : Word}

/-- A read on the port in Ready, inside its caps and with an idle bus, reaches its wait in two steps (R142, R160). -/
theorem read_reaches_wait {rest : List Move} (hr : RequestsRead op ra n ipf reg)
    (hc : readCheck Config.params n ipf = none) (hf : s.fault = none) (ho : s.opState = .ready) (hb : s.busy = .idle)
    (hp : s.port = some ⟨.req, o, encode op⟩) (hm : s.moves = .answer .accepted :: rest) :
    stepsTo 2 s (readWaiting o op ra n ipf reg rest s) := by
  have htaken := (step_request_taken hr.decodes hf ho hp hm).trans (hr.exec_idle hc hb)
  exact stepsTo_succ htaken (stepsTo_succ (step_answer hf rfl hm) (stepsTo_zero _))

/-- When the whole stream completes the transfer, two more steps reach the walk over its frames (R144, R146). -/
theorem read_arrives {received : List Word} (hr : RequestsRead op ra n ipf reg)
    (hc : readCheck Config.params n ipf = none) (hf : s.fault = none) (ho : s.opState = .ready) (hb : s.busy = .idle)
    (hp : s.port = some ⟨.req, o, encode op⟩) (hlen : received.length = rxLength n ipf)
    (hm : s.moves = [.answer .accepted, .complete ⟨.rx, received.length⟩ received]) :
    stepsTo 4 s (readArrived o op ra n ipf reg received s) := by
  let w := readWaiting o op ra n ipf reg [.complete ⟨.rx, received.length⟩ received] s
  have hin : (⟨.rx, received.length⟩ : Transfer) ∈ w.inflight := by rw [hlen]; exact List.mem_cons_self ..
  have hcomplete : step w = .next (completion ⟨.rx, received.length⟩ received { w with moves := [] }) :=
    step_complete hf rfl hin (Nat.le_refl _) nofun
  have hnotified := step_notified (s := completion ⟨.rx, received.length⟩ received { w with moves := [] })
    hf rfl rfl (.inl rfl)
  have run := stepsTo_add (read_reaches_wait hr hc hf ho hb hp hm)
    (stepsTo_succ hcomplete (stepsTo_succ hnotified (stepsTo_zero _)))
  have hrecords : (⟨.rx, rxLength n ipf⟩ :: s.inflight).erase ⟨.rx, received.length⟩ = s.inflight := by
    rw [hlen]; exact List.erase_cons_head ..
  simpa [w, readWaiting, readArrived, completion_eq, waitDone_rx, hrecords] using run

end Arrival

/-! ## The data words of a stream -/

/-- Once a received stream is in the buffer, a frame's words are those of the stream (R164). -/
theorem frameWords_eq_streamFrame {s : State} {received : List Word} (hlen : s.rd.received = received.length)
    (hrx : ∀ i < received.length, rxRead i s = received.getD i 0) :
    frameWords s = streamFrame received s.rd.ipf s.rd.k := by
  refine List.ext_getElem? fun i => ?_
  have hoff : frameOffset s.rd.ipf s.rd.k = 4 + s.rd.k * (3 + s.rd.ipf) := rfl
  have hwidth : frameWidth s.rd.ipf = 3 + s.rd.ipf := rfl
  rw [frameWords_getElem?, frameWords_length, streamFrame, List.getElem?_take, List.getElem?_drop, hoff, hwidth, hlen]
  by_cases hi : i < 3 + s.rd.ipf
  · by_cases hlast : 4 + s.rd.k * (3 + s.rd.ipf) + i < received.length
    · rw [if_pos (by omega), if_pos hi, hrx _ hlast, List.getD_eq_getElem _ _ hlast, List.getElem?_eq_getElem hlast]
    · rw [if_neg (by omega), if_pos hi, List.getElem?_eq_none (by omega)]
  · rw [if_neg (by omega), if_neg hi]

/-- Every frame of a whole stream has the frame width (R77). -/
theorem streamFrame_length {received : List Word} {ipf fc k : Nat} (hlen : received.length = 4 + fc * (3 + ipf))
    (hk : k < fc) : (streamFrame received ipf k).length = 3 + ipf := by
  have hle : (k + 1) * (3 + ipf) ≤ fc * (3 + ipf) := Nat.mul_le_mul_right _ hk
  rw [Nat.add_mul] at hle
  rw [streamFrame, List.length_take, List.length_drop]
  show min (3 + ipf) (received.length - (4 + k * (3 + ipf))) = 3 + ipf
  omega

theorem streamItems_succ (received : List Word) (ipf k : Nat) :
    streamItems received ipf (k + 1) =
      streamItems received ipf k ++ (quadWords (fieldsOf (streamFrame received ipf k)).payload).take ipf := by
  simp [streamItems, List.range_succ]

/-- Each frame has `ipf` data words (R77). -/
theorem streamItems_length {ipf : Nat} (h4 : ipf ≤ 4) (received : List Word) (k : Nat) :
    (streamItems received ipf k).length = k * ipf := by
  induction k with
  | zero => rw [Nat.zero_mul]; rfl
  | succ k ih =>
    rw [streamItems_succ, List.length_append, ih, List.length_take, Nat.add_mul, Nat.one_mul]
    show k * ipf + min ipf 4 = _
    omega

/-- One frame more gives up to `ipf` of the items still outstanding (R168). -/
theorem take_streamItems_succ {ipf : Nat} (h4 : ipf ≤ 4) (received : List Word) (n k : Nat) :
    (streamItems received ipf (k + 1)).take n =
      (streamItems received ipf k).take n ++
        (quadWords (fieldsOf (streamFrame received ipf k)).payload).take (min ipf (n - k * ipf)) := by
  rw [streamItems_succ, List.take_append, streamItems_length h4, List.take_take, Nat.min_comm]

/-! ## The walk over a stream of good frames -/

/-- The read-engine registers after the first `k` frames of a stream, all of them good: their data words are copied as far as
they were asked for (R168). -/
def regsAfter (received : List Word) (k : Nat) (rd : ReadRegs) : ReadRegs :=
  { rd with
    k := k, remaining := rd.itemCount - k * rd.ipf, acc := (streamItems received rd.ipf k).take rd.itemCount }

/-- One good frame more (R168). -/
theorem copyItems_regsAfter {rd : ReadRegs} (h4 : rd.ipf ≤ 4) (received : List Word) (k : Nat) :
    copyItems (fieldsOf (streamFrame received rd.ipf k)).payload (regsAfter received k rd) =
      regsAfter received (k + 1) rd := by
  have hleft : rd.itemCount - k * rd.ipf - min rd.ipf (rd.itemCount - k * rd.ipf) =
      rd.itemCount - (k + 1) * rd.ipf := by
    rw [Nat.add_mul]; omega
  rw [regsAfter, regsAfter, take_streamItems_succ h4, ← hleft]; rfl

/-- The walk of `w` stands before a whole received stream, all of whose frames are good (R172). -/
structure GoodStream (received : List Word) (w : State) : Prop where
  ipf_pos : 1 ≤ w.rd.ipf
  ipf_le : w.rd.ipf ≤ 4
  length : received.length = 4 + w.rd.fc * (3 + w.rd.ipf)
  begins : w.rd = beginWalk received.length w.rd
  stored : ∀ i < received.length, rxRead i w = received.getD i 0
  good : ∀ k < w.rd.fc, frameGood Config.params received w.rd.ra w.rd.reg w.rd.ipf (ctRead w.rd.ra w) k

/-- `u` is `w` after the first `k` frames of its walk, all of them good: each advanced the requested device's entry (R172,
R173). -/
structure Walked (received : List Word) (k : Nat) (w u : State) : Prop where
  frame : u = { w with ct := u.ct, d := u.d, rd := u.rd }
  rd : u.rd = regsAfter received k w.rd
  counter : ctRead w.rd.ra u = ctRead w.rd.ra w + BitVec.ofNat 4 k
  others : ∀ a, a ≠ w.rd.ra → ctRead a u = ctRead a w

section GoodWalk

variable {received : List Word} {w u : State} {k : Nat}

/-- Before its first frame (R160). -/
theorem GoodStream.walked_zero (hs : GoodStream received w) : Walked received 0 w w where
  frame := rfl
  rd := by
    have hleft : w.rd.itemCount - 0 * w.rd.ipf = w.rd.itemCount := by omega
    have hnone : (streamItems received w.rd.ipf 0).take w.rd.itemCount = [] := List.take_nil
    rw [regsAfter, hleft, hnone, hs.begins]; rfl
  counter := (BitVec.add_zero _).symm
  others := fun _ _ => rfl

/-- The next frame of the walk is the next frame of the stream. -/
theorem Walked.frameWords_eq (h : Walked received k w u) (hs : GoodStream received w) :
    frameWords u = streamFrame received w.rd.ipf k := by
  have hlen : u.rd.received = received.length := by rw [h.rd]; exact congrArg ReadRegs.received hs.begins
  have hrx : ∀ i < received.length, rxRead i u = received.getD i 0 := by rw [h.frame]; exact hs.stored
  rw [frameWords_eq_streamFrame hlen hrx, h.rd]; rfl

/-- The checks of the next frame hold (R114, R172). -/
theorem Walked.framedStatus_ok (h : Walked received k w u) (hs : GoodStream received w) (hk : k < w.rd.fc) :
    framedStatus Config.params (checksumOk Config.params (streamFrame received w.rd.ipf k))
      (ctRead (fieldsOf (streamFrame received w.rd.ipf k)).ra u) (fieldsOf (streamFrame received w.rd.ipf k)) = .ok := by
  obtain ⟨hcrc, hcnt, hacc, hcmd, hra, -⟩ := hs.good k hk
  rw [hra, h.counter, ← hcnt]
  obtain ⟨-, -, -, -, hok⟩ := framedStatus_iff Config.params
    (checksumOk Config.params (streamFrame received w.rd.ipf k))
    (fieldsOf (streamFrame received w.rd.ipf k)).cnt (fieldsOf (streamFrame received w.rd.ipf k))
  exact hok.2 ⟨(checksumOk_iff _ _).2 hcrc, rfl, hacc, hcmd⟩

/-- The next step of the walk: one advance, and the items of one frame more. -/
theorem Walked.frameStep_eq (h : Walked received k w u) (hs : GoodStream received w) (hk : k < w.rd.fc) :
    frameStep Config.params u =
      { ctrAdvance w.rd.ra { u with d := fieldsOf (streamFrame received w.rd.ipf k) } with
        rd := regsAfter received (k + 1) w.rd } := by
  have hlen := streamFrame_length hs.length hk
  have h1 := hs.ipf_pos
  have h4 := hs.ipf_le
  obtain ⟨-, -, -, -, hra, hreg⟩ := hs.good k hk
  rw [frameStep_good (h.frameWords_eq hs) (by omega) (by omega) (h.framedStatus_ok hs hk) (by rw [hra, h.rd]; rfl)
    (by rw [hreg, h.rd]; rfl), h.rd, copyItems_regsAfter h4]
  rfl

/-- The walk goes on by one good frame (R168, R172). -/
theorem Walked.succ (h : Walked received k w u) (hs : GoodStream received w) (hk : k < w.rd.fc) :
    Walked received (k + 1) w (frameStep Config.params u) := by
  rw [h.frameStep_eq hs hk]
  refine ⟨?_, rfl, ?_, fun a ha => (ctRead_ctrAdvance_other ha u).trans (h.others a ha)⟩
  · rw [h.frame]; rfl
  · calc ctRead w.rd.ra (ctrAdvance w.rd.ra u)
      _ = ctRead w.rd.ra u + 1 := ctRead_ctrAdvance_same ..
      _ = ctRead w.rd.ra w + BitVec.ofNat 4 k + 1 := by rw [h.counter]
      _ = ctRead w.rd.ra w + BitVec.ofNat 4 (k + 1) := by rw [BitVec.ofNat_add, BitVec.add_assoc]; rfl

/-- A walk over good frames runs through all of them, one step each (R160, R172). -/
theorem GoodStream.walk {op : Instr} (hs : GoodStream received w) (hf : w.fault = none) (hm : w.moves = [])
    (ho : w.opState = .running op .frames) (hk : k ≤ w.rd.fc) : ∃ u, stepsTo k w u ∧ Walked received k w u := by
  induction k with
  | zero => exact ⟨w, stepsTo_zero w, hs.walked_zero⟩
  | succ k ih =>
    obtain ⟨u, hrun, hu⟩ := ih (by omega)
    have hst : u.rd.st = .ok := by rw [hu.rd]; exact congrArg ReadRegs.st hs.begins
    have hlt : u.rd.k < u.rd.fc := by rw [hu.rd]; exact hk
    have hstep : step u = .next (frameStep Config.params u) :=
      step_frame (by rw [hu.frame]; exact hf) (by rw [hu.frame]; exact hm) (by rw [hu.frame]; exact ho) hst hlt
    exact ⟨_, stepsTo_add hrun (stepsTo_succ hstep (stepsTo_zero _)), hu.succ hs hk⟩

/-- After its last good frame the read returns with what was copied (R163, R172). -/
theorem GoodStream.walk_returns {op : Instr} (hs : GoodStream received w) (hf : w.fault = none) (hm : w.moves = [])
    (ho : w.opState = .running op .frames) :
    ∃ u, stepsTo (w.rd.fc + 1) w (readReturns Config.params op u) ∧ Walked received w.rd.fc w u := by
  obtain ⟨u, hrun, hu⟩ := hs.walk hf hm ho (Nat.le_refl _)
  have hover : u.rd.st ≠ .ok ∨ u.rd.fc ≤ u.rd.k := .inr (by rw [hu.rd]; exact Nat.le_refl _)
  have hreturn : step u = .next (readReturns Config.params op u) :=
    step_read_returns (by rw [hu.frame]; exact hf) (by rw [hu.frame]; exact hm) (by rw [hu.frame]; exact ho) hover
  exact ⟨u, stepsTo_add hrun (stepsTo_succ hreturn (stepsTo_zero _)), hu⟩

end GoodWalk

section Completes

variable {s : State} {o : Origin} {op : Instr} {ra : Addr} {n ipf : Nat} {reg : Word} {received : List Word}

/-- The words of a whole stream of good frames have arrived. -/
theorem goodStream_readArrived (h1 : 1 ≤ ipf) (h4 : ipf ≤ 4) (hlen : received.length = rxLength n ipf)
    (hgood : ∀ k < frameCount n ipf, frameGood Config.params received ra reg ipf (ctRead ra s) k) :
    GoodStream received (readArrived o op ra n ipf reg received s) where
  ipf_pos := h1
  ipf_le := h4
  length := hlen
  begins := rfl
  stored := fun i hi => by
    have hread := tableRead_writeList_inside 0 received 0 i s.rxBuf hi
    rwa [Nat.zero_add] at hread
  good := hgood

/-- A read on the port whose whole stream arrives and passes runs to its return, one step for each frame and five more
(R160, R172). -/
theorem read_completes (hr : RequestsRead op ra n ipf reg) (hc : readCheck Config.params n ipf = none)
    (hf : s.fault = none) (ho : s.opState = .ready) (hb : s.busy = .idle) (hp : s.port = some ⟨.req, o, encode op⟩)
    (hlen : received.length = rxLength n ipf)
    (hm : s.moves = [.answer .accepted, .complete ⟨.rx, received.length⟩ received])
    (hgood : ∀ k < frameCount n ipf, frameGood Config.params received ra reg ipf (ctRead ra s) k) :
    ∃ u, stepsTo (frameCount n ipf + 5) s (readReturns Config.params op u) ∧
      Walked received (frameCount n ipf) (readArrived o op ra n ipf reg received s) u := by
  obtain ⟨h1, h4, -, -⟩ := readCheck_none.1 hc
  obtain ⟨u, hrun, hu⟩ := (goodStream_readArrived (o := o) (op := op) h1 h4 hlen hgood).walk_returns hf rfl rfl
  have run := stepsTo_add (read_arrives hr hc hf ho hb hp hlen hm) hrun
  exact ⟨u, by rwa [show frameCount n ipf + 5 = 4 + (frameCount n ipf + 1) by omega], hu⟩

/-- The status of a read all of whose frames were good (R172). -/
theorem Walked.st_eq {k : Nat} {u : State} (h : Walked received k (readArrived o op ra n ipf reg received s) u) :
    u.rd.st = .ok := by
  rw [h.rd]; rfl

/-- The items of a read after `k` good frames (R168). -/
theorem Walked.acc_eq {k : Nat} {u : State} (h : Walked received k (readArrived o op ra n ipf reg received s) u) :
    u.rd.acc = (streamItems received ipf k).take n := by
  rw [h.rd]; rfl

/-- The result of a completed read on the response port, whichever form it has, leaves all but the counter table, the buffers
and the working registers as they were (R163, R173). -/
theorem Walked.respond_frame {k : Nat} {u : State}
    (h : Walked received k (readArrived o op ra n ipf reg received s) u) (ho : s.opState = .ready) (hb : s.busy = .idle)
    (r : Response) :
    let v := respond r (forgetReadRegs u)
    v = { s with
      ct := v.ct, noteRx := none, txBuf := v.txBuf, rxBuf := v.rxBuf, rd := v.rd, d := v.d, port := none
      response := v.response, history := v.history, origin := o, moves := [], draws := v.draws } := by
  rw [h.frame, ho, hb]; rfl

end Completes

/-- Settles O38: the run is the walk over the stream, and the items are the data words cut at `itemCount`. -/
theorem reassemblyCompleteness : Obligations.ReassemblyCompleteness := by
  intro s o ra itemCount ipf reg received fc hn h40 h1 h4 hf ho hb hp hlen hm hgood
  obtain ⟨-, -, -, hmax, -⟩ := valid_ranges params_valid
  have hfc : frameCount itemCount.toNat ipf.toNat ≤ itemCount.toNat := frameCount_le hn h1 h4
  have hc : readCheck Config.params itemCount.toNat ipf.toNat = none := readCheck_none.2 ⟨h1, h4, hn, by omega⟩
  obtain ⟨u, hrun, hu⟩ :=
    read_completes (requestsRead_readMultiple ra itemCount ipf reg) hc hf ho hb hp hlen hm hgood
  have hitems : u.rd.acc.length = itemCount.toNat := by
    rw [hu.acc_eq, List.length_take, streamItems_length h4]
    exact Nat.min_eq_left (le_frameCount_mul h1)
  refine ⟨_, u.rd.acc, hrun, ?_, hitems, ?_, ?_, hu.counter, hu.others, ?_, ?_, hu.respond_frame ho hb _⟩
  · rw [← hu.st_eq]; rfl
  · rw [hu.acc_eq]; exact List.take_prefix ..
  · rw [hitems, streamItems_length h4]
  · exact congrArg State.busy hu.frame
  · exact congrArg State.noteRx hu.frame

/-! ## `READ` -/

/-- The words of an answer frame are those of the stream from the frame's offset on (R164). -/
theorem streamFrame_getD {i ipf : Nat} (hi : i < 3 + ipf) (received : List Word) (k : Nat) :
    (streamFrame received ipf k).getD i 0 = received.getD (4 + k * (3 + ipf) + i) 0 := by
  have hi' : i < frameWidth ipf := hi
  rw [streamFrame, List.getD_eq_getElem?_getD, List.getElem?_take_of_lt hi', List.getElem?_drop,
    ← List.getD_eq_getElem?_getD]
  rfl

/-- A frame of 4 words or more has a first data word, whatever length its header claims (R75, R115). -/
theorem fieldsOf_payload_first {words : List Word} (h : 4 ≤ words.length) :
    (fieldsOf words).payload.w0 = words.getD 2 0 := by
  have hslot := fieldsOf_payload words (i := 0) (by omega)
  have hn : 0 < (fieldsOf words).n.val := by rw [fieldsOf_n]; omega
  rw [if_pos hn] at hslot
  exact Option.some.inj hslot

/-- The one data word of a `READ`'s stream (R77, R171). -/
theorem streamItems_read {received : List Word} (h : received.length = 8) :
    streamItems received 1 1 = [received.getD 6 0] := by
  have hlen : (streamFrame received 1 0).length = 4 := streamFrame_length (fc := 1) h (by omega)
  have hword : (fieldsOf (streamFrame received 1 0)).payload.w0 = received.getD 6 0 := by
    rw [fieldsOf_payload_first (by omega), streamFrame_getD (by omega)]
  rw [streamItems_succ, ← hword]; rfl

/-- Settles O39: `READ` is the bulk read of one item, from the port to either end of its wait. -/
protected theorem readReturns : Obligations.ReadReturns := by
  intro s o ra reg hf ho hb hp
  have hr := requestsRead_read ra reg
  constructor
  · intro received hlen hm hgood
    have hone : ∀ k < frameCount 1 1, frameGood Config.params received ra reg 1 (ctRead ra s) k := fun k hk => by
      obtain rfl : k = 0 := Nat.lt_one_iff.1 hk
      exact hgood
    obtain ⟨u, hrun, hu⟩ :=
      read_completes hr readCheck_single hf ho hb hp hlen (by rw [hm, hlen]) hone
    have hresponse : Response.value (readValue u.draws u.rd.acc u.rd.st) u.rd.st =
        .value (received.getD 6 0) .ok := by
      have hacc : u.rd.acc = [received.getD 6 0] := by
        rw [hu.acc_eq]; exact congrArg (List.take 1) (streamItems_read hlen)
      rw [hu.st_eq, hacc]; rfl
    exact ⟨_, hrun, congrArg some hresponse, rfl, congrArg State.busy hu.frame,
      (congrArg State.fault hu.frame).trans hf, hu.counter, hu.others⟩
  · intro hn hm
    exact ⟨_, _, stepsTo_add (read_reaches_wait hr readCheck_single hf ho hb hp hm)
      (stepsTo_two_of_timeout hf rfl hn rfl), rfl, rfl, rfl, hf, rfl, rfl⟩

end Sys2Proof.Proofs

namespace Sys2Proof.Proofs

open Machine

/-! ## The address of a chain position -/

/-- The bit that makes an address directed lies above every device number (R73, R189). -/
theorem positionAddr_toNat {P : Params} {p : Nat} (h : p + P.chainBase ≤ 63) :
    (positionAddr P p).toNat = 64 + (p + P.chainBase) := by
  have hlow : (BitVec.ofNat 7 (p + P.chainBase)).toNat = p + P.chainBase := Nat.mod_eq_of_lt (by omega)
  have hhigh : (0x40 : Addr).toNat = 2 ^ 6 * 1 := rfl
  rw [positionAddr, BitVec.toNat_or, hlow, hhigh, ← Nat.two_pow_add_eq_or_of_lt (by omega)]

/-- Settles O40: the sum of R189 has no carry in a valid configuration, so it gives the position back. -/
theorem positionAddress : Obligations.PositionAddress := by
  intro P p q hP hp1 hp hq1 hq
  obtain ⟨-, -, hchain, -⟩ := valid_ranges hP
  have hpa := positionAddr_toNat (P := P) (p := p) (by omega)
  have hqa := positionAddr_toNat (P := P) (p := q) (by omega)
  refine ⟨by omega, by omega, by omega, fun heq => ?_⟩
  rw [heq] at hpa
  omega

end Sys2Proof.Proofs

namespace Sys2Proof.Proofs

open Machine

/-! ## The engine's turn in a walk -/

/-- The coming moves leave the engine its turn wherever no transfer is about to start: the next of them, if any, answers a
transfer start (R142). -/
def leavesTurn (ms : List Move) : Prop :=
  ms = [] ∨ ∃ a rest, ms = .answer a :: rest

theorem leavesTurn_nil : leavesTurn [] := .inl rfl

theorem leavesTurn_answer (a : StartAnswer) (rest : List Move) : leavesTurn (.answer a :: rest) := .inr ⟨a, rest, rfl⟩

/-- No answer is taken where no transfer is about to start (R142). -/
theorem agentMove_answer_none {P : Params} {s : State} (h : beforeStart s = false) (a : StartAnswer) :
    agentMove P (.answer a) s = none := by
  cases ho : s.opState with
  | ready => simp only [agentMove, ho]
  | waiting op c => simp only [agentMove, ho]
  | running op pt =>
    cases pt with
    | start c n => simp [beforeStart, ho] at h
    | _ => simp only [agentMove, ho]

/-- The engine goes on with its operation although an answer waits for the next transfer start. -/
theorem step_of_engineStep {s t : State} (hf : s.fault = none) (hm : leavesTurn s.moves)
    (he : engineStep Config.params s = some t) : step s = .next t := by
  rcases hm with hm | ⟨a, rest, hm⟩
  · exact step_engine hm hf he
  · have hidle : beforeStart { s with moves := rest } = false := engineStep_not_beforeStart (s := s) he
    exact step_engine_before hm hf nofun nofun (agentMove_answer_none hidle a) he

section Walk

variable {s : State}

/-- At the start of a phase the engine's step is the phase rule (R181). -/
theorem step_phase (hf : s.fault = none) (hm : leavesTurn s.moves) (ho : s.opState = .running .enumerate .phase) :
    step s = .next (phaseStep Config.params .enumerate s) :=
  step_of_engineStep hf hm (by simp only [engineStep, ho])

/-- After the wait of a phase's write the engine's step is what the phase does with it (R205). -/
theorem step_phaseWritten (hf : s.fault = none) (hm : leavesTurn s.moves)
    (ho : s.opState = .running .enumerate .written) :
    step s = .next (phaseWritten Config.params .enumerate s) :=
  step_of_engineStep hf hm (engineStep_written ho)

/-- After the settle delay the walk goes on to the first probe (R182). -/
theorem step_settle (hf : s.fault = none) (hm : leavesTurn s.moves) (ho : s.opState = .running .enumerate .settle) :
    step s = .next (settleStep Config.params .enumerate s) :=
  step_of_engineStep hf hm (by simp only [engineStep, ho])

/-- After the last frame of a phase's read the engine's step is what the phase does with its result (R205). -/
theorem step_phaseRead (hf : s.fault = none) (hm : leavesTurn s.moves) (ho : s.opState = .running .enumerate .frames)
    (hover : walkOver s.rd = true) :
    step s = .next (phaseRead Config.params .enumerate s.rd.acc s.rd.st (forgetReadRegs s)) :=
  step_of_engineStep hf hm (by simp only [engineStep, ho, hover, if_true]; rfl)

/-! ## A phase up to its wait -/

/-- `s` when the transfer of its phase is accepted and the wait begins (R142). -/
def phaseWaiting (c : Channel) (n : Nat) (m : Quad) (rd : ReadRegs) (rest : List Move) (s : State) : State :=
  { s with
    busy := .busy, txBuf := m, inflight := ⟨c, n⟩ :: s.inflight, rd := rd, opState := .waiting .enumerate c
    moves := rest, history := .transfer c m n (waitTimeout Config.params c) :: s.history }

/-- A phase that claims the bus reaches its wait in two steps (R141, R142). -/
theorem phase_reaches_wait {c : Channel} {n : Nat} {m : Quad} {rd : ReadRegs} {rest : List Move} (hf : s.fault = none)
    (ho : s.opState = .running .enumerate .phase) (hm : s.moves = .answer .accepted :: rest)
    (hclaim : phaseStep Config.params .enumerate s =
      { s with busy := .busy, txBuf := m, rd := rd, opState := .running .enumerate (.start c n) }) :
    stepsTo 2 s (phaseWaiting c n m rd rest s) := by
  have hphase := step_phase hf (hm ▸ leavesTurn_answer ..) ho
  rw [hclaim] at hphase
  exact stepsTo_succ hphase (stepsTo_succ (step_answer hf rfl hm) (stepsTo_zero _))

/-! ## A phase that writes -/

/-- A phase that writes, from its start on an idle bus to wherever its return leads in `k` further steps. The write ends by its
completion, by a timeout, or at once by a stale notification (R144, R145, R228). -/
theorem phase_writes {ra : Addr} {reg value : Word} {k : Nat} {after : State → State} (hf : s.fault = none)
    (ho : s.opState = .running .enumerate .phase) (hb : s.busy = .idle)
    (hph : phaseStep Config.params .enumerate s = writeBegin Config.params .enumerate ra reg value s)
    (hafter : ∀ w : State, w.fault = none → w.moves = [] → w.opState = .running .enumerate .written →
      w.phase = s.phase → stepsTo k w (after w)) :
    let m := writeMessage Config.params ra reg value
    let started := Event.transfer .tx m 0 Config.params.txTimeout :: s.history
    (s.moves = [.answer .accepted, .complete ⟨.tx, 0⟩ []] →
      stepsTo (4 + k) s (after { s with
        txBuf := m, noteTx := none, opState := .running .enumerate .written, moves := []
        history := .notification .tx 0 :: started })) ∧
    (s.noteTx = none → s.moves = [.answer .accepted, .timeout .tx] →
      stepsTo (3 + k) s (after { s with
        txBuf := m, inflight := ⟨.tx, 0⟩ :: s.inflight, opState := .running .enumerate .written, moves := []
        history := .timedOut .tx Config.params.txTimeout :: started })) ∧
    (∀ r, s.noteTx = some r → s.moves = [.answer .accepted] →
      stepsTo (3 + k) s (after { s with
        busy := .busy, txBuf := m, noteTx := none, inflight := ⟨.tx, 0⟩ :: s.inflight
        opState := .running .enumerate .written, moves := [], history := started })) := by
  intro m started
  let w rest := phaseWaiting .tx 0 m s.rd rest s
  have hwait rest (hm : s.moves = .answer .accepted :: rest) : stepsTo 2 s (w rest) :=
    phase_reaches_wait hf ho hm (hph.trans (writeBegin_idle hb))
  refine ⟨fun hm => stepsTo_add ?_ (hafter _ hf rfl rfl rfl), fun hn hm => stepsTo_add ?_ (hafter _ hf rfl rfl rfl),
    fun r hn hm => stepsTo_add ?_ (hafter _ hf rfl rfl rfl)⟩
  · have hcomplete : step (w [.complete ⟨.tx, 0⟩ []]) = .next (completion ⟨.tx, 0⟩ [] (w [])) :=
      step_complete hf rfl (List.mem_cons_self ..) (Nat.le_refl 0) (fun _ => rfl)
    have hnotified := step_notified (s := completion ⟨.tx, 0⟩ [] (w [])) hf rfl rfl (.inl rfl)
    have hrecords : (⟨.tx, 0⟩ :: s.inflight).erase ⟨.tx, 0⟩ = s.inflight := List.erase_cons_head ..
    rw [hb, ← hrecords]
    exact stepsTo_add (hwait _ hm) (stepsTo_succ hcomplete (stepsTo_succ hnotified (stepsTo_zero _)))
  · have htimeout : step (w [.timeout .tx]) = .next (waitTimedOut Config.params .enumerate .tx (w [])) :=
      step_timeout hf rfl hn rfl
    rw [hb]
    exact stepsTo_add (hwait _ hm) (stepsTo_succ htimeout (stepsTo_zero _))
  · have hnotified : step (w []) = .next (waitDone .enumerate .tx r (w [])) :=
      step_notified (s := w []) hf rfl hn (.inl rfl)
    exact stepsTo_add (hwait _ hm) (stepsTo_succ hnotified (stepsTo_zero _))

/-- A phase that writes faults on a busy bus, with nothing claimed or staged (R141). -/
theorem step_phase_write_busy {ra : Addr} {reg value : Word} (hf : s.fault = none) (hm : s.moves = [])
    (ho : s.opState = .running .enumerate .phase) (hb : s.busy = .busy)
    (hph : phaseStep Config.params .enumerate s = writeBegin Config.params .enumerate ra reg value s) :
    step s = .next { s with fault := some .busBusy } := by
  rw [step_phase hf (.inl hm) ho, hph, writeBegin_busBusy hb]; rfl

/-! ## A phase that reads -/

/-- A phase that reads claims an idle bus and stages its request (R141, R160). -/
theorem step_phase_read_idle {ra : Addr} {n ipf : Nat} {reg : Word} (hf : s.fault = none) (hm : s.moves = [])
    (ho : s.opState = .running .enumerate .phase) (hb : s.busy = .idle)
    (hc : readCheck Config.params n ipf = none)
    (hph : phaseStep Config.params .enumerate s = readBegin Config.params .enumerate ra n ipf reg s) :
    step s = .next { s with
      rd := readLatch ra n ipf reg s.rd, busy := .busy, txBuf := readMessage Config.params ra n ipf reg
      opState := .running .enumerate (.start .rx (rxLength n ipf)) } := by
  rw [step_phase hf (.inl hm) ho, hph, readBegin_idle hc hb]

/-- A phase that reads latches its operands on a busy bus and faults (R141, R160). -/
theorem step_phase_read_busy {ra : Addr} {n ipf : Nat} {reg : Word} (hf : s.fault = none) (hm : s.moves = [])
    (ho : s.opState = .running .enumerate .phase) (hb : s.busy = .busy)
    (hc : readCheck Config.params n ipf = none)
    (hph : phaseStep Config.params .enumerate s = readBegin Config.params .enumerate ra n ipf reg s) :
    step s = .next { s with rd := readLatch ra n ipf reg s.rd, fault := some .busBusy } := by
  rw [step_phase hf (.inl hm) ho, hph, readBegin_busBusy hc hb]; rfl

end Walk

/-! ## The Sleep phase -/

/-- Settles O41: the write's three ends lead to the settle delay, and from there to the first probe. -/
theorem sleepPhase : Obligations.SleepPhase := by
  intro s hf hphase m
  refine ⟨fun ho hb => ?_, fun ho hb hm => step_phase_write_busy hf hm ho hb (phaseStep_eq _ _ hphase), fun ho hm => ?_,
    fun ho hm => step_settle hf (.inl hm) ho⟩
  · refine phase_writes (k := 2) (after := fun w => { settleStep Config.params .enumerate w with opState := s.opState })
      hf ho hb (phaseStep_eq _ _ hphase) fun w hfw hmw how hphw => ?_
    have hwritten : step w = .next { w with opState := .running .enumerate .settle } := by
      rw [step_phaseWritten hfw (.inl hmw) how, phaseWritten_eq _ _ (hphw.trans hphase)]
    have hsettle := step_settle (s := { w with opState := .running .enumerate .settle }) hfw (.inl hmw) rfl
    rw [ho]
    exact stepsTo_succ hwritten (stepsTo_succ hsettle (stepsTo_zero _))
  · rw [step_phaseWritten hf (.inl hm) ho, phaseWritten_eq _ _ hphase]

/-! ## The probes -/

/-- What the two probes have in common (R183, R184). -/
theorem phaseStep_probe {s : State} (hphase : s.phase = .probe1 ∨ s.phase = .probe2) :
    phaseStep Config.params .enumerate s =
      readBegin Config.params .enumerate (positionAddr Config.params s.pos) 1 1 Config.params.regStatus s := by
  rcases hphase with hphase | hphase <;> exact phaseStep_eq _ _ hphase

/-- A probe that read `Ok` (R183, R184). -/
theorem phaseRead_probe_ok {s : State} (hphase : s.phase = .probe1 ∨ s.phase = .probe2) (acc : List Word) :
    phaseRead Config.params .enumerate acc .ok s = probeOk Config.params .enumerate s := by
  rcases hphase with hphase | hphase <;> exact phaseRead_eq _ _ _ _ hphase

/-- A probe that read anything else (R183, R184). -/
theorem phaseRead_probe_not_ok {s : State} (hphase : s.phase = .probe1 ∨ s.phase = .probe2) {st : Status} (h : st ≠ .ok)
    (acc : List Word) :
    phaseRead Config.params .enumerate acc st s =
      toPhase .enumerate (if s.phase = .probe1 then .wake else .assign) s := by
  rcases hphase with hphase | hphase
  · rw [phaseRead_eq _ _ _ _ hphase, hphase]; exact if_neg h
  · rw [phaseRead_eq _ _ _ _ hphase, hphase]; exact if_neg h

/-- Settles O42: the reads and returns of the two probes, and the wake delay between them. -/
theorem probePhases : Obligations.ProbePhases := by
  intro s hf hm ra rd
  refine ⟨fun hph ho hb => step_phase_read_idle hf hm ho hb readCheck_single (phaseStep_probe hph),
    fun hph ho hb => step_phase_read_busy hf hm ho hb readCheck_single (phaseStep_probe hph),
    fun hph ho hover hst => ?_, fun hph ho hst => ?_, fun hph ho => ?_⟩
  · have hstep := step_phaseRead hf (.inl hm) ho hover
    rw [hst, phaseRead_probe_ok (s := forgetReadRegs s) hph] at hstep
    exact ⟨_, hstep, rfl, ctRead_ctrReset_same ra s, fun a ha => ctRead_ctrReset_other ha s,
      addressedRead_write_same s.pos true s, fun p hp => addressedRead_write_other hp true s⟩
  · rw [step_phaseRead hf (.inl hm) ho (walkOver_eq_true.2 (.inl hst)),
      phaseRead_probe_not_ok (s := forgetReadRegs s) hph hst]
    rfl
  · rw [step_phase hf (.inl hm) ho, phaseStep_eq _ _ hph, ho]; rfl

end Sys2Proof.Proofs

namespace Sys2Proof.Proofs

open Machine

/-! ## The Assign phase -/

/-- After the write of the Assign phase, the directed entry is reset and the version register is next (R185). -/
theorem step_assigned {s : State} (hf : s.fault = none) (hm : s.moves = [])
    (ho : s.opState = .running .enumerate .written) (hphase : s.phase = .assign) :
    step s = .next (toPhase .enumerate .verify (ctrReset (positionAddr Config.params s.pos) s)) := by
  rw [step_phaseWritten hf (.inl hm) ho, phaseWritten_eq _ _ hphase]

/-- Settles O43: each of the write's three ends is followed by the reset of the directed entry. -/
theorem assignPhase : Obligations.AssignPhase := by
  intro s hf hphase ra value m
  have hentry (t : State) : ctRead ra (ctrReset ra t) = 0 ∧ ∀ a, a ≠ ra → ctRead a (ctrReset ra t) = ctRead a t :=
    ⟨ctRead_ctrReset_same ra t, fun a ha => ctRead_ctrReset_other ha t⟩
  refine ⟨fun ho hb => ?_, fun ho hb hm => step_phase_write_busy hf hm ho hb (phaseStep_eq _ _ hphase),
    fun ho hm => ⟨_, step_assigned hf hm ho hphase, rfl, hentry s⟩⟩
  obtain ⟨hcompleted, htimedOut, hstale⟩ := phase_writes (k := 1)
    (after := fun w => { ctrReset (positionAddr Config.params w.pos) w with phase := .verify, opState := s.opState })
    hf ho hb (phaseStep_eq _ _ hphase) fun w hfw hmw how hphw => by
      rw [ho]
      exact stepsTo_succ (step_assigned hfw hmw how (hphw.trans hphase)) (stepsTo_zero _)
  exact ⟨fun hm => ⟨_, hcompleted hm, rfl, hentry s⟩, fun hn hm => ⟨_, htimedOut hn hm, rfl, hentry s⟩,
    fun r hn hm => ⟨_, hstale r hn hm, rfl, hentry s⟩⟩

/-! ## The Verify phase -/

/-- Settles O44: the position's bit is the comparison of the read's status with `Ok`. -/
theorem verifyPhase : Obligations.VerifyPhase := by
  intro s hf hm hphase ra rd
  have hread := phaseStep_eq Config.params .enumerate hphase
  refine ⟨fun ho hb => step_phase_read_idle hf hm ho hb readCheck_single hread,
    fun ho hb => step_phase_read_busy hf hm ho hb readCheck_single hread, fun ho hover => ?_⟩
  have hstep := step_phaseRead hf (.inl hm) ho hover
  rw [phaseRead_eq (s := forgetReadRegs s) _ _ _ _ hphase] at hstep
  have hbit : addressedRead s.pos (addressedWrite s.pos (s.rd.st == .ok) s) = true ↔ s.rd.st = .ok := by
    rw [addressedRead_write_same, beq_iff_eq]
  exact ⟨_, hstep, rfl, hbit, fun p hp => addressedRead_write_other hp _ s⟩

/-! ## The Config and Uid phases -/

/-- After the write of the Config phase the identifier is next (R187). -/
theorem step_configured {s : State} (hf : s.fault = none) (hm : s.moves = [])
    (ho : s.opState = .running .enumerate .written) (hphase : s.phase = .config) :
    step s = .next (toPhase .enumerate .uid s) := by
  rw [step_phaseWritten hf (.inl hm) ho, phaseWritten_eq _ _ hphase]

/-- The count of a stored identifier, and any other (R29, R187). -/
theorem uidCountRead_uidStore_same (p : Nat) (acc : List Word) (s : State) :
    uidCountRead p (uidStore p acc s) = acc.length :=
  tableRead_write_same 0 acc.length p s.uidCount

theorem uidCountRead_uidStore_other {p q : Nat} (h : q ≠ p) (acc : List Word) (s : State) :
    uidCountRead q (uidStore p acc s) = uidCountRead q s :=
  tableRead_write_other 0 acc.length h s.uidCount

/-- A stored identifier has its items, word by word (R187). -/
theorem uidRead_uidStore_items {p i : Nat} {acc : List Word} (h : i < acc.length) (s : State) :
    uidRead p i (uidStore p acc s) = acc.getD i 0 := by
  have hplace : uidIndex p i = uidIndex p 0 + i := by rw [uidIndex, uidIndex, Nat.add_zero]
  rw [uidRead, hplace]
  exact tableRead_writeList_inside 0 acc (uidIndex p 0) i s.uid h

/-- The rows of the identifier table do not overlap, and words beyond the items keep their contents (R29, R187). -/
theorem uidRead_uidStore_other {p q i : Nat} {acc : List Word} (hlen : acc.length ≤ 256) (hi : i < 256)
    (h : q ≠ p ∨ acc.length ≤ i) (s : State) : uidRead q i (uidStore p acc s) = uidRead q i s := by
  refine tableRead_writeList_outside 0 acc (uidIndex p 0) (uidIndex q i) s.uid ?_
  unfold uidIndex
  omega

/-- The next position or the end of the walk: no table is changed (R181, R187). -/
theorem nextPosition_changes (P : Params) (op : Instr) (s : State) :
    nextPosition P op s = { s with
      pos := (nextPosition P op s).pos, phase := (nextPosition P op s).phase, opState := .running op .phase } := by
  unfold nextPosition
  split <;> rfl

theorem nextPosition_position (P : Params) (op : Instr) (s : State) :
    if s.pos < P.deviceCount
    then (nextPosition P op s).pos = s.pos + 1 ∧ (nextPosition P op s).phase = .sleep
    else (nextPosition P op s).pos = s.pos ∧ (nextPosition P op s).phase = .done := by
  unfold nextPosition
  split <;> exact ⟨rfl, rfl⟩

/-- The return of the identifier read: its items are stored, whatever its status (R187). -/
theorem step_identified {s : State} (hf : s.fault = none) (hm : s.moves = [])
    (ho : s.opState = .running .enumerate .frames) (hphase : s.phase = .uid) (hover : walkOver s.rd = true) :
    step s = .next (nextPosition Config.params .enumerate (uidStore s.pos s.rd.acc (forgetReadRegs s))) := by
  rw [step_phaseRead hf (.inl hm) ho hover, phaseRead_eq (s := forgetReadRegs s) _ _ _ _ hphase]; rfl

/-- Settles O45: the write and the read of the two phases, and what the identifier read stores. -/
theorem configAndUidPhases : Obligations.ConfigAndUidPhases := by
  intro s hf P ra m fc rd
  refine ⟨fun hph ho hb => ?_, fun hph ho hb hm => step_phase_write_busy hf hm ho hb (phaseStep_eq _ _ hph),
    fun hph ho hm => step_configured hf hm ho hph,
    fun hph ho hb hm => step_phase_read_idle hf hm ho hb readCheck_uid (phaseStep_eq _ _ hph),
    fun hph ho hb hm => step_phase_read_busy hf hm ho hb readCheck_uid (phaseStep_eq _ _ hph),
    fun hph ho hover hm hlen => ?_⟩
  · refine phase_writes (k := 1) (after := fun w => { w with phase := .uid, opState := s.opState }) hf ho hb
      (phaseStep_eq _ _ hph) fun w hfw hmw how hphw => ?_
    rw [ho]
    exact stepsTo_succ (step_configured hfw hmw how (hphw.trans hph)) (stepsTo_zero _)
  · let w := uidStore s.pos s.rd.acc (forgetReadRegs s)
    have hnext := nextPosition_changes P .enumerate w
    refine ⟨_, step_identified hf hm ho hph hover, ?_, nextPosition_position P .enumerate w, ?_⟩
    · rw [hnext]; rfl
    · rw [hnext]
      exact ⟨uidCountRead_uidStore_same .., fun p hp => uidCountRead_uidStore_other hp _ _,
        fun i hi => uidRead_uidStore_items hi _, fun p i hi hout => uidRead_uidStore_other hlen hi hout _⟩

/-! ## The start and the return of `ENUMERATE` -/

/-- The status of a walk is `Ok` exactly when every position ended addressed (R188). -/
theorem enumerationStatus_eq_ok_iff (P : Params) (s : State) :
    enumerationStatus P s = .ok ↔ ∀ p, 1 ≤ p → p ≤ P.deviceCount → addressedRead p s = true := by
  have hall : (List.range P.deviceCount).all (fun i => addressedRead (i + 1) s) = true ↔
      ∀ p, 1 ≤ p → p ≤ P.deviceCount → addressedRead p s = true := by
    rw [List.all_eq_true]
    constructor
    · intro h p hp1 hp
      obtain ⟨i, rfl⟩ := Nat.exists_eq_add_of_le' hp1
      exact h i (List.mem_range.2 hp)
    · exact fun h i hi => h (i + 1) (Nat.le_add_left ..) (List.mem_range.1 hi)
  rw [← hall, enumerationStatus]
  split
  · next h => exact iff_of_true rfl h
  · next h => exact iff_of_false nofun h

/-- The two statuses of a walk (R188). -/
theorem enumerationStatus_cases (P : Params) (s : State) :
    enumerationStatus P s = .ok ∨ enumerationStatus P s = .enumerationFailed := by
  unfold enumerationStatus
  split
  · exact .inl rfl
  · exact .inr rfl

/-- In phase `Done` the walk returns (R188). -/
theorem step_enumerateReturn {s : State} (hf : s.fault = none) (hm : s.moves = [])
    (ho : s.opState = .running .enumerate .phase) (hphase : s.phase = .done) :
    step s = .next (enumerateReturn Config.params s) := by
  rw [step_phase hf (.inl hm) ho, phaseStep_eq _ _ hphase]

/-- Settles O46: the start is the request's whole effect, and the status returned is that of R188. -/
theorem enumerationStartsAndReturns : Obligations.EnumerationStartsAndReturns :=
  ⟨fun _ => ⟨_, rfl, rfl, fun _ => rfl⟩, fun s hf hm ho hphase =>
    ⟨enumerationStatus Config.params s, step_enumerateReturn hf hm ho hphase, enumerationStatus_cases _ s,
      enumerationStatus_eq_ok_iff _ s⟩⟩

end Sys2Proof.Proofs

namespace Sys2Proof.Proofs

open Machine

/-! ## A silent transfer -/

/-- `s` is at a point of a phase of a walk, with an idle bus, no notification pending, and the moves `ms` coming. -/
structure SilentAt (pt : Point) (ph : Phase) (ms : List Move) (s : State) : Prop where
  fault : s.fault = none
  opState : s.opState = .running .enumerate pt
  busy : s.busy = .idle
  noteTx : s.noteTx = none
  noteRx : s.noteRx = none
  phase : s.phase = ph
  moves : s.moves = ms

/-- `u` has `k` records in flight more than `s`, and the same port, position and tables. -/
structure SilentFrom (k : Nat) (s u : State) : Prop where
  records : u.inflight.length = s.inflight.length + k
  port : u.port = s.port
  pos : u.pos = s.pos
  ct : u.ct = s.ct
  addressed : u.addressed = s.addressed
  uidCount : u.uidCount = s.uidCount

theorem SilentFrom.trans {k l : Nat} {s t u : State} (h : SilentFrom k s t) (h' : SilentFrom l t u) :
    SilentFrom (k + l) s u where
  records := by rw [h'.records, h.records, Nat.add_assoc]
  port := h'.port.trans h.port
  pos := h'.pos.trans h.pos
  ct := h'.ct.trans h.ct
  addressed := h'.addressed.trans h.addressed
  uidCount := h'.uidCount.trans h.uidCount

/-- A counter entry reset on both sides. -/
theorem SilentFrom.map_ctrReset {k : Nat} {s u : State} (h : SilentFrom k s u) (ra : Addr) :
    SilentFrom k (ctrReset ra s) (ctrReset ra u) :=
  { h with ct := congrArg (tableWrite 0 ra.toNat 0) h.ct }

/-- An `addressed` bit written on both sides. -/
theorem SilentFrom.map_addressedWrite {k : Nat} {s u : State} (h : SilentFrom k s u) (p : Nat) (b : Bool) :
    SilentFrom k (addressedWrite p b s) (addressedWrite p b u) :=
  { h with addressed := congrArg (tableWrite false p b) h.addressed }

/-- An identifier stored on both sides. -/
theorem SilentFrom.map_uidStore {k : Nat} {s u : State} (h : SilentFrom k s u) (p : Nat) (acc : List Word) :
    SilentFrom k (uidStore p acc s) (uidStore p acc u) :=
  { h with uidCount := congrArg (tableWrite 0 p acc.length) h.uidCount }

section Silent

variable {s : State} {rest : List Move}

/-- The start of another phase, whatever the last one wrote to the tables and the history. -/
theorem SilentAt.next {pt : Point} {ph ph' : Phase} {ct : Table Counter} {pos : Nat} {addressed : Table Bool}
    {uidCount : Table Nat} {uid : Table Word} {history : List Event} (h : SilentAt pt ph rest s) :
    SilentAt .phase ph' rest { s with
      ct := ct, phase := ph', pos := pos, addressed := addressed, uidCount := uidCount, uid := uid
      opState := .running .enumerate .phase, history := history } :=
  ⟨h.fault, rfl, h.busy, h.noteTx, h.noteRx, rfl, h.moves⟩

/-- A phase's transfer is accepted and times out: its wait ends with the bus idle and its record in flight (R144, R145). -/
theorem silent_transfer {c : Channel} {n : Nat} {m : Quad} {rd : ReadRegs} {ph : Phase}
    (h : SilentAt .phase ph (.answer .accepted :: .timeout c :: rest) s)
    (hclaim : phaseStep Config.params .enumerate s =
      { s with busy := .busy, txBuf := m, rd := rd, opState := .running .enumerate (.start c n) }) :
    ∃ t, stepsTo 3 s t ∧ SilentAt (afterWait c) ph rest t ∧ SilentFrom 1 s t ∧ (c = .rx → t.rd = readTimedOut rd) := by
  let w ms := phaseWaiting c n m rd ms s
  have hn : noteRead c (w (.timeout c :: rest)) = none := by
    cases c
    · exact h.noteTx
    · exact h.noteRx
  have htimeout : step (w (.timeout c :: rest)) = .next (waitTimedOut Config.params .enumerate c (w rest)) :=
    step_timeout h.fault rfl hn rfl
  refine ⟨_, stepsTo_add (phase_reaches_wait h.fault h.opState h.moves hclaim) (stepsTo_succ htimeout (stepsTo_zero _)),
    ?_⟩
  cases c
  · exact ⟨⟨h.fault, rfl, rfl, h.noteTx, h.noteRx, h.phase, rfl⟩, ⟨rfl, rfl, rfl, rfl, rfl, rfl⟩, nofun⟩
  · exact ⟨⟨h.fault, rfl, rfl, h.noteTx, h.noteRx, h.phase, rfl⟩, ⟨rfl, rfl, rfl, rfl, rfl, rfl⟩, fun _ => rfl⟩

/-- A phase that writes returns from the timeout of its write (R145, R205). -/
theorem silent_write {ra : Addr} {reg value : Word} {ph : Phase}
    (h : SilentAt .phase ph (.answer .accepted :: .timeout .tx :: rest) s) (hm : leavesTurn rest)
    (hph : phaseStep Config.params .enumerate s = writeBegin Config.params .enumerate ra reg value s) :
    ∃ t, stepsTo 4 s (phaseWritten Config.params .enumerate t) ∧ SilentAt .written ph rest t ∧ SilentFrom 1 s t := by
  obtain ⟨t, hrun, hat, hfrom, -⟩ := silent_transfer h (hph.trans (writeBegin_idle h.busy))
  have hreturn := step_phaseWritten hat.fault (hat.moves ▸ hm) hat.opState
  exact ⟨t, stepsTo_add hrun (stepsTo_succ hreturn (stepsTo_zero _)), hat, hfrom⟩

/-- A phase that reads returns from the timeout of its read with no items and the status `Timeout` (R170, R205). -/
theorem silent_read {ra : Addr} {n ipf : Nat} {reg : Word} {ph : Phase}
    (h : SilentAt .phase ph (.answer .accepted :: .timeout .rx :: rest) s) (hm : leavesTurn rest)
    (hc : readCheck Config.params n ipf = none)
    (hph : phaseStep Config.params .enumerate s = readBegin Config.params .enumerate ra n ipf reg s) :
    ∃ t, stepsTo 4 s (phaseRead Config.params .enumerate [] .timeout t) ∧ SilentAt .frames ph rest t ∧
      SilentFrom 1 s t := by
  obtain ⟨t, hrun, hat, hfrom, hrd⟩ := silent_transfer h (hph.trans (readBegin_idle hc h.busy))
  have hover : walkOver t.rd = true := by rw [hrd rfl]; rfl
  have hreturn := step_phaseRead hat.fault (hat.moves ▸ hm) hat.opState hover
  rw [hrd rfl] at hreturn
  exact ⟨forgetReadRegs t, stepsTo_add hrun (stepsTo_succ hreturn (stepsTo_zero _)), { hat with }, { hfrom with }⟩

/-! ## The phases of a silent position -/

/-- The sleep write and the settle delay (R182). -/
theorem silent_sleep (h : SilentAt .phase .sleep (.answer .accepted :: .timeout .tx :: rest) s) (hm : leavesTurn rest) :
    ∃ u, stepsTo 5 s u ∧ SilentAt .phase .probe1 rest u ∧ SilentFrom 1 s u := by
  obtain ⟨t, hrun, hat, hfrom⟩ := silent_write h hm (phaseStep_eq _ _ h.phase)
  rw [phaseWritten_eq _ _ hat.phase] at hrun
  have hsettle := step_settle (s := { t with opState := .running .enumerate .settle }) hat.fault (hat.moves ▸ hm) rfl
  exact ⟨_, stepsTo_add hrun (stepsTo_succ hsettle (stepsTo_zero _)), hat.next, { hfrom with }⟩

/-- A probe goes on to the wake delay the first time and to the assignment the second (R183, R184). -/
theorem silent_probe {ph : Phase} (hprobe : ph = .probe1 ∨ ph = .probe2)
    (h : SilentAt .phase ph (.answer .accepted :: .timeout .rx :: rest) s) (hm : leavesTurn rest) :
    ∃ u, stepsTo 4 s u ∧ SilentAt .phase (if ph = .probe1 then .wake else .assign) rest u ∧ SilentFrom 1 s u := by
  obtain ⟨t, hrun, hat, hfrom⟩ := silent_read h hm readCheck_single (phaseStep_probe (h.phase.symm ▸ hprobe))
  rw [phaseRead_probe_not_ok (st := .timeout) (hat.phase.symm ▸ hprobe) nofun, hat.phase] at hrun
  exact ⟨_, hrun, hat.next, { hfrom with }⟩

/-- The wake delay (R184). -/
theorem silent_wake (h : SilentAt .phase .wake rest s) (hm : leavesTurn rest) :
    ∃ u, stepsTo 1 s u ∧ SilentAt .phase .probe2 rest u ∧ SilentFrom 0 s u := by
  have hstep := step_phase h.fault (h.moves ▸ hm) h.opState
  rw [phaseStep_eq _ _ h.phase] at hstep
  exact ⟨_, stepsTo_succ hstep (stepsTo_zero _), h.next, ⟨rfl, rfl, rfl, rfl, rfl, rfl⟩⟩

/-- The assignment resets the directed entry (R185). -/
theorem silent_assign (h : SilentAt .phase .assign (.answer .accepted :: .timeout .tx :: rest) s)
    (hm : leavesTurn rest) :
    ∃ u, stepsTo 4 s u ∧ SilentAt .phase .verify rest u ∧
      SilentFrom 1 (ctrReset (positionAddr Config.params s.pos) s) u := by
  obtain ⟨t, hrun, hat, hfrom⟩ := silent_write h hm (phaseStep_eq _ _ h.phase)
  rw [phaseWritten_eq _ _ hat.phase, hfrom.pos] at hrun
  exact ⟨_, hrun, hat.next, { hfrom.map_ctrReset _ with }⟩

/-- The verification leaves the position unaddressed (R186). -/
theorem silent_verify (h : SilentAt .phase .verify (.answer .accepted :: .timeout .rx :: rest) s)
    (hm : leavesTurn rest) :
    ∃ u, stepsTo 4 s u ∧ SilentAt .phase .config rest u ∧ SilentFrom 1 (addressedWrite s.pos false s) u := by
  obtain ⟨t, hrun, hat, hfrom⟩ := silent_read h hm readCheck_single (phaseStep_eq _ _ h.phase)
  rw [phaseRead_eq _ _ _ _ hat.phase, hfrom.pos] at hrun
  exact ⟨_, hrun, hat.next, { hfrom.map_addressedWrite .. with }⟩

/-- The configuration (R187). -/
theorem silent_config (h : SilentAt .phase .config (.answer .accepted :: .timeout .tx :: rest) s)
    (hm : leavesTurn rest) :
    ∃ u, stepsTo 4 s u ∧ SilentAt .phase .uid rest u ∧ SilentFrom 1 s u := by
  obtain ⟨t, hrun, hat, hfrom⟩ := silent_write h hm (phaseStep_eq _ _ h.phase)
  rw [phaseWritten_eq _ _ hat.phase] at hrun
  exact ⟨_, hrun, hat.next, { hfrom with }⟩

/-- The identifier read stores no word, and the walk goes on (R187). -/
theorem silent_uid (h : SilentAt .phase .uid (.answer .accepted :: .timeout .rx :: rest) s) (hm : leavesTurn rest) :
    ∃ t, stepsTo 4 s (nextPosition Config.params .enumerate t) ∧ SilentAt .frames .uid rest t ∧
      SilentFrom 1 (uidStore s.pos [] s) t := by
  obtain ⟨t, hrun, hat, hfrom⟩ := silent_read h hm readCheck_uid (phaseStep_eq _ _ h.phase)
  rw [phaseRead_eq _ _ _ _ hat.phase, hfrom.pos] at hrun
  exact ⟨_, hrun, { hat with }, hfrom.map_uidStore ..⟩

/-! ## A silent position -/

/-- What a silent position leaves in the tables: its directed entry reset, itself unaddressed and without an identifier. -/
def silentOutcome (P : Params) (s : State) : State :=
  uidStore s.pos [] (addressedWrite s.pos false (ctrReset (positionAddr P s.pos) s))

/-- From the sleep write to the second probe: three transfers (R182 to R184). -/
theorem silent_probing
    (h : SilentAt .phase .sleep
      ([.tx, .rx, .rx].flatMap (fun c => [.answer .accepted, .timeout c]) ++ rest) s) (hm : leavesTurn rest) :
    ∃ u, stepsTo 14 s u ∧ SilentAt .phase .assign rest u ∧ SilentFrom 3 s u := by
  obtain ⟨s1, run1, at1, from1⟩ := silent_sleep h (leavesTurn_answer ..)
  obtain ⟨s2, run2, at2, from2⟩ := silent_probe (.inl rfl) at1 (leavesTurn_answer ..)
  obtain ⟨s3, run3, at3, from3⟩ := silent_wake at2 (leavesTurn_answer ..)
  obtain ⟨s4, run4, at4, from4⟩ := silent_probe (.inr rfl) at3 hm
  exact ⟨s4, stepsTo_add (stepsTo_add (stepsTo_add run1 run2) run3) run4, at4,
    ((from1.trans from2).trans from3).trans from4⟩

/-- A silent position in all its phases, seven transfers, up to the choice of the next position (R181 to R187). -/
theorem silent_position (h : SilentAt .phase .sleep (silentPosition ++ rest) s) (hm : leavesTurn rest) :
    ∃ t, stepsTo 30 s (nextPosition Config.params .enumerate t) ∧ SilentAt .frames .uid rest t ∧
      SilentFrom 7 (silentOutcome Config.params s) t := by
  obtain ⟨s1, run1, at1, from1⟩ := silent_probing h (leavesTurn_answer ..)
  obtain ⟨s2, run2, at2, from2⟩ := silent_assign at1 (leavesTurn_answer ..)
  obtain ⟨s3, run3, at3, from3⟩ := silent_verify at2 (leavesTurn_answer ..)
  obtain ⟨s4, run4, at4, from4⟩ := silent_config at3 (leavesTurn_answer ..)
  obtain ⟨t, run5, at5, from5⟩ := silent_uid at4 hm
  rw [from1.pos] at from2
  have reset := (from1.map_ctrReset _).trans from2
  have hpos2 : s2.pos = s.pos := reset.pos
  rw [hpos2] at from3
  have configured := ((reset.map_addressedWrite _ _).trans from3).trans from4
  have hpos4 : s4.pos = s.pos := configured.pos
  rw [hpos4] at from5
  exact ⟨t, stepsTo_add (stepsTo_add (stepsTo_add (stepsTo_add run1 run2) run3) run4) run5, at5,
    (configured.map_uidStore _ _).trans from5⟩

end Silent

/-! ## A silent walk -/

/-- `u` is the walk that began in `s`, after its first `k` positions, all of them silent. -/
structure SilentWalk (k : Nat) (s u : State) : Prop where
  stands : SilentAt .phase (if k < Config.params.deviceCount then .sleep else .done)
    (List.replicate (Config.params.deviceCount - k) silentPosition).flatten u
  pos : k < Config.params.deviceCount → u.pos = k + 1
  records : u.inflight.length = s.inflight.length + 7 * k
  port : u.port = none
  addressed : ∀ p, addressedRead p u = false
  uidCount : ∀ p, 1 ≤ p → p ≤ k → uidCountRead p u = 0
  ct : ∀ p, 1 ≤ p → p ≤ k → ctRead (positionAddr Config.params p) u = 0
  others : ∀ a, (∀ p, 1 ≤ p → p ≤ k → a ≠ positionAddr Config.params p) → ctRead a u = ctRead a s

theorem leavesTurn_silent (n : Nat) : leavesTurn (List.replicate n silentPosition).flatten := by
  cases n with
  | zero => exact leavesTurn_nil
  | succ n => exact leavesTurn_answer ..

/-- The moves of one position stand before those of the rest. -/
theorem flatten_replicate_silent {k n : Nat} (h : k < n) :
    (List.replicate (n - k) silentPosition).flatten =
      silentPosition ++ (List.replicate (n - (k + 1)) silentPosition).flatten := by
  rw [show n - k = n - (k + 1) + 1 by omega, List.replicate_succ, List.flatten_cons]

/-- After the identifier read the walk stands at the next position, or is done (R181). -/
theorem SilentAt.nextPosition {pt : Point} {ph : Phase} {ms : List Move} {t : State} (h : SilentAt pt ph ms t) :
    SilentAt .phase (if t.pos < Config.params.deviceCount then .sleep else .done) ms
      (nextPosition Config.params .enumerate t) := by
  unfold Machine.nextPosition
  split
  · exact h.next
  · exact h.next

/-- No bit is set by clearing one. -/
theorem addressedRead_clear {s : State} (h : ∀ p, addressedRead p s = false) (q p : Nat) :
    addressedRead p (addressedWrite q false s) = false := by
  by_cases hp : p = q
  · rw [hp, addressedRead_write_same]
  · rw [addressedRead_write_other hp, h]

/-- One position more has no identifier. -/
theorem uidCountRead_clear {k : Nat} {s : State} (h : ∀ p, 1 ≤ p → p ≤ k → uidCountRead p s = 0) (p : Nat) (hp1 : 1 ≤ p)
    (hp : p ≤ k + 1) : uidCountRead p (uidStore (k + 1) [] s) = 0 := by
  by_cases hlast : p = k + 1
  · rw [hlast, uidCountRead_uidStore_same, List.length_nil]
  · exact (uidCountRead_uidStore_other hlast [] s).trans (h p hp1 (by omega))

/-- One position's entry more is reset. -/
theorem ctRead_clear {P : Params} {k : Nat} {s : State}
    (h : ∀ p, 1 ≤ p → p ≤ k → ctRead (positionAddr P p) s = 0) (p : Nat) (hp1 : 1 ≤ p) (hp : p ≤ k + 1) :
    ctRead (positionAddr P p) (ctrReset (positionAddr P (k + 1)) s) = 0 := by
  by_cases hlast : positionAddr P p = positionAddr P (k + 1)
  · rw [hlast, ctRead_ctrReset_same]
  · have hne : p ≠ k + 1 := fun e => hlast (congrArg _ e)
    exact (ctRead_ctrReset_other hlast s).trans (h p hp1 (by omega))

/-- One silent position more. -/
theorem SilentWalk.succ {k : Nat} {s u : State} (h : SilentWalk k s u) (hk : k < Config.params.deviceCount) :
    ∃ v, stepsTo 30 u v ∧ SilentWalk (k + 1) s v := by
  have hat := h.stands
  rw [if_pos hk, flatten_replicate_silent hk] at hat
  obtain ⟨t, hrun, hend, hfrom⟩ := silent_position hat (leavesTurn_silent _)
  have hpos := h.pos hk
  have htpos : t.pos = k + 1 := hfrom.pos.trans hpos
  have hnext := nextPosition_changes Config.params .enumerate t
  have hct (a : Addr) : ctRead a (nextPosition Config.params .enumerate t) =
      ctRead a (ctrReset (positionAddr Config.params (k + 1)) u) := by
    rw [hnext, ← hpos]; exact ctRead_congr hfrom.ct a
  refine ⟨_, hrun, htpos ▸ hend.nextPosition, fun hlt => ?_, ?_, ?_, fun p => ?_, fun p hp1 hp => ?_,
    fun p hp1 hp => ?_, fun a ha => ?_⟩
  · have hchoice := nextPosition_position Config.params .enumerate t
    rw [htpos, if_pos hlt] at hchoice
    exact hchoice.1
  · have hrecords : t.inflight.length = u.inflight.length + 7 := hfrom.records
    rw [hnext, hrecords, h.records]; omega
  · rw [hnext]
    exact hfrom.port.trans h.port
  · rw [← addressedRead_clear h.addressed (k + 1) p, hnext, ← hpos]
    exact congrArg (tableRead false p) hfrom.addressed
  · rw [← uidCountRead_clear h.uidCount p hp1 hp, hnext, ← hpos]
    exact congrArg (tableRead 0 p) hfrom.uidCount
  · rw [hct, ctRead_clear h.ct p hp1 hp]
  · rw [hct, ctRead_ctrReset_other (ha (k + 1) (by omega) (Nat.le_refl _))]
    exact h.others a fun p hp1 hp => ha p hp1 (by omega)

/-- A silent walk through its first `k` positions, 30 steps each. -/
theorem SilentWalk.run {s : State} (h : SilentWalk 0 s s) {k : Nat} (hk : k ≤ Config.params.deviceCount) :
    ∃ u, stepsTo (30 * k) s u ∧ SilentWalk k s u := by
  induction k with
  | zero => exact ⟨s, stepsTo_zero s, h⟩
  | succ k ih =>
    obtain ⟨u, hrun, hu⟩ := ih (by omega)
    obtain ⟨v, hstep, hv⟩ := hu.succ hk
    exact ⟨v, stepsTo_add hrun hstep, hv⟩

/-- `ENUMERATE` is taken off the port while the answer to the first transfer start waits for it, and the walk begins (R90,
R180). -/
theorem step_enumerate_taken {s : State} {o : Origin} {n : Nat} (hf : s.fault = none) (ho : s.opState = .ready)
    (hp : s.port = some ⟨.req, o, [0xB000]⟩) (hm : s.moves = (List.replicate (n + 1) silentPosition).flatten) :
    step s = .next (enumerateBegin .enumerate (accept .enumerate (takeRequest ⟨.req, o, [0xB000]⟩ s))) :=
  step_request_taken (op := .enumerate) (decodeEncodeAgree .enumerate rfl) hf ho hp hm

/-- Settles O48: the walk stands at its first position after one step, and returns one step after its last. -/
theorem silentChainEnumeration : Obligations.SilentChainEnumeration := by
  intro s o N hf ho hb htx hrx hp hm
  obtain ⟨-, hN, -⟩ := valid_ranges params_valid
  obtain ⟨n, hn⟩ := Nat.exists_eq_add_of_le' hN
  let begun := enumerateBegin .enumerate (accept .enumerate (takeRequest ⟨.req, o, [0xB000]⟩ s))
  have hbegin : step s = .next begun := step_enumerate_taken (n := n) hf ho hp (hn ▸ hm)
  have hwalk : SilentWalk 0 begun begun :=
    { stands := ⟨hf, rfl, hb, htx, hrx, (if_pos hN).symm, hm⟩
      pos := fun _ => rfl
      records := rfl
      port := rfl
      addressed := fun _ => rfl
      uidCount := fun p hp1 hp => by omega
      ct := fun p hp1 hp => by omega
      others := fun _ _ => rfl }
  obtain ⟨u, hrun, hu⟩ := hwalk.run (Nat.le_refl N)
  have hat := hu.stands
  rw [if_neg (Nat.lt_irrefl _), Nat.sub_self] at hat
  have hreturn := step_enumerateReturn hat.fault hat.moves hat.opState hat.phase
  have hstatus : enumerationStatus Config.params u = .enumerationFailed := by
    refine (enumerationStatus_cases _ u).resolve_left fun hok => ?_
    have hfirst := (enumerationStatus_eq_ok_iff _ u).1 hok 1 (Nat.le_refl 1) hN
    cases (hu.addressed 1).symm.trans hfirst
  have hsteps : stepsTo (30 * N + 2) s (enumerateReturn Config.params u) :=
    stepsTo_succ hbegin (stepsTo_add hrun (stepsTo_succ hreturn (stepsTo_zero _)))
  exact ⟨_, hsteps, congrArg (fun st => some (Response.status st)) hstatus, rfl, rfl, rfl, hat.busy, hat.fault, hat.moves, hu.port,
    hu.records, fun p hp1 hp => ⟨hu.addressed p, hu.uidCount p hp1 hp, hu.ct p hp1 hp⟩, hu.others⟩

end Sys2Proof.Proofs

namespace Sys2Proof.Proofs

open Machine

/-! ## What the other agents leave alone -/

/-- No move of another agent writes the string id or the response port (R21, R146, R204). -/
theorem agentMove_keeps {P : Params} {m : Move} {s t : State} (h : agentMove P m s = some t) :
    t.string = s.string ∧ t.response = s.response := by
  rcases agentMove_cases h with ⟨r, -, -, rfl⟩ | ⟨a, op, c, n, -, -, rfl⟩ | ⟨tr, ws, -, -, rfl⟩ | ⟨op, c, -, -, -, rfl⟩
  · exact ⟨rfl, rfl⟩
  · cases a <;> exact ⟨rfl, rfl⟩
  · rw [completion_eq]; cases tr.kind <;> exact ⟨rfl, rfl⟩
  · cases c <;> exact ⟨rfl, rfl⟩

/-! ## The response port during a walk -/

/-- A phase rule writes the response port only by the return in phase `Done` (R188, R205). -/
theorem phaseStep_response (P : Params) (op : Instr) (s : State) :
    (phaseStep P op s).response = s.response ∨ s.phase = .done ∧ (phaseStep P op s).opState = .ready := by
  have hwrite (ra : Addr) (reg value : Word) : (writeBegin P op ra reg value s).response = s.response := by
    rw [writeBegin_changes]
  have hread (ra : Addr) (n ipf : Nat) (reg : Word) : (readBegin P op ra n ipf reg s).response = s.response := by
    rw [readBegin_changes]
  cases hph : s.phase <;> rw [phaseStep_eq P op hph]
  case done => exact .inr ⟨rfl, rfl⟩
  case sleep | assign | config => exact .inl (hwrite ..)
  case probe1 | probe2 | verify | uid => exact .inl (hread ..)
  case idle | wake => exact .inl rfl

/-- The write of a phase returns to the walk (R205). -/
theorem phaseWritten_response (P : Params) (op : Instr) (s : State) : (phaseWritten P op s).response = s.response := by
  rcases phaseWritten_cases P op s with ⟨-, h⟩ | ⟨-, h⟩ | ⟨-, h⟩ | ⟨-, h⟩ <;> rw [h] <;> rfl

/-- The read of a phase returns to the walk (R205). -/
theorem phaseRead_response (P : Params) (op : Instr) (acc : List Word) (st : Status) (s : State) :
    (phaseRead P op acc st s).response = s.response := by
  rw [phaseRead_changes]

/-- The engine is inside `ENUMERATE`, at a point of a phase or waiting for a transfer (R205). -/
def enumerating (s : State) : Prop :=
  (∃ pt, s.opState = .running .enumerate pt) ∨ ∃ c, s.opState = .waiting .enumerate c

theorem enumerating_not_ready {s : State} (h : enumerating s) : s.opState ≠ .ready := by
  rcases h with ⟨pt, h⟩ | ⟨c, h⟩ <;> rw [h] <;> exact nofun

theorem op_of_enumerating {s : State} (h : enumerating s) {op : Instr} {pt : Point} (ho : s.opState = .running op pt) :
    op = .enumerate := by
  rcases h with ⟨pt', h⟩ | ⟨c, h⟩ <;> cases h.symm.trans ho
  rfl

/-- Inside a walk the engine's step writes the response port only by the walk's own return (R205). -/
theorem engineStep_response {P : Params} {s t : State} (hin : enumerating s) (h : engineStep P s = some t) :
    t.response = s.response ∨ s.phase = .done ∧ t.opState = .ready := by
  rcases engineStep_cases h with ⟨op, c, r, -, -, rfl⟩ | ⟨op, -, rfl⟩ | ⟨op, ho, rfl⟩ | ⟨op, -, rfl⟩ |
    ⟨op, ho, -, rfl⟩ | ⟨op, -, -, rfl⟩
  · cases c <;> exact .inl rfl
  · exact phaseStep_response P op s
  · cases op_of_enumerating hin ho
    exact .inl (phaseWritten_response P .enumerate s)
  · exact .inl rfl
  · cases op_of_enumerating hin ho
    exact .inl (phaseRead_response P .enumerate s.rd.acc s.rd.st (forgetReadRegs s))
  · exact .inl (by rw [frameStep_changes])

/-- Settles O47: of what a step inside a walk can do, only the engine's step writes the response port. -/
theorem innerCallsDoNotRespond : Obligations.InnerCallsDoNotRespond := by
  intro s t hin hreset hstep hne
  rcases step_cases hstep with ⟨rest, hm, -⟩ | ⟨-, ms, -, rfl | ⟨r, ho, -, -⟩ | he | ⟨m, -, ha⟩⟩
  · exact absurd hm (hreset rest)
  · exact absurd rfl hne
  · exact absurd ho (enumerating_not_ready hin)
  · exact (engineStep_response (s := { s with moves := ms }) hin he).resolve_left hne
  · exact absurd (agentMove_keeps ha).2 hne

/-! ## The strings side by side -/

/-- A request writes no string id, whether it is run or refused (R21). -/
theorem runRequest_string {r : Request} {s t : State} (h : runRequest r s = .next t) : t.string = s.string := by
  rcases runRequest_cases r s with ⟨i, -, e⟩ | ⟨err, -, e⟩
  · rw [exec_changes (e.symm.trans h)]; rfl
  · cases e.symm.trans h; rfl

/-- No step writes the string id (R21). -/
theorem step_string {s t : State} (h : step s = .next t) : t.string = s.string := by
  rcases step_cases h with ⟨rest, -, rfl⟩ | ⟨-, ms, -, rfl | ⟨r, -, -, hr⟩ | he | ⟨m, -, ha⟩⟩
  · rfl
  · rfl
  · exact (runRequest_string hr :)
  · exact (engineStep_keeps he).1
  · exact (agentMove_keeps ha).1

/-- A step of the system replaces the record of one string and no other (R60, R210). -/
theorem systemStep_eq {i : Nat} {y y' : System} (h : systemStep i y = some y') :
    ∃ s', y'.strings = y.strings.set i s' := by
  unfold systemStep at h
  split at h
  · cases h
  · split at h
    · next s' _ => cases h; exact ⟨s', rfl⟩
    · cases h
    · cases h

/-- Settles O52: the other records are those of before, and no operation writes the string id. -/
theorem stringsShareNothing : Obligations.StringsShareNothing := by
  refine ⟨fun i y y' h => ?_, fun s t => step_string⟩
  obtain ⟨s', hset⟩ := systemStep_eq h
  rw [hset]
  exact ⟨List.length_set, fun j hj => List.getElem?_set_ne hj.symm⟩

end Sys2Proof.Proofs

namespace Sys2Proof.Proofs

open Machine

/-! ## A state with a longer past -/

/-- `s` with the events `past` before all those of its history (R212). -/
def withPast (past : List Event) (s : State) : State :=
  { s with history := s.history ++ past }

/-- The same outcome, with a longer past where it is a next state. -/
def outcomeWithPast (past : List Event) :
    Host.Outcome State Fault Refusal → Host.Outcome State Fault Refusal
  | .next t => .next (withPast past t)
  | .fault f => .fault f
  | .refused r => .refused r

section Past

variable (past : List Event) (P : Params) (op : Instr) (s : State)

@[simp] theorem withPast_string : (withPast past s).string = s.string := rfl
@[simp] theorem withPast_busy : (withPast past s).busy = s.busy := rfl
@[simp] theorem withPast_pos : (withPast past s).pos = s.pos := rfl
@[simp] theorem withPast_rd : (withPast past s).rd = s.rd := rfl
@[simp] theorem withPast_opState : (withPast past s).opState = s.opState := rfl
@[simp] theorem withPast_port : (withPast past s).port = s.port := rfl
@[simp] theorem withPast_fault : (withPast past s).fault = s.fault := rfl
@[simp] theorem withPast_moves : (withPast past s).moves = s.moves := rfl
@[simp] theorem withPast_noteRead (c : Channel) : noteRead c (withPast past s) = noteRead c s := rfl

/-! ## Operations that read no history -/

theorem internalOnly_withPast {run : State → State} (hrun : run (withPast past s) = withPast past (run s)) :
    internalOnly run (withPast past s) = withPast past (internalOnly run s) := by
  cases ho : s.origin with
  | caller => rw [internalOnly_caller run ho, internalOnly_caller run (s := withPast past s) ho]; rfl
  | harness => rw [internalOnly_harness run ho, internalOnly_harness run (s := withPast past s) ho, hrun]

theorem decodeWords_withPast (words : List Word) :
    decodeWords P words (withPast past s) = (decodeWords P words s).map (Prod.map (withPast past) id) := by
  unfold decodeWords
  split
  · rfl
  · split
    · rfl
    · split
      · rfl
      · rw [decodeFramed_eq, decodeFramed_eq]; rfl

theorem decomposeOp_withPast (words : List Word) :
    decomposeOp P words (withPast past s) = withPast past (decomposeOp P words s) := by
  unfold decomposeOp
  rw [decodeWords_withPast]
  cases decodeWords P words s <;> rfl

theorem gateClaim_withPast (c : Channel) (n : Nat) (m : List Word) :
    gateClaim op c n m (withPast past s) = withPast past (gateClaim op c n m s) := by
  unfold gateClaim acquire
  rw [withPast_busy]
  cases s.busy <;> rfl

theorem writeBegin_withPast (ra : Addr) (reg value : Word) :
    writeBegin P op ra reg value (withPast past s) = withPast past (writeBegin P op ra reg value s) := by
  rw [writeBegin_eq, writeBegin_eq, gateClaim_withPast]

theorem readBegin_withPast (ra : Addr) (n ipf : Nat) (reg : Word) :
    readBegin P op ra n ipf reg (withPast past s) = withPast past (readBegin P op ra n ipf reg s) := by
  rw [readBegin_eq, readBegin_eq]
  split
  · rfl
  · exact gateClaim_withPast past op { s with rd := readLatch ra n ipf reg s.rd } ..

/-! ## Requests -/

theorem exec_withPast (i : Instr) : exec i (withPast past s) = outcomeWithPast past (exec i s) := by
  have hinternal {run : State → State} (hrun : run (withPast past s) = withPast past (run s)) :
      .next (internalOnly run (withPast past s)) = outcomeWithPast past (.next (internalOnly run s)) :=
    congrArg _ (internalOnly_withPast past s hrun)
  cases i with
  | crcCompute words =>
    refine hinternal ?_
    unfold crcComputeOp
    split <;> rfl
  | crcVerify words expected =>
    refine hinternal ?_
    unfold crcVerifyOp
    split <;> rfl
  | compose cmd madd ra reg length values =>
    refine hinternal ?_
    unfold composeOp
    split <;> rfl
  | ctrExpected ra => exact hinternal rfl
  | ctrAdvance ra => exact hinternal rfl
  | ctrReset ra stringId =>
    refine congrArg Host.Outcome.next (?_ : ctrResetOp ra stringId (withPast past s) = _)
    unfold ctrResetOp
    rw [withPast_string]
    split <;> rfl
  | decompose words => exact hinternal (decomposeOp_withPast ..)
  | msgNop madd ra cnt dl body => exact hinternal (decomposeOp_withPast ..)
  | msgRead madd ra cnt dl body => exact hinternal (decomposeOp_withPast ..)
  | msgWrite madd ra cnt dl body => exact hinternal (decomposeOp_withPast ..)
  | msgResponse madd ra cnt dl body => exact hinternal (decomposeOp_withPast ..)
  | write ra reg value => exact congrArg _ (writeBegin_withPast past _ _ (accept (.write ra reg value) s) ..)
  | read ra reg => exact congrArg _ (readBegin_withPast past _ _ (accept (.read ra reg) s) ..)
  | readMultiple ra n ipf reg =>
    exact congrArg _ (readBegin_withPast past _ _ (accept (.readMultiple ra n ipf reg) s) ..)
  | _ => rfl

theorem runRequest_withPast (r : Request) :
    runRequest r (withPast past s) = outcomeWithPast past (runRequest r s) := by
  unfold runRequest
  split
  · exact exec_withPast past (takeRequest r s) _
  · rfl

/-! ## The engine and the other agents -/

theorem phaseStep_withPast : phaseStep P op (withPast past s) = withPast past (phaseStep P op s) := by
  cases hph : s.phase <;> rw [phaseStep_eq P op hph, phaseStep_eq P op (s := withPast past s) hph]
  case sleep | assign | config => exact writeBegin_withPast ..
  case probe1 | probe2 | verify | uid => exact readBegin_withPast ..
  all_goals rfl

theorem phaseWritten_withPast : phaseWritten P op (withPast past s) = withPast past (phaseWritten P op s) := by
  cases hph : s.phase <;> rw [phaseWritten_eq P op hph, phaseWritten_eq P op (s := withPast past s) hph] <;> rfl

theorem writeReturns_withPast : writeReturns P op (withPast past s) = withPast past (writeReturns P op s) := by
  cases op
  case enumerate => exact phaseWritten_withPast ..
  all_goals rfl

theorem nextPosition_withPast : nextPosition P op (withPast past s) = withPast past (nextPosition P op s) := by
  unfold nextPosition
  rw [withPast_pos]
  split <;> rfl

theorem phaseRead_withPast (acc : List Word) (st : Status) :
    phaseRead P op acc st (withPast past s) = withPast past (phaseRead P op acc st s) := by
  cases hph : s.phase <;> rw [phaseRead_eq P op acc st hph, phaseRead_eq P op acc st (s := withPast past s) hph]
  case probe1 | probe2 => dsimp only; split <;> rfl
  case uid => exact nextPosition_withPast past P op (uidStore s.pos acc s)
  all_goals rfl

theorem readReturns_withPast : readReturns P op (withPast past s) = withPast past (readReturns P op s) := by
  cases op
  case enumerate => exact phaseRead_withPast past P .enumerate (forgetReadRegs s) ..
  all_goals rfl

theorem frameStep_withPast : frameStep P (withPast past s) = withPast past (frameStep P s) := by
  have hdecode : decodeWords P (frameWords (withPast past s)) (withPast past s) = _ :=
    decodeWords_withPast past P s (frameWords s)
  cases h : decodeWords P (frameWords s) s with
  | error f => simp only [frameStep, h, hdecode]; rfl
  | ok r =>
    obtain ⟨t, sd⟩ := r
    rw [h] at hdecode
    by_cases ha : answerStatus sd t.d s.rd.ra (expectedReg s.rd.reg s.rd.k s.rd.ipf) = .ok
    · rw [frameStep_passes h ha, frameStep_passes hdecode ha]; rfl
    · rw [frameStep_fails h rfl ha, frameStep_fails hdecode rfl ha]; rfl

theorem engineStep_withPast : engineStep P (withPast past s) = (engineStep P s).map (withPast past) := by
  unfold engineStep
  rw [withPast_opState]
  cases s.opState with
  | ready => rfl
  | waiting op c =>
    dsimp only
    rw [withPast_noteRead]
    cases noteRead c s with
    | none => rfl
    | some r => cases c <;> rfl
  | running op pt =>
    cases pt with
    | entry => rfl
    | start c n => rfl
    | phase => exact congrArg some (phaseStep_withPast ..)
    | written => exact congrArg some (writeReturns_withPast ..)
    | settle => rfl
    | frames =>
      dsimp only
      rw [withPast_rd]
      split
      · exact congrArg some (readReturns_withPast ..)
      · exact congrArg some (frameStep_withPast ..)

theorem completion_withPast (t : Transfer) (ws : List Word) :
    completion t ws (withPast past s) = withPast past (completion t ws s) := by
  unfold completion
  cases t.kind <;> rfl

theorem agentMove_withPast (m : Move) : agentMove P m (withPast past s) = (agentMove P m s).map (withPast past) := by
  cases m with
  | engine => rfl
  | reset => rfl
  | request r =>
    dsimp only [agentMove]
    rw [withPast_port]
    cases s.port <;> rfl
  | answer a =>
    dsimp only [agentMove]
    rw [withPast_opState]
    cases s.opState with
    | running op pt =>
      cases pt with
      | start c n => cases a <;> rfl
      | _ => rfl
    | _ => rfl
  | complete t ws =>
    have henabled : completionEnabled t ws (withPast past s) = completionEnabled t ws s := rfl
    dsimp only [agentMove]
    rw [henabled, completion_withPast]
    split <;> rfl
  | timeout c =>
    dsimp only [agentMove]
    rw [withPast_opState]
    cases s.opState with
    | waiting op c' =>
      dsimp only
      rw [withPast_noteRead]
      split
      · cases c <;> rfl
      · rfl
    | _ => rfl

/-! ## Whole steps -/

theorem engineTurn_withPast : engineTurn (withPast past s) = (engineTurn s).map (outcomeWithPast past) := by
  have hgo : (engineStep Config.params (withPast past s)).map Host.Outcome.next =
      ((engineStep Config.params s).map Host.Outcome.next).map (outcomeWithPast past) := by
    rw [engineStep_withPast, Option.map_map, Option.map_map]; rfl
  unfold engineTurn
  rw [withPast_opState, withPast_port]
  split
  · rfl
  · exact congrArg some (runRequest_withPast ..)
  · exact hgo

/-- Holding, or another state, in place of the engine's turn. -/
theorem engineOrElse_withPast (hold : State) :
    (engineTurn (withPast past s)).getD (.next (withPast past hold)) =
      outcomeWithPast past ((engineTurn s).getD (.next hold)) := by
  rw [engineTurn_withPast]
  cases engineTurn s <;> rfl

theorem moveStep_withPast (m : Move) (rest : List Move) :
    moveStep m rest (withPast past s) = outcomeWithPast past (moveStep m rest s) := by
  have hmove : agentMove Config.params m { withPast past s with moves := rest } = _ :=
    agentMove_withPast past Config.params { s with moves := rest } m
  unfold moveStep
  split
  · exact engineOrElse_withPast past { s with moves := rest } { s with moves := rest }
  · rw [hmove]
    cases agentMove Config.params m { s with moves := rest } with
    | some t => rfl
    | none => exact engineOrElse_withPast past s { s with moves := rest }

theorem liveStep_withPast : liveStep (withPast past s) = outcomeWithPast past (liveStep s) := by
  unfold liveStep
  rw [withPast_moves]
  split
  · exact engineOrElse_withPast past s s
  · exact moveStep_withPast ..

/-- A step reads no event: with a longer past it has the same outcome, over the same past (R212). -/
theorem step_withPast : step (withPast past s) = outcomeWithPast past (step s) := by
  unfold step
  rw [withPast_moves, withPast_fault]
  split
  · rfl
  · rfl
  · exact liveStep_withPast ..

end Past

/-- A step does on any history what it does on the empty one. -/
theorem step_history (s : State) (h : List Event) :
    step { s with history := h } = outcomeWithPast h (step { s with history := [] }) :=
  step_withPast h { s with history := [] }

/-- Settles O53: the events of the step from the empty history are those put in front of any other. -/
theorem historyIsNotRead : Obligations.HistoryIsNotRead := by
  intro s h
  rw [step_history s h, show step s = _ from step_history s s.history]
  cases step { s with history := [] } with
  | next t => exact ⟨t.history, rfl, rfl⟩
  | fault f => rfl
  | refused r => rfl

end Sys2Proof.Proofs

namespace Sys2Proof.Proofs

open Machine

/-! ## A reset at any time -/

/-- A reset is looked at before the fault and before the control point: its step is the restart (R220, entry 15). -/
theorem step_of_reset {s : State} {rest : List Move} (h : s.moves = .reset :: rest) :
    step s = .next (restart rest s) := by
  simp only [step, h]

@[simp] theorem ctRead_restart (a : Addr) (ms : List Move) (s : State) : ctRead a (restart ms s) = 0 :=
  tableRead_nil 0 a.toNat

@[simp] theorem addressedRead_restart (p : Nat) (ms : List Move) (s : State) :
    addressedRead p (restart ms s) = false :=
  tableRead_nil false p

@[simp] theorem uidCountRead_restart (p : Nat) (ms : List Move) (s : State) : uidCountRead p (restart ms s) = 0 :=
  tableRead_nil 0 p

/-- Settles O51: the step is the restart, which clears the tables and takes from the old state no element but the string id. -/
theorem resetAtAnyTime : Obligations.ResetAtAnyTime := by
  intro s rest hm
  exact ⟨restart rest s, step_of_reset hm, fun a => ctRead_restart a rest s, rfl, rfl, rfl, rfl, rfl, rfl,
    fun p => addressedRead_restart p rest s, fun p => uidCountRead_restart p rest s, rfl, rfl, rfl, rfl, rfl, rfl⟩

end Sys2Proof.Proofs
